-- ==== Sys2Proof/Word.lean ====
section
/-! DEFINITION. The word types of L2C (00_scope.md R17, R18): bits, bytes, the 32-bit command and result words. -/

namespace Sys2Proof

/-- One bit: a data bit, a line level or a one-bit field; `true` is 1 (R17). -/
abbrev Bit := Bool

/-- One byte of a buffer, a frame or a codeword (R71). -/
abbrev Byte := BitVec 8

/-- A 32-bit command word or result register (R31, R32). -/
abbrev Word := BitVec 32

end Sys2Proof
end

