-- ==== Sys2Proof/Config.lean ====
section
/-! DEFINITION. The parameters of L2C, fixed for a run (00_scope.md R9 to R16, 10_state.md R53), and the free values that
the spec leaves open (93_implementation_defined.md part 1). A parameter with a value in the spec is a definition; an OPEN
parameter and a free value are constants without a body, so that nothing can be proved of their value. Their types carry
the bounds the spec states; Machine/Codec.lean gives them their laws. -/

namespace Sys2Proof.Config

/-! Values the spec fixes. -/

/-- `IBUF_SIZE = OBUF_SIZE = 8192` (R11). -/
def bufSize : Nat := 8192

/-- `RX_MIN_BYTES`, counting the two FCS bytes (R11). -/
def rxMinBytes : Nat := 3

/-- `RX_MAX_BYTES`, counting the two FCS bytes (R11). -/
def rxMaxBytes : Nat := 2048

/-- `DIV_MAXFEC` with the spec's value (R10; 90_conflicts.md C1). Log 8. -/
def divMaxFec : Nat := 238

/-- `DIV_AUTO` with the spec's value (R10; 90_conflicts.md C1). Log 8. -/
def divAuto : Nat := 246

/-- The largest IL2P payload size (R9). -/
def maxPayload : Nat := 1023

/-- The parity count of maximum-FEC mode (R9, R181). -/
def maxFecParity : Nat := 16

/-- The bit-stuffing run length (R9, R132). -/
def stuffRun : Nat := 5

/-- The HDLC flag byte (R9). -/
def flagByte : Byte := 0x7E

/-- The IL2P preamble byte (R9). -/
def il2pPreambleByte : Byte := 0x55

/-! OPEN parameters of the spec. -/

/-- `NCH − 1`: the spec leaves NCH open with 1 ≤ NCH ≤ 256 (R11). Log 2. -/
opaque nchPred : Fin 256

/-- `NCH`, the number of channels (R11). -/
def nch : Nat := nchPred.val + 1

/-- `NRZI_INIT`, the reset level of every NRZI encoder and decoder (R11). Log 3. -/
opaque nrziInit : Bit

/-- `SYNC`, exactly three bytes (R12). Log 9. -/
opaque syncWord : List.Vector Byte 3

/-- `HDR_ENC`: frame bytes and max_fec bit to a refusal or (header bytes, payload bytes), the payload of at most 1023
bytes (R13). Log 9. -/
opaque hdrEnc : List Byte → Bit → Option (List Byte × { payload : List Byte // payload.length ≤ 1023 })

/-- `SCRAMBLE` on the blocks of one length, with `DESCRAMBLE` its inverse: the law of R14 makes the pair a permutation of
the byte sequences of each length. Log 10. -/
opaque scrambler : (n : Nat) → Equiv.Perm (List.Vector Byte n)

/-- `RS_ENC(block, k)`: exactly k parity bytes (R15). Log 11. -/
opaque rsParity : List Byte → (k : Nat) → List.Vector Byte k

/-- `RS_DEC` where the law of R15 says nothing, for a block of l bytes with k parity bytes: a corrected block of l bytes
with at most l + k symbols corrected, or a failure. Log 11. -/
opaque rsCorrect : (l k : Nat) → List Byte → Option (List.Vector Byte l × Fin (l + k + 1))

/-- `FX25_SEND` before R16's rule on its result is applied: channel, frame bytes, FX25 field and codec state
(STUFF_CNT, NRZI_LVL) to a result, a bit sequence and a new codec state whose STUFF_CNT is 0 to 4 (R16, R43). Log 12. -/
opaque fx25Raw : Nat → List Byte → BitVec 6 → BitVec 3 × Bit → Int × List Bit × (Fin 5 × Bit)

/-! Free values. -/

/-- What IBUF address a holds after the r-th reset before the host writes it (R49, R340, R348). Log 4. -/
opaque ibufReset : (r a : Nat) → Byte

/-- What OBUF address a holds after the r-th reset before a command writes it (R50, R340). Log 4. -/
opaque obufReset : (r a : Nat) → Byte

/-- OBUF byte i after the d-th failed IL2P_DEC (R206). Log 6. -/
opaque decFailByte : (d i : Nat) → Byte

/-- AUX after the d-th failed IL2P_DEC (R206). Log 6. -/
opaque decFailAux : (d : Nat) → Word

/-- Byte i of what a failed RS_DEC contributes inside DEC_PAYLOAD of the d-th failing decode (R205). Log 7. -/
opaque failedBlockByte : (d i : Nat) → Byte

end Sys2Proof.Config
end

