-- ==== Sys2Proof/Machine/State.lean ====
section
/-! DEFINITION. The state of L2C (10_state.md): result and fault registers, per-channel configuration, codec and receive
state, buffers and bit sinks, and the host's actions still to come; the reasons the model stops; the state after reset. -/

namespace Sys2Proof.Machine

/-- The fault record (R37). -/
structure FaultRecord where
  /-- `FAULTED`: a fault has been raised since reset. -/
  faulted : Bool
  /-- `CAUSE` (R302). -/
  cause : BitVec 8
  /-- `FCMD`: the command word that faulted. -/
  fcmd : Word
deriving DecidableEq, Repr

/-- One item of a bit sink (R52). -/
inductive SinkItem where
  /-- A pushed bit. -/
  | bit (b : Bit)
  /-- A flush marker: no more data imminent. -/
  | flush
deriving DecidableEq, Repr

/-- The state of one channel: configuration (R38), codec state (R43 to R45), receive state (R46) and bit sink (R52). -/
structure Chan where
  /-- `CHCFG[ch]` (R38). -/
  cfg : BitVec 12
  /-- `STUFF_CNT[ch]` (R43). -/
  stuffCnt : BitVec 3
  /-- `NRZI_LVL[ch]` (R44). -/
  nrziLvl : Bit
  /-- `BITS_SENT[ch]` (R45). -/
  bitsSent : Word
  /-- `RX_LVL[ch]` (R46). -/
  rxLvl : Bit
  /-- `RX_ONES[ch]` (R46). -/
  rxOnes : BitVec 3
  /-- `RX_SYNC[ch]` (R46). -/
  rxSync : Bool
  /-- `RX_ACC[ch]`, oldest bit first (R46). -/
  rxAcc : List Bit
  /-- `SINK[ch]`, oldest item first (R52). -/
  sink : List SinkItem
deriving DecidableEq, Repr

/-- The written bytes of a buffer: (address, byte) pairs with strictly rising addresses (R49, R50). An address that is not
listed holds no written value. Log 4. -/
abbrev Memory := List Host.Cell

/-- What the host does between commands (R30, R114, R340). Log 1. -/
inductive HostAction where
  /-- A write of a word to CMD (R31). -/
  | cmd (w : Word)
  /-- `LOAD a, b0 b1 ...`: bytes into IBUF from address a on (R114). -/
  | load (a : Nat) (bytes : List Byte)
  /-- `RESET` (R340). -/
  | reset
deriving DecidableEq, Repr

/-- The machine. -/
structure State where
  /-- `STATUS`, two's complement (R32). -/
  status : Word
  /-- `VALUE` (R32). -/
  value : Word
  /-- `AUX` (R32). -/
  aux : Word
  /-- `OUT_LEN` (R32). -/
  outLen : Word
  /-- `FAULT` (R37). -/
  fault : FaultRecord
  /-- The channels 0 to NCH − 1, one record each (R11, R38, R43 to R46, R52). Log 2. -/
  chans : List Chan
  /-- `IBUF` (R49). -/
  ibuf : Memory
  /-- `OBUF` (R50). -/
  obuf : Memory
  /-- The model's own: the host's actions still to come, the next one first. Log 1. -/
  host : List HostAction
  /-- The model's own: how many RESETs there have been; selects the buffers' arbitrary contents. Log 4. -/
  resets : Nat
  /-- The model's own: how many decodes have failed; selects the values a failed decode leaves open. Log 6. -/
  draws : Nat
deriving DecidableEq, Repr

/-- Why the machine stops. The faults of L2C itself are no stops: they are recorded in `FAULT` and the step goes on to a
next state (R304). -/
inductive Fault where
  /-- An access to a buffer address outside 0 to 8191, which does not exist (R70, R73). Raised by a host LOAD that leaves
  IBUF and by the range checks of `withIbuf` and `finishOut`, which no command of a reachable state fails. Safe: the model
  stops where the spec defines nothing. Log 5. -/
  | outsideBuffer
deriving DecidableEq, Repr

/-- Why the model declines an instruction. -/
inductive Refusal where
  /-- The instruction has no meaning in the model. Raised by no arm of `exec`: every command has its meaning. Safe: the
  model stops. -/
  | notModelled (mnemonic : String)
deriving DecidableEq, Repr

/-- The outcomes of a step of L2C. -/
abbrev Result := Host.Outcome State Fault Refusal

/-- A channel after reset (R340). -/
def Chan.reset : Chan where
  cfg := 0
  stuffCnt := 0
  nrziLvl := Config.nrziInit
  bitsSent := 0
  rxLvl := Config.nrziInit
  rxOnes := 0
  rxSync := false
  rxAcc := []
  sink := []

/-- The fault record after reset (R37). -/
def FaultRecord.none : FaultRecord where
  faulted := false
  cause := 0
  fcmd := 0

/-- The machine right after reset (R340): result registers and FAULT 0, NCH channels at their reset values, both buffers
unwritten, no host action pending. -/
def State.reset : State where
  status := 0
  value := 0
  aux := 0
  outLen := 0
  fault := FaultRecord.none
  chans := List.replicate Config.nch Chan.reset
  ibuf := []
  obuf := []
  host := []
  resets := 0
  draws := 0

end Sys2Proof.Machine
end

