-- ==== Sys2Proof/Machine/Operands.lean ====
section
/-! DEFINITION. Operand forms: the fields of a configuration value and the effective configuration (10_state.md R38, R41),
the bit orders of a byte and the byte order of a 16-bit value (20_memory.md R77 to R82). -/

namespace Sys2Proof.Machine

/-! Configuration fields (R38). -/

/-- `MODE`: 0 AX.25 over HDLC, 1 FX.25, 2 IL2P; 3 is illegal (R39). -/
def cfgMode (v : BitVec 12) : BitVec 2 := v.extractLsb' 0 2

/-- `MAX_FEC`. -/
def cfgMaxFec (v : BitVec 12) : Bit := v.getLsbD 2

/-- `INVERT`. -/
def cfgInvert (v : BitVec 12) : Bit := v.getLsbD 3

/-- `CRC_EN`. -/
def cfgCrcEn (v : BitVec 12) : Bit := v.getLsbD 4

/-- `VALID`. -/
def cfgValid (v : BitVec 12) : Bit := v.getLsbD 5

/-- `FX25`, opaque to L2C. -/
def cfgFx25 (v : BitVec 12) : BitVec 6 := v.extractLsb' 6 6

/-- MODE of a channel that runs IL2P (R39). -/
def modeIl2p : BitVec 2 := 2

/-- MODE of a channel that runs FX.25 (R39). -/
def modeFx25 : BitVec 2 := 1

/-- The MODE value no CFG_WRITE may write (R39). -/
def modeIllegal : BitVec 2 := 3

/-- An effective configuration (R41). -/
structure EffCfg where
  /-- The framing scheme. -/
  mode : BitVec 2
  /-- IL2P maximum-FEC mode. -/
  maxFec : Bit
  /-- IL2P polarity inversion. -/
  invert : Bit
  /-- IL2P trailing CRC enabled. -/
  crcEn : Bit
  /-- FX.25 mode value. -/
  fx25 : BitVec 6
deriving DecidableEq, Repr

/-- `EFFCFG`: the stored configuration when VALID = 1, otherwise HDLC with the CRC enabled (R41). -/
def effCfg (v : BitVec 12) : EffCfg :=
  if cfgValid v then
    { mode := cfgMode v, maxFec := cfgMaxFec v, invert := cfgInvert v, crcEn := cfgCrcEn v, fx25 := cfgFx25 v }
  else
    { mode := 0, maxFec := false, invert := false, crcEn := true, fx25 := 0 }

/-! Bit and byte order. -/

/-- The bits of a byte, least significant first: the HDLC order (R77). -/
def lsbFirst (x : Byte) : List Bit :=
  (List.range 8).map fun i => x.getLsbD i

/-- The bits of a byte, most significant first: the IL2P order (R79). -/
def msbFirst (x : Byte) : List Bit :=
  (lsbFirst x).reverse

/-- The byte whose bits, least significant first, are the given ones (R140). -/
def byteOfBits (bits : List Bit) : Byte :=
  bits.foldr (fun b x => (x <<< 1) ||| BitVec.setWidth 8 (BitVec.ofBool b)) 0

/-- The whole bytes of a bit sequence, each least significant bit first (R140). -/
def bytesOfBits (bits : List Bit) : List Byte :=
  (List.range (bits.length / 8)).map fun k => byteOfBits ((bits.drop (8 * k)).take 8)

/-- The low and the high byte of a 16-bit value (R78). -/
def loByte (v : BitVec 16) : Byte := v.extractLsb' 0 8

/-- See `loByte`. -/
def hiByte (v : BitVec 16) : Byte := v.extractLsb' 8 8

/-- The 16-bit value of two bytes, low byte first (R82). -/
def le16Value (lo hi : Byte) : BitVec 16 := hi ++ lo

/-- `LE16(v)`: the bytes v[7:0], v[15:8] of a value of at most 16 bits (R82, R188). -/
def le16 (v : Nat) : List Byte :=
  [loByte (BitVec.ofNat 16 v), hiByte (BitVec.ofNat 16 v)]

/-- `s[off .. off+l)` of a byte sequence (R19). -/
def slice (s : List Byte) (off l : Nat) : List Byte :=
  (s.drop off).take l

end Sys2Proof.Machine
end

