-- ==== Sys2Proof/Machine/Fcs.lean ====
section
/-! DEFINITION. The 16-bit frame check sequence (40_hdlc.md R133). -/

namespace Sys2Proof.Machine

/-- One shift step: reflected constant 0x8408 (R133). -/
def fcsShift (c : BitVec 16) : BitVec 16 :=
  if c.getLsbD 0 then (c >>> 1) ^^^ 0x8408 else c >>> 1

/-- One byte: exclusive-or into the low byte, then eight shift steps (R133). -/
def fcsByte (c : BitVec 16) (b : Byte) : BitVec 16 :=
  (List.range 8).foldl (fun c _ => fcsShift c) (c ^^^ b.setWidth 16)

/-- `FCS16(s)`: initial value 0xFFFF, final complement (R133). -/
def fcs16 (s : List Byte) : BitVec 16 :=
  s.foldl fcsByte 0xFFFF ^^^ 0xFFFF

end Sys2Proof.Machine
end

