-- ==== Sys2Proof/Machine/Crc.lean ====
section
/-! DEFINITION. The IL2P trailing CRC with Hamming(7,4) (43_il2p_crc.md R230 to R235). -/

namespace Sys2Proof.Machine

/-- The parity bits [6:4] of a nibble's codeword: bit 4 is d0 ^ d2 ^ d3, bit 5 is d0 ^ d1 ^ d3, bit 6 is d0 ^ d1 ^ d2
(R230). -/
def hamParity (v : BitVec 4) : BitVec 3 :=
  let d := v.getLsbD
  BitVec.ofBool (d 0 ^^ d 1 ^^ d 2) ++ BitVec.ofBool (d 0 ^^ d 1 ^^ d 3) ++ BitVec.ofBool (d 0 ^^ d 2 ^^ d 3)

/-- `HAM_ENC(v)`: bit 7 zero, parity, data (R230). -/
def hamEnc (v : BitVec 4) : Byte :=
  0#1 ++ hamParity v ++ v

/-- `HAM_DEC(b)`: the nibble of the codeword at distance 0 or 1 from b[6:0], found by its syndrome (R231). -/
def hamDec (b : Byte) : BitVec 4 :=
  let v := b.extractLsb' 0 4
  let syndrome := b.extractLsb' 4 3 ^^^ hamParity v
  if syndrome = 7 then v ^^^ 1
  else if syndrome = 6 then v ^^^ 2
  else if syndrome = 5 then v ^^^ 4
  else if syndrome = 3 then v ^^^ 8
  else v

/-- `CRC_ENC4(c)`: high nibble first (R233). -/
def crcEnc4 (c : BitVec 16) : List Byte :=
  [hamEnc (c.extractLsb' 12 4), hamEnc (c.extractLsb' 8 4), hamEnc (c.extractLsb' 4 4), hamEnc (c.extractLsb' 0 4)]

/-- `CRC_DEC4(e)` of the first four bytes of a sequence (R234). -/
def crcDec4 (e : List Byte) : BitVec 16 :=
  hamDec (e.getD 0 0) ++ hamDec (e.getD 1 0) ++ hamDec (e.getD 2 0) ++ hamDec (e.getD 3 0)

/-- `CRC_CHECK(frame, e)` (R235). -/
def crcCheck (frame e : List Byte) : Bool :=
  fcs16 frame == crcDec4 e

end Sys2Proof.Machine
end

