-- ==== Sys2Proof/Syntax.lean ====
section
/-! DEFINITION. The commands of L2C: one constructor per row of the opcode map (30_encoding.md R109). Each carries the
fields its row leaves free, at their width in CMD32 (R101): a channel of 8 bits, an option bit F, a LEN field of 12 bits. -/

namespace Sys2Proof

/-- The fifteen commands (R109). -/
inductive Instr where
  /-- OP 0x00 (R290). -/
  | nop
  /-- OP 0x02: write CHCFG[ch] (R291). -/
  | cfgWrite (ch : BitVec 8) (cfg : BitVec 12)
  /-- OP 0x03: read CHCFG[ch] (R292). -/
  | cfgRead (ch : BitVec 8)
  /-- OP 0x10: send n frame bytes as HDLC (R135). -/
  | hdlcSend (ch : BitVec 8) (badFcs : Bit) (n : BitVec 12)
  /-- OP 0x11: send nbytes filler bytes (R136). -/
  | preamble (ch : BitVec 8) (finish : Bit) (nbytes : BitVec 12)
  /-- OP 0x12: deframe nlevels line levels (R141). -/
  | hdlcRx (ch : BitVec 8) (nlevels : BitVec 12)
  /-- OP 0x13: the FCS of n bytes (R137). -/
  | fcsCalc (n : BitVec 12)
  /-- OP 0x20: the block plan of a payload size (R188). -/
  | il2pPlan (maxFec : Bit) (size : BitVec 12)
  /-- OP 0x21: encode a payload (R204). -/
  | il2pEnc (maxFec : Bit) (size : BitVec 12)
  /-- OP 0x22: decode a payload (R206). -/
  | il2pDec (maxFec : Bit) (size : BitVec 12)
  /-- OP 0x23: encode a trailing CRC (R236). -/
  | il2pCrcEnc
  /-- OP 0x24: decode a trailing CRC (R237). -/
  | il2pCrcDec
  /-- OP 0x25: check a trailing CRC (R238). -/
  | il2pCrcCheck (n : BitVec 12)
  /-- OP 0x26: send an IL2P frame (R262). -/
  | il2pSend (ch : BitVec 8) (n : BitVec 12)
  /-- OP 0x30: send a frame by the channel's scheme, with fallback (R263). -/
  | l2Send (ch : BitVec 8) (badFcs : Bit) (n : BitVec 12)
deriving DecidableEq, Repr

/-- The channel a channel command names; `none` for the channel-free commands (R103, R306). -/
def Instr.channel? : Instr → Option (BitVec 8)
  | .nop => none
  | .cfgWrite ch _ => some ch
  | .cfgRead ch => some ch
  | .hdlcSend ch _ _ => some ch
  | .preamble ch _ _ => some ch
  | .hdlcRx ch _ => some ch
  | .fcsCalc _ => none
  | .il2pPlan _ _ => none
  | .il2pEnc _ _ => none
  | .il2pDec _ _ => none
  | .il2pCrcEnc => none
  | .il2pCrcDec => none
  | .il2pCrcCheck _ => none
  | .il2pSend ch _ => some ch
  | .l2Send ch _ _ => some ch

end Sys2Proof
end

