-- ==== Sys2Proof/Decode.lean ====
section
/-! DEFINITION. The command encoding (30_encoding.md): the fields of CMD32, the opcode map, the decoder, the encoder. -/

namespace Sys2Proof

/-! The fields of a command word (R101). -/

/-- `OP = w[7:0]` (R102). -/
def opField (w : Word) : BitVec 8 := w.extractLsb' 0 8

/-- `CH = w[15:8]` (R103). -/
def chField (w : Word) : BitVec 8 := w.extractLsb' 8 8

/-- `F = w[16]` (R104). -/
def fField (w : Word) : Bit := w.getLsbD 16

/-- `RSV = w[19:17]` (R105). -/
def rsvField (w : Word) : BitVec 3 := w.extractLsb' 17 3

/-- `LEN = w[31:20]` (R106). -/
def lenField (w : Word) : BitVec 12 := w.extractLsb' 20 12

/-- The word with the given fields, bit 31 first: LEN, RSV, F, CH, OP (R101). -/
def packFields (len : BitVec 12) (rsv : BitVec 3) (f : Bit) (ch op : BitVec 8) : Word :=
  len ++ rsv ++ BitVec.ofBool f ++ ch ++ op

/-- A row of the opcode map: its OP value, whether each of CH, F and LEN is a named (free) field or must be 0, and the
command the free fields make (R109). -/
structure OpRow where
  /-- The row's mnemonic. -/
  mnemonic : String
  /-- OP. -/
  op : BitVec 8
  /-- CH is a channel index. -/
  chFree : Bool
  /-- F is an option. -/
  fFree : Bool
  /-- LEN is an operand. -/
  lenFree : Bool
  /-- The command, from LEN, F and CH. -/
  build : BitVec 12 → Bit → BitVec 8 → Instr

/-- The row's mask: OP, RSV and every field that must be 0 (R105, R109). -/
def OpRow.mask (r : OpRow) : Word :=
  packFields (if r.lenFree then 0 else 0xFFF) 0b111 (!r.fFree) (if r.chFree then 0 else 0xFF) 0xFF

/-- The row's match word: OP in an otherwise zero word (R109). -/
def OpRow.pattern (r : OpRow) : Word :=
  packFields 0 0 false 0 r.op

/-- The row matches a word when `(w & mask) = match` (R108). -/
def OpRow.accepts (r : OpRow) (w : Word) : Bool :=
  w &&& r.mask == r.pattern

/-- The command of a word the row matches. -/
def OpRow.read (r : OpRow) (w : Word) : Instr :=
  r.build (lenField w) (fField w) (chField w)

/-- The opcode map (R109): mnemonic, OP, and which of CH, F, LEN are named. -/
def opcodeMap : List OpRow := [
  ⟨"NOP", 0x00, false, false, false, fun _ _ _ => .nop⟩,
  ⟨"CFG_WRITE", 0x02, true, false, true, fun len _ ch => .cfgWrite ch len⟩,
  ⟨"CFG_READ", 0x03, true, false, false, fun _ _ ch => .cfgRead ch⟩,
  ⟨"HDLC_SEND", 0x10, true, true, true, fun len f ch => .hdlcSend ch f len⟩,
  ⟨"PREAMBLE", 0x11, true, true, true, fun len f ch => .preamble ch f len⟩,
  ⟨"HDLC_RX", 0x12, true, false, true, fun len _ ch => .hdlcRx ch len⟩,
  ⟨"FCS_CALC", 0x13, false, false, true, fun len _ _ => .fcsCalc len⟩,
  ⟨"IL2P_PLAN", 0x20, false, true, true, fun len f _ => .il2pPlan f len⟩,
  ⟨"IL2P_ENC", 0x21, false, true, true, fun len f _ => .il2pEnc f len⟩,
  ⟨"IL2P_DEC", 0x22, false, true, true, fun len f _ => .il2pDec f len⟩,
  ⟨"IL2P_CRC_ENC", 0x23, false, false, false, fun _ _ _ => .il2pCrcEnc⟩,
  ⟨"IL2P_CRC_DEC", 0x24, false, false, false, fun _ _ _ => .il2pCrcDec⟩,
  ⟨"IL2P_CRC_CHECK", 0x25, false, false, true, fun len _ _ => .il2pCrcCheck len⟩,
  ⟨"IL2P_SEND", 0x26, true, false, true, fun len _ ch => .il2pSend ch len⟩,
  ⟨"L2_SEND", 0x30, true, true, true, fun len f ch => .l2Send ch f len⟩]

/-- Why a word is no command: the three kinds of reserved and illegal encoding (R110). -/
inductive Reject where
  /-- OP is not in the opcode map. -/
  | reservedOpcode
  /-- RSV is not 0. -/
  | reservedBits
  /-- A CH, F or LEN field that must be 0 is not. -/
  | requiredZeroField
deriving DecidableEq, Repr

/-- The name of a rejected word's fault (R110). -/
def rejectReason (w : Word) : Reject :=
  if opcodeMap.all (fun r => r.op != opField w) then .reservedOpcode
  else if rsvField w ≠ 0 then .reservedBits
  else .requiredZeroField

/-- Decode a command word: the command of the row that matches it, or why none does (R102, R108, R110). -/
def decode (w : Word) : Except Reject Instr :=
  match opcodeMap.find? (fun r => r.accepts w) with
  | some r => .ok (r.read w)
  | none => .error (rejectReason w)

/-- The word of a command with RSV = 0 (R113). -/
def cmdWord (len : BitVec 12) (f : Bit) (ch op : BitVec 8) : Word :=
  packFields len 0 f ch op

/-- The word of each command, as the assembler syntax gives it (R113). -/
def encode : Instr → Word
  | .nop => cmdWord 0 false 0 0x00
  | .cfgWrite ch cfg => cmdWord cfg false ch 0x02
  | .cfgRead ch => cmdWord 0 false ch 0x03
  | .hdlcSend ch f n => cmdWord n f ch 0x10
  | .preamble ch f nbytes => cmdWord nbytes f ch 0x11
  | .hdlcRx ch nlevels => cmdWord nlevels false ch 0x12
  | .fcsCalc n => cmdWord n false 0 0x13
  | .il2pPlan f size => cmdWord size f 0 0x20
  | .il2pEnc f size => cmdWord size f 0 0x21
  | .il2pDec f size => cmdWord size f 0 0x22
  | .il2pCrcEnc => cmdWord 0 false 0 0x23
  | .il2pCrcDec => cmdWord 0 false 0 0x24
  | .il2pCrcCheck n => cmdWord n false 0 0x25
  | .il2pSend ch n => cmdWord n false ch 0x26
  | .l2Send ch f n => cmdWord n f ch 0x30

/-- The command word of an opcode-table row's `nbits` bits `w`, every higher bit 0. A word of more than 32 bits is none
(R100, R112). -/
def tableWord (nbits w : Nat) : Word :=
  BitVec.ofNat 32 (w % 2 ^ nbits)

/-- The command the decoder reads from an opcode-table row's word. -/
def decodeTableWord (nbits w : Nat) : Option Instr :=
  if nbits ≤ 32 then
    match decode (tableWord nbits w) with
    | .ok i => some i
    | .error _ => none
  else none

end Sys2Proof
end

