-- ==== Sys2Proof/Machine/Flags.lean ====
section
/-! DEFINITION. L2C has no condition codes; STATUS is its only flag-like result (10_state.md R36). Here are its error
values (60_exceptions.md R301). -/

namespace Sys2Proof.Machine

/-- The status errors (R301). -/
inductive StatusError where
  /-- A payload size above 1023. -/
  | invalidSize
  /-- A Reed-Solomon decode failed on at least one block. -/
  | uncorrectable
  /-- A defensive check failed; unreachable with the rules of the spec. -/
  | internalInconsistency
  /-- The IL2P header encoder refused the frame. -/
  | encodeFailure
deriving DecidableEq, Repr

/-- The STATUS value of an error: −1 to −4 (R301). -/
def StatusError.code : StatusError → Word
  | .invalidSize => BitVec.ofInt 32 (-1)
  | .uncorrectable => BitVec.ofInt 32 (-2)
  | .internalInconsistency => BitVec.ofInt 32 (-3)
  | .encodeFailure => BitVec.ofInt 32 (-4)

/-- A size or count as a STATUS, VALUE, AUX or OUT_LEN value (R18, R32). -/
def countWord (n : Nat) : Word := BitVec.ofNat 32 n

end Sys2Proof.Machine
end

