-- ==== Sys2Proof/Machine/Ops.lean ====
section
/-! DEFINITION. The named operations over L2C's state: the buffers, the result registers, raising a fault and leaving it by
reset, the channels and their bit sinks (00_scope.md R20). -/

namespace Sys2Proof.Machine

/-! Buffers. -/

/-- The byte written last at an address, if one has been written. -/
def Memory.get? : Memory → Nat → Option Byte
  | [], _ => none
  | (x, b) :: m, a => if x = a then some b else Memory.get? m a

/-- Write one byte, keeping addresses strictly rising. -/
def Memory.put : Memory → Nat → Byte → Memory
  | [], a, b => [(a, b)]
  | (x, c) :: m, a, b =>
    if a < x then (a, b) :: (x, c) :: m
    else if a = x then (a, b) :: m
    else (x, c) :: Memory.put m a b

/-- Write bytes at consecutive addresses from `a` on, the first at `a`. -/
def Memory.putBytes (m : Memory) (a : Nat) : List Byte → Memory
  | [] => m
  | b :: bs => Memory.putBytes (m.put a b) (a + 1) bs

/-- The canonical form of a buffer: addresses strictly rising, all below 8192. An unlisted address holds no written value,
which no entry equals. -/
abbrev Memory.wf (m : Memory) : Prop :=
  m.Pairwise (fun x y => x.1 < y.1) ∧ ∀ x ∈ m, x.1 < Config.bufSize

/-- The byte IBUF holds at an address: the one written last, or the arbitrary byte it holds since the last reset (R49,
R348). Log 4. -/
def State.ibufByte (s : State) (a : Nat) : Byte :=
  (Memory.get? s.ibuf a).getD (Config.ibufReset s.resets a)

/-- The byte OBUF holds at an address, as the host reads it (R50). Log 4. -/
def State.obufByte (s : State) (a : Nat) : Byte :=
  (Memory.get? s.obuf a).getD (Config.obufReset s.resets a)

/-- `MemRead(IBUF, a, n)`: the bytes IBUF[a..a+n) (R20). -/
def State.ibufBytes (s : State) (a n : Nat) : List Byte :=
  (List.range n).map fun i => s.ibufByte (a + i)

/-- The bytes OBUF[a..a+n), as the host reads them (R50). -/
def State.obufBytes (s : State) (a n : Nat) : List Byte :=
  (List.range n).map fun i => s.obufByte (a + i)

/-- The n addresses from a on exist in a buffer of 8192 bytes (R70). -/
def inBuffer (a n : Nat) : Bool :=
  decide (n = 0 ∨ a + n ≤ Config.bufSize)

/-- Go on if the n addresses from a on exist; otherwise stop (R73). Log 5. -/
def guardRange (a n : Nat) (k : Result) : Result :=
  if inBuffer a n then k else .fault .outsideBuffer

/-- Read the n operand bytes at IBUF[a..a+n) and go on with them (R20, R107). -/
def withIbuf (a n : Nat) (s : State) (k : List Byte → Result) : Result :=
  guardRange a n (k (s.ibufBytes a n))

/-- `MemWrite(OBUF, 0, n, out)` with n the length of `out` (R20, R71). -/
def State.storeOut (out : List Byte) (s : State) : State :=
  { s with obuf := Memory.putBytes s.obuf 0 out }

/-! Result registers. -/

/-- `finish(status, value, aux, outlen)` (R33). -/
def State.finish (status value aux outLen : Word) (s : State) : State :=
  { s with status := status, value := value, aux := aux, outLen := outLen }

/-- Write `out` to OBUF from address 0 on, then finish with OUT_LEN its length (R33). -/
def finishOut (out : List Byte) (status value aux : Word) (s : State) : Result :=
  guardRange 0 out.length
    (.next ((s.storeOut out).finish status value aux (countWord out.length)))

/-! Faults. -/

/-- The fault causes (R302). -/
inductive FaultCause where
  /-- The word matches no row, or CFG_WRITE with MODE = 3. -/
  | illegalCommand
  /-- A channel command names CH ≥ NCH. -/
  | invalidChannel
deriving DecidableEq, Repr

/-- The code FAULT.CAUSE records (R302). -/
def FaultCause.code : FaultCause → BitVec 8
  | .illegalCommand => 1
  | .invalidChannel => 2

/-- `raise Fault(cause)` for the command word w: the fault record is written, and nothing else (R304). -/
def State.raiseFault (cause : FaultCause) (w : Word) (s : State) : State :=
  { s with fault := { faulted := true, cause := cause.code, fcmd := w } }

/-- `RESET`, the only way out of a fault (R305, R311, R340): every piece of L2C's state takes its reset value. The number
of channels is a parameter and stays; the host's pending actions stay; the reset is counted, so that the buffers' contents
are arbitrary anew. Log 15. -/
def State.afterReset (s : State) : State :=
  { State.reset with
    chans := s.chans.map fun _ => Chan.reset
    host := s.host
    resets := s.resets + 1
    draws := s.draws }

/-! Channels. -/

/-- NCH, the number of channels the machine has (R11, R53). Log 2. -/
def State.nch (s : State) : Nat := s.chans.length

/-- The state of channel ch; `none` when ch ≥ NCH. -/
def State.chan? (s : State) (ch : Nat) : Option Chan := s.chans[ch]?

/-- Replace the state of channel ch. -/
def State.setChan (ch : BitVec 8) (c : Chan) (s : State) : State :=
  { s with chans := s.chans.set ch.toNat c }

/-- Run a channel command's rule on its channel; a channel CH ≥ NCH raises InvalidChannel before any effect (R108 (3),
R306). The faulting word is the command's own encoding. Log 14. -/
def onChannel (i : Instr) (ch : BitVec 8) (s : State) (k : Chan → Result) : Result :=
  match s.chan? ch.toNat with
  | some c => k c
  | none => .next (s.raiseFault .invalidChannel (encode i))

/-! Bit sinks. -/

/-- `PutBit(ch, b)`: append the bit to the sink and add 1 to BITS_SENT (R20, R45). Log 13. -/
def Chan.putBit (b : Bit) (c : Chan) : Chan :=
  { c with sink := c.sink ++ [.bit b], bitsSent := c.bitsSent + 1 }

/-- `PutBit` for each bit of a sequence, in order. -/
def Chan.putBits (bits : List Bit) (c : Chan) : Chan :=
  bits.foldl (fun c b => c.putBit b) c

/-- `Flush(ch)`: append a flush marker (R20, R52). -/
def Chan.flush (c : Chan) : Chan :=
  { c with sink := c.sink ++ [.flush] }

/-- `BITS_SENT[ch] <- 0`, the first action of every sending command (R45). -/
def Chan.startCount (c : Chan) : Chan :=
  { c with bitsSent := 0 }

end Sys2Proof.Machine
end

