-- ==== Sys2Proof/Machine/Codec.lean ====
section
/-! DEFINITION. The external primitives as the commands call them (00_scope.md R12 to R16): an interface of plain
functions, and the instance the machine uses, built from the bodyless constants of Config so that the laws of R12 to R16
hold of it whatever those constants are (Laws/Codec.lean). -/

namespace Sys2Proof.Machine

/-- The codec state FX25_SEND reads and returns: (STUFF_CNT, NRZI_LVL) (R16). -/
abbrev TxState := BitVec 3 × Bit

/-- The external primitives (R12 to R16). -/
structure Codec where
  /-- `SYNC` (R12). -/
  sync : List Byte
  /-- `HDR_ENC`: `none` is Refuse (R13). -/
  hdrEnc : List Byte → Bit → Option (List Byte × List Byte)
  /-- `SCRAMBLE` of one block (R14). -/
  scramble : List Byte → List Byte
  /-- `DESCRAMBLE` of one block (R14). -/
  descramble : List Byte → List Byte
  /-- `RS_ENC(block, k)` (R15). -/
  rsEnc : List Byte → Nat → List Byte
  /-- `RS_DEC(block ++ parity, k)`: the corrected block and the count, or `none` for Fail (R15). -/
  rsDec : List Byte → Nat → Option (List Byte × Nat)
  /-- `FX25_SEND(ch, frame, FX25, codec state)`: result, bits, new codec state (R16). -/
  fx25Send : Nat → List Byte → BitVec 6 → TxState → Int × List Bit × TxState

/-- HDR_ENC with at most 1023 payload bytes (R13). -/
def hdrEncode (frame : List Byte) (maxFec : Bit) : Option (List Byte × List Byte) :=
  (Config.hdrEnc frame maxFec).map fun h => (h.1, h.2.val)

/-- A block as a byte vector of its own length. -/
def blockVector (block : List Byte) : List.Vector Byte block.length := ⟨block, rfl⟩

/-- SCRAMBLE by the permutation of the block's length (R14). -/
def scrambleBlock (block : List Byte) : List Byte :=
  (Config.scrambler block.length (blockVector block)).toList

/-- DESCRAMBLE by the inverse permutation (R14). -/
def descrambleBlock (block : List Byte) : List Byte :=
  ((Config.scrambler block.length).symm (blockVector block)).toList

/-- RS_ENC: exactly k parity bytes (R15). -/
def rsEncode (block : List Byte) (k : Nat) : List Byte :=
  (Config.rsParity block k).toList

/-- The codewords on which R15 fixes RS_DEC: a block of 1 to 255 − k bytes, k ∈ {2, 4, 6, 8, 16}, followed by its own
parity. -/
def isCodeword (cw : List Byte) (k : Nat) : Bool :=
  let l := cw.length - k
  decide (1 ≤ l) && decide (cw.length ≤ 255) && [2, 4, 6, 8, 16].contains k
    && cw.drop l == rsEncode (cw.take l) k

/-- RS_DEC: a codeword decodes to its block with no correction; anything else as the open primitive says (R15). -/
def rsDecode (cw : List Byte) (k : Nat) : Option (List Byte × Nat) :=
  let l := cw.length - k
  if isCodeword cw k then some (cw.take l, 0)
  else (Config.rsCorrect l k cw).map fun d => (d.1.toList, d.2.val)

/-- What R16's rule makes of an open FX.25 answer. -/
def fx25Result (raw : Int × List Bit × (Fin 5 × Bit)) : Int × List Bit × TxState :=
  if raw.1 ≤ 0 ∨ raw.2.1 = [] then (min raw.1 0, [], BitVec.ofNat 3 raw.2.2.1.val, raw.2.2.2)
  else (raw.2.1.length, raw.2.1, BitVec.ofNat 3 raw.2.2.1.val, raw.2.2.2)

/-- FX25_SEND under R16's rule: a success has r > 0, the number of bits it pushed; a failure has r ≤ 0 and pushes none. -/
def fx25Encode (ch : Nat) (frame : List Byte) (fx25 : BitVec 6) (st : TxState) : Int × List Bit × TxState :=
  fx25Result (Config.fx25Raw ch frame fx25 st)

/-- The primitives of this machine (R53). -/
def Codec.machine : Codec where
  sync := Config.syncWord.toList
  hdrEnc := hdrEncode
  scramble := scrambleBlock
  descramble := descrambleBlock
  rsEnc := rsEncode
  rsDec := rsDecode
  fx25Send := fx25Encode

end Sys2Proof.Machine
end

