-- ==== Sys2Proof/Machine/Plan.lean ====
section
/-! DEFINITION. The IL2P block planner (41_il2p_plan.md R180 to R186) and the block order (42_il2p_payload.md R200). -/

namespace Sys2Proof.Machine

/-- A block plan (R180). -/
structure BlockPlan where
  /-- Payload size in bytes. -/
  payloadByteCount : Nat
  /-- Number of blocks. -/
  blockCount : Nat
  /-- Bytes of a small block. -/
  smallBlockSize : Nat
  /-- Bytes of a large block. -/
  largeBlockSize : Nat
  /-- Number of large blocks. -/
  largeBlockCount : Nat
  /-- Number of small blocks. -/
  smallBlockCount : Nat
  /-- Parity bytes of every block. -/
  paritySymbols : Nat
  /-- Bytes of all blocks and their parity. -/
  encodedLength : Nat
deriving DecidableEq, Repr

/-- `ceil_div(a, b)` (R18). -/
def ceilDiv (a b : Nat) : Nat := (a + b - 1) / b

/-- The automatic mode's parity count of a small block size; none above 247 (R184). -/
def autoParity (ss : Nat) : Option Nat :=
  if ss ≤ 61 then some 2
  else if ss ≤ 123 then some 4
  else if ss ≤ 185 then some 6
  else if ss ≤ 247 then some 8
  else none

/-- `ZERO_PLAN(m)` (R186). -/
def zeroPlan (maxFec : Bit) : BlockPlan where
  payloadByteCount := 0
  blockCount := 0
  smallBlockSize := 0
  largeBlockSize := 1
  largeBlockCount := 0
  smallBlockCount := 0
  paritySymbols := if maxFec then Config.maxFecParity else 2
  encodedLength := 0

/-- The plan of n bytes in bc blocks with k parity bytes each (R183, R185). -/
def blockPlan (n bc k : Nat) : BlockPlan :=
  let ss := n / bc
  let lc := n - bc * ss
  let sc := bc - lc
  { payloadByteCount := n
    blockCount := bc
    smallBlockSize := ss
    largeBlockSize := ss + 1
    largeBlockCount := lc
    smallBlockCount := sc
    paritySymbols := k
    encodedLength := sc * (ss + k) + lc * (ss + 1 + k) }

/-- `PLAN(n, m)` (R180 to R186). -/
def plan (n : Nat) (maxFec : Bit) : Except StatusError BlockPlan :=
  if n > Config.maxPayload then .error .invalidSize
  else if n = 0 then .ok (zeroPlan maxFec)
  else if maxFec then .ok (blockPlan n (ceilDiv n Config.divMaxFec) Config.maxFecParity)
  else
    let bc := ceilDiv n Config.divAuto
    match autoParity (n / bc) with
    | some k => .ok (blockPlan n bc k)
    | none => .error .internalInconsistency

/-- The 16-byte plan record of IL2P_PLAN: eight fields of 16 bits (R188). -/
def BlockPlan.toRecord (p : BlockPlan) : List Byte :=
  le16 p.payloadByteCount ++ le16 p.blockCount ++ le16 p.smallBlockSize ++ le16 p.largeBlockSize
    ++ le16 p.largeBlockCount ++ le16 p.smallBlockCount ++ le16 p.paritySymbols ++ le16 p.encodedLength

/-- `BLOCKS(p)`: (payload offset, length) of each block, large blocks first (R200). -/
def BlockPlan.blocks (p : BlockPlan) : List (Nat × Nat) :=
  (List.range p.largeBlockCount).map (fun j => (j * p.largeBlockSize, p.largeBlockSize))
    ++ (List.range p.smallBlockCount).map
      (fun j => (p.largeBlockCount * p.largeBlockSize + j * p.smallBlockSize, p.smallBlockSize))

end Sys2Proof.Machine
end

