-- ==== Sys2Proof/Machine/Payload.lean ====
section
/-! DEFINITION. The IL2P payload codec (42_il2p_payload.md R201 to R205). -/

namespace Sys2Proof.Machine

/-- One encoded block: the scrambled bytes, then their k parity bytes (R201, R202, R203). -/
def encodeBlock (C : Codec) (k : Nat) (block : List Byte) : List Byte :=
  C.scramble block ++ C.rsEnc (C.scramble block) k

/-- `ENC_PAYLOAD(s, m)` (R203). -/
def encPayload (C : Codec) (s : List Byte) (maxFec : Bit) : Except StatusError (List Byte) :=
  match plan s.length maxFec with
  | .error e => .error e
  | .ok p => .ok (p.blocks.flatMap fun b => encodeBlock C p.paritySymbols (slice s b.1 b.2))

/-- What the loop of DEC_PAYLOAD has so far (R205). -/
structure DecState where
  /-- The recovered bytes. -/
  out : List Byte
  /-- Symbols corrected. -/
  corr : Nat
  /-- Some block was uncorrectable. -/
  failed : Bool
  /-- The next position in the received bytes. -/
  pos : Nat
deriving DecidableEq, Repr

/-- One block of DEC_PAYLOAD: decode, account, descramble; a failed block contributes l open bytes and the loop goes on
(R205). `open_` gives the open byte for a payload address. Log 7. -/
def decodeBlock (C : Codec) (open_ : Nat → Byte) (r : List Byte) (k : Nat) (d : DecState) (b : Nat × Nat) : DecState :=
  let cw := slice r d.pos (b.2 + k)
  match C.rsDec cw k with
  | some (block, c) =>
    { out := d.out ++ C.descramble block, corr := d.corr + c, failed := d.failed, pos := d.pos + b.2 + k }
  | none =>
    { out := d.out ++ C.descramble ((List.range b.2).map fun i => open_ (b.1 + i))
      corr := d.corr, failed := true, pos := d.pos + b.2 + k }

/-- `DEC_PAYLOAD(r, n, m)`: the recovered bytes and the number of symbols corrected (R205). -/
def decPayload (C : Codec) (open_ : Nat → Byte) (r : List Byte) (n : Nat) (maxFec : Bit) :
    Except StatusError (List Byte × Nat) :=
  match plan n maxFec with
  | .error e => .error e
  | .ok p =>
    let d := p.blocks.foldl (decodeBlock C open_ r p.paritySymbols) { out := [], corr := 0, failed := false, pos := 0 }
    if d.failed then .error .uncorrectable
    else if d.out.length ≠ n then .error .internalInconsistency
    else .ok (d.out, d.corr)

/-- The number of received bytes IL2P_DEC reads: the plan's encoded length (R206). -/
def encodedLength (n : Nat) (maxFec : Bit) : Nat :=
  match plan n maxFec with
  | .error _ => 0
  | .ok p => p.encodedLength

end Sys2Proof.Machine
end

