-- ==== Sys2Proof/Machine/Frame.lean ====
section
/-! DEFINITION. The IL2P frame and its serializer (44_dispatch.md R260, R261). -/

namespace Sys2Proof.Machine

/-- `IL2P_FRAME(s, c)`: sync word, header, encoded payload and, when enabled, the trailing CRC of the frame bytes (R81,
R240, R260). -/
def il2pFrame (C : Codec) (s : List Byte) (c : EffCfg) : Except StatusError (List Byte) :=
  match C.hdrEnc s c.maxFec with
  | none => .error .encodeFailure
  | some (hdr, pay) =>
    match encPayload C pay c.maxFec with
    | .error _ => .error .encodeFailure
    | .ok blocks => .ok (C.sync ++ hdr ++ blocks ++ (if c.crcEn then crcEnc4 (fcs16 s) else []))

/-- The bits the serializer sends for a byte sequence: each byte most significant bit first, each bit exclusive-ored with
INVERT (R79, R261). -/
def il2pBits (invert : Bit) (bytes : List Byte) : List Bit :=
  bytes.flatMap fun x => (msbFirst x).map fun b => b ^^ invert

/-- `IL2P_TX(ch, b, c)`: straight to the sink, no NRZI, no stuffing (R261). -/
def Chan.il2pTx (bytes : List Byte) (invert : Bit) (c : Chan) : Chan :=
  c.putBits (il2pBits invert bytes)

end Sys2Proof.Machine
end

