-- ==== Sys2Proof/Machine/Line.lean ====
section
/-! DEFINITION. The HDLC line: NRZI, flags, bit stuffing and the frame transmitter; the NRZI decoder and the deframer
(40_hdlc.md R130 to R132, R135, R139, R140). -/

namespace Sys2Proof.Machine

/-! Transmit. -/

/-- `NRZI_SEND(ch, d)`: a 0 inverts the line level, a 1 repeats it; the level is pushed to the sink (R130). -/
def Chan.nrziSend (d : Bit) (c : Chan) : Chan :=
  let level := if d then c.nrziLvl else !c.nrziLvl
  Chan.putBit level { c with nrziLvl := level }

/-- `SEND_CTRL(ch, x)`: eight bits without stuffing, then STUFF_CNT ← 0 (R131). -/
def Chan.sendCtrl (x : Byte) (c : Chan) : Chan :=
  { (lsbFirst x).foldl (fun c d => c.nrziSend d) c with stuffCnt := 0 }

/-- One bit of `SEND_DATA`: after the fifth consecutive 1 a stuffed 0 follows and the count restarts (R132). -/
def Chan.sendDataBit (d : Bit) (c : Chan) : Chan :=
  let c := c.nrziSend d
  if d then
    let run := c.stuffCnt + 1
    if run = BitVec.ofNat 3 Config.stuffRun then { c.nrziSend false with stuffCnt := 0 }
    else { c with stuffCnt := run }
  else { c with stuffCnt := 0 }

/-- `SEND_DATA(ch, x)` (R132). -/
def Chan.sendData (x : Byte) (c : Chan) : Chan :=
  (lsbFirst x).foldl (fun c d => c.sendDataBit d) c

/-- `SEND_DATA` for each byte of a sequence, in order. -/
def Chan.sendDataBytes (bytes : List Byte) (c : Chan) : Chan :=
  bytes.foldl (fun c x => c.sendData x) c

/-- The FCS as sent: complemented when bad_fcs is set (R135). -/
def sentFcs (frame : List Byte) (badFcs : Bit) : BitVec 16 :=
  if badFcs then ~~~(fcs16 frame) else fcs16 frame

/-- The bits of an HDLC frame: start flag, data, FCS low byte first, end flag (R135). -/
def Chan.sendFrame (frame : List Byte) (badFcs : Bit) (c : Chan) : Chan :=
  let fcs := sentFcs frame badFcs
  (((c.sendCtrl Config.flagByte).sendDataBytes frame).sendDataBytes [loByte fcs, hiByte fcs]).sendCtrl Config.flagByte

/-- `k` filler flags (R136). -/
def Chan.sendFlags : Nat → Chan → Chan
  | 0, c => c
  | k + 1, c => Chan.sendFlags k (c.sendCtrl Config.flagByte)

/-! Receive. -/

/-- `NRZI_RECV(ch, L)`: a level equal to the last one is a 1, a changed level a 0 (R139). -/
def Chan.nrziRecv (level : Bit) (c : Chan) : Bit × Chan :=
  (level == c.rxLvl, { c with rxLvl := level })

/-- `RX_FRAME_END`: the body of the frame between two flags, or nothing when it is empty, not whole bytes, too short or its
FCS is wrong (R140). -/
def rxFrame (acc : List Bit) : Option (List Byte) :=
  let bits := acc.take (acc.length - 6)
  let nb := bits.length / 8
  if acc.length < 6 then none
  else if bits.length % 8 ≠ 0 then none
  else if nb < Config.rxMinBytes then none
  else
    let y := bytesOfBits bits
    let body := y.take (nb - 2)
    if fcs16 body = le16Value (y.getD (nb - 2) 0) (y.getD (nb - 1) 0) then some body else none

/-- Drop the frame in progress and the flag synchronisation (R140: abort, overlong frame). -/
def Chan.rxAbort (c : Chan) : Chan :=
  { c with rxSync := false, rxAcc := [] }

/-- Append a de-stuffed bit when a flag has been seen (R140). -/
def Chan.rxAppend (d : Bit) (c : Chan) : Chan :=
  if c.rxSync then { c with rxAcc := c.rxAcc ++ [d] } else c

/-- A decoded 1: count it; seven are an abort, six may be a flag, fewer are data (R140). -/
def Chan.rxOne (c : Chan) : Chan :=
  let ones := if c.rxOnes = 7 then 7 else c.rxOnes + 1
  let c := { c with rxOnes := ones }
  if ones = 7 then c.rxAbort
  else if ones = 6 then c
  else c.rxAppend true

/-- A decoded 0: after six 1s a flag, after five a stuffed bit, otherwise data. With the frame a flag ends (R140). -/
def Chan.rxZero (c : Chan) : Chan × Option (List Byte) :=
  if c.rxOnes = 6 then
    ({ c with rxSync := true, rxAcc := [], rxOnes := 0 }, if c.rxSync then rxFrame c.rxAcc else none)
  else if c.rxOnes = 5 then ({ c with rxOnes := 0 }, none)
  else ({ c.rxAppend false with rxOnes := 0 }, none)

/-- An overlong frame is treated as an abort (R140). -/
def Chan.rxLimit (c : Chan) : Chan :=
  if c.rxAcc.length > 8 * Config.rxMaxBytes + 6 then c.rxAbort else c

/-- `RX_BIT(ch, d)`: the new receive state and the body delivered, if any (R140). -/
def Chan.rxBit (d : Bit) (c : Chan) : Chan × Option (List Byte) :=
  if d then (c.rxOne.rxLimit, none)
  else (c.rxZero.1.rxLimit, c.rxZero.2)

/-- Every level of a sequence through `NRZI_RECV` and `RX_BIT`, with the bodies delivered, in order (R141). -/
def Chan.rxLevels : List Bit → Chan → Chan × List (List Byte)
  | [], c => (c, [])
  | level :: levels, c =>
    let d := c.nrziRecv level
    let r := d.2.rxBit d.1
    let rest := Chan.rxLevels levels r.1
    (rest.1, r.2.toList ++ rest.2)

/-- The record of a delivered frame: its length, low byte first, then the body (R141). -/
def rxRecord (body : List Byte) : List Byte :=
  le16 body.length ++ body

end Sys2Proof.Machine
end

