-- ==== Sys2Proof/Machine/Hdlc.lean ====
section
/-! DEFINITION. The HDLC commands (40_hdlc.md R135 to R137, R141). -/

namespace Sys2Proof.Machine

/-- HDLC_SEND (R135). -/
def execHdlcSend (ch : BitVec 8) (badFcs : Bit) (n : BitVec 12) (s : State) : Result :=
  onChannel (.hdlcSend ch badFcs n) ch s fun c =>
    withIbuf 0 n.toNat s fun frame =>
      let c' := c.startCount.sendFrame frame badFcs
      .next ((s.setChan ch c').finish c'.bitsSent ((sentFcs frame badFcs).setWidth 32) 0 0)

/-- The filler of PREAMBLE by the channel's mode: 0x55 plain for IL2P, flags otherwise (R136). -/
def Chan.sendFiller (k : Nat) (c : Chan) : Chan :=
  let cfg := effCfg c.cfg
  if cfg.mode = modeIl2p then c.il2pTx (List.replicate k Config.il2pPreambleByte) cfg.invert
  else c.sendFlags k

/-- PREAMBLE (R136). -/
def execPreamble (ch : BitVec 8) (finish : Bit) (nbytes : BitVec 12) (s : State) : Result :=
  onChannel (.preamble ch finish nbytes) ch s fun c =>
    let sent := c.startCount.sendFiller nbytes.toNat
    let c' := if finish then sent.flush else sent
    .next ((s.setChan ch c').finish c'.bitsSent 0 0 0)

/-- HDLC_RX: one level per IBUF byte, its bit 0; the records of the delivered frames to OBUF (R141). -/
def execHdlcRx (ch : BitVec 8) (nlevels : BitVec 12) (s : State) : Result :=
  onChannel (.hdlcRx ch nlevels) ch s fun c =>
    withIbuf 0 nlevels.toNat s fun bytes =>
      let r := c.rxLevels (bytes.map fun b => b.getLsbD 0)
      finishOut (r.2.flatMap rxRecord) (countWord r.2.length) 0 0 (s.setChan ch r.1)

/-- FCS_CALC (R137). -/
def execFcsCalc (n : BitVec 12) (s : State) : Result :=
  withIbuf 0 n.toNat s fun frame =>
    .next (s.finish 0 ((fcs16 frame).setWidth 32) 0 0)

end Sys2Proof.Machine
end

