-- ==== Sys2Proof/Machine/Il2p.lean ====
section
/-! DEFINITION. The IL2P planner and payload commands (41_il2p_plan.md R188, 42_il2p_payload.md R204, R206). -/

namespace Sys2Proof.Machine

/-- IL2P_PLAN (R188). -/
def execIl2pPlan (maxFec : Bit) (size : BitVec 12) (s : State) : Result :=
  match plan size.toNat maxFec with
  | .error e => .next (s.finish e.code 0 0 0)
  | .ok p => finishOut p.toRecord 0 (countWord p.encodedLength) (countWord p.blockCount) s

/-- IL2P_ENC: the encoded payload of `encodedLength` bytes to OBUF (R203, R204). -/
def execIl2pEnc (maxFec : Bit) (size : BitVec 12) (s : State) : Result :=
  if size.toNat > Config.maxPayload then .next (s.finish StatusError.invalidSize.code 0 0 0)
  else
    withIbuf 0 size.toNat s fun payload =>
      guardRange 0 (encodedLength size.toNat maxFec)
        (.next
          (match encPayload Codec.machine payload maxFec with
          | .error e => s.finish e.code 0 0 0
          | .ok out => (s.storeOut out).finish (countWord out.length) 0 0 (countWord out.length)))

/-- What a failed IL2P_DEC leaves: OBUF[0..n) and AUX open, OUT_LEN 0, the error in STATUS (R206). Log 6. -/
def State.finishFailedDecode (e : StatusError) (n : Nat) (s : State) : State :=
  { (s.storeOut ((List.range n).map fun i => Config.decFailByte s.draws i)).finish e.code 0
      (Config.decFailAux s.draws) 0 with
    draws := s.draws + 1 }

/-- IL2P_DEC: the received bytes at IBUF[0..E), the recovered payload to OBUF[0..n) (R206). -/
def execIl2pDec (maxFec : Bit) (size : BitVec 12) (s : State) : Result :=
  if size.toNat > Config.maxPayload then .next (s.finish StatusError.invalidSize.code 0 0 0)
  else
    withIbuf 0 (encodedLength size.toNat maxFec) s fun received =>
      guardRange 0 size.toNat
        (.next
          (match decPayload Codec.machine (Config.failedBlockByte s.draws) received size.toNat maxFec with
          | .ok (out, corr) =>
            (s.storeOut out).finish (countWord size.toNat) 0 (countWord corr) (countWord size.toNat)
          | .error e => s.finishFailedDecode e size.toNat))

end Sys2Proof.Machine
end

