-- ==== Sys2Proof/Machine/Il2pCrc.lean ====
section
/-! DEFINITION. The IL2P trailing CRC commands (43_il2p_crc.md R236 to R238). -/

namespace Sys2Proof.Machine

/-- IL2P_CRC_ENC: the CRC value at IBUF[0..2), low byte first (R236). -/
def execIl2pCrcEnc (s : State) : Result :=
  withIbuf 0 2 s fun b =>
    let c := le16Value (b.getD 0 0) (b.getD 1 0)
    finishOut (crcEnc4 c) 0 (c.setWidth 32) 0 s

/-- IL2P_CRC_DEC (R237). -/
def execIl2pCrcDec (s : State) : Result :=
  withIbuf 0 4 s fun e =>
    .next (s.finish 0 ((crcDec4 e).setWidth 32) 0 0)

/-- IL2P_CRC_CHECK: the frame at IBUF[0..n), the encoded CRC right after it (R238). -/
def execIl2pCrcCheck (n : BitVec 12) (s : State) : Result :=
  withIbuf 0 n.toNat s fun frame =>
    withIbuf n.toNat 4 s fun e =>
      .next (s.finish 0 (if crcCheck frame e then 1 else 0) 0 0)

end Sys2Proof.Machine
end

