-- ==== Sys2Proof/Machine/Layer2.lean ====
section
/-! DEFINITION. IL2P transmit and the layer-2 dispatcher (44_dispatch.md R262, R263). -/

namespace Sys2Proof.Machine

/-- IL2P_SEND: MODE is not read; a refused header sends nothing (R262). -/
def execIl2pSend (ch : BitVec 8) (n : BitVec 12) (s : State) : Result :=
  onChannel (.il2pSend ch n) ch s fun c =>
    withIbuf 0 n.toNat s fun frame =>
      let cfg := effCfg c.cfg
      .next
        (match il2pFrame Codec.machine frame cfg with
        | .error e => (s.setChan ch c.startCount).finish e.code 0 0 0
        | .ok bytes =>
          let c' := c.startCount.il2pTx bytes cfg.invert
          (s.setChan ch c').finish c'.bitsSent 0 0 0)

/-- The path L2_SEND takes, with the bits or bytes it sends (R263). -/
inductive Layer2Path where
  /-- Step 3, AUX 0. -/
  | hdlc
  /-- Step 2, AUX 1: the bits and the codec state FX25_SEND returned. -/
  | fx25 (bits : List Bit) (st : TxState)
  /-- Step 1, AUX 2: the bytes of the IL2P frame. -/
  | il2p (bytes : List Byte)
deriving DecidableEq, Repr

/-- The choice of L2_SEND: IL2P or FX.25 by MODE, and HDLC otherwise or when the attempt fails (R263, R264). -/
def layer2Path (C : Codec) (ch : Nat) (frame : List Byte) (c : Chan) : Layer2Path :=
  let cfg := effCfg c.cfg
  if cfg.mode = modeIl2p then
    match il2pFrame C frame cfg with
    | .ok bytes => .il2p bytes
    | .error _ => .hdlc
  else if cfg.mode = modeFx25 then
    let r := C.fx25Send ch frame cfg.fx25 (c.stuffCnt, c.nrziLvl)
    if r.1 > 0 then .fx25 r.2.1 r.2.2 else .hdlc
  else .hdlc

/-- L2_SEND: AUX is the path taken, VALUE the FCS as sent on the HDLC path (R263). -/
def execL2Send (ch : BitVec 8) (badFcs : Bit) (n : BitVec 12) (s : State) : Result :=
  onChannel (.l2Send ch badFcs n) ch s fun c =>
    withIbuf 0 n.toNat s fun frame =>
      let c := c.startCount
      .next
        (match layer2Path Codec.machine ch.toNat frame c with
        | .il2p bytes =>
          let c' := c.il2pTx bytes (effCfg c.cfg).invert
          (s.setChan ch c').finish c'.bitsSent 0 2 0
        | .fx25 bits st =>
          let c' := { c.putBits bits with stuffCnt := st.1, nrziLvl := st.2 }
          (s.setChan ch c').finish c'.bitsSent 0 1 0
        | .hdlc =>
          let c' := c.sendFrame frame badFcs
          (s.setChan ch c').finish c'.bitsSent ((sentFcs frame badFcs).setWidth 32) 0 0)

end Sys2Proof.Machine
end

