-- ==== Sys2Proof/Machine/System.lean ====
section
/-! DEFINITION. The system commands (45_system.md R290 to R292). -/

namespace Sys2Proof.Machine

/-- NOP: every result register becomes 0 (R290). -/
def execNop (s : State) : Result :=
  .next (s.finish 0 0 0 0)

/-- CFG_WRITE: MODE = 3 raises IllegalCommand and leaves CHCFG unchanged (R291). -/
def execCfgWrite (ch : BitVec 8) (cfg : BitVec 12) (s : State) : Result :=
  onChannel (.cfgWrite ch cfg) ch s fun c =>
    if cfgMode cfg = modeIllegal then .next (s.raiseFault .illegalCommand (encode (.cfgWrite ch cfg)))
    else .next ((s.setChan ch { c with cfg := cfg }).finish 0 (cfg.setWidth 32) 0 0)

/-- CFG_READ: the stored value, not the effective one (R292). -/
def execCfgRead (ch : BitVec 8) (s : State) : Result :=
  onChannel (.cfgRead ch) ch s fun c =>
    .next (s.finish 0 (c.cfg.setWidth 32) 0 0)

end Sys2Proof.Machine
end

