-- ==== Sys2Proof/Machine/Dispatch.lean ====
section
/-! DEFINITION. One arm per command of the opcode map (30_encoding.md R109). -/

namespace Sys2Proof.Machine

def exec (i : Instr) (s : State) : Host.Outcome State Fault Refusal :=
  match i with
  | .nop => Sys2Proof.Machine.execNop s
  | .cfgWrite ch cfg => Sys2Proof.Machine.execCfgWrite ch cfg s
  | .cfgRead ch => Sys2Proof.Machine.execCfgRead ch s
  | .hdlcSend ch f n => Sys2Proof.Machine.execHdlcSend ch f n s
  | .preamble ch f nbytes => Sys2Proof.Machine.execPreamble ch f nbytes s
  | .hdlcRx ch nlevels => Sys2Proof.Machine.execHdlcRx ch nlevels s
  | .fcsCalc n => Sys2Proof.Machine.execFcsCalc n s
  | .il2pPlan f size => Sys2Proof.Machine.execIl2pPlan f size s
  | .il2pEnc f size => Sys2Proof.Machine.execIl2pEnc f size s
  | .il2pDec f size => Sys2Proof.Machine.execIl2pDec f size s
  | .il2pCrcEnc => Sys2Proof.Machine.execIl2pCrcEnc s
  | .il2pCrcDec => Sys2Proof.Machine.execIl2pCrcDec s
  | .il2pCrcCheck n => Sys2Proof.Machine.execIl2pCrcCheck n s
  | .il2pSend ch n => Sys2Proof.Machine.execIl2pSend ch n s
  | .l2Send ch f n => Sys2Proof.Machine.execL2Send ch f n s

end Sys2Proof.Machine
end

