-- ==== Sys2Proof/Machine/Command.lean ====
section
/-! DEFINITION. Running one command word, and the host's other actions (30_encoding.md R108, R114; 70_reset_and_hazards.md
R340). -/

namespace Sys2Proof.Machine

/-- A word written to CMD (R108): a faulted block ignores it (R305); a word no row matches raises IllegalCommand; any other
runs its command, whose first check is the channel's. -/
def runCommand (w : Word) (s : State) : Result :=
  match s.fault.faulted with
  | true => .next s
  | false =>
    match decode w with
    | .ok i => exec i s
    | .error _ => .next (s.raiseFault .illegalCommand w)

/-- `LOAD a, b0 b1 ...`: the host writes IBUF, faulted or not (R49, R114). Log 5, 20. -/
def loadIbuf (a : Nat) (bytes : List Byte) (s : State) : Result :=
  guardRange a bytes.length (.next { s with ibuf := Memory.putBytes s.ibuf a bytes })

/-- One action of the host (R30). -/
def hostAct (act : HostAction) (s : State) : Result :=
  match act with
  | .cmd w => runCommand w s
  | .load a bytes => loadIbuf a bytes s
  | .reset => .next s.afterReset

/-- The next action of the host, taken off the list; with none left L2C waits and holds its state (R318, R342). Log 1. -/
def takeAction (s : State) : Result :=
  match s.host with
  | [] => .next s
  | act :: rest => hostAct act { s with host := rest }

/-- The state in which the host's next action is to write the given word to CMD. -/
def State.pushCommand (w : Word) (s : State) : State :=
  { s with host := .cmd w :: s.host }

end Sys2Proof.Machine
end

