-- ==== Sys2Proof/Machine/Step.lean ====
section
/-! DEFINITION. The step: one action of the host, to completion (10_state.md R30). -/

namespace Sys2Proof.Machine

/-- One step. -/
def step (s : State) : Host.Outcome State Fault Refusal :=
  takeAction s

/-- The state whose next step runs the command word of an opcode-table row: the host's next action writes it to CMD. -/
def State.withFetchWord (s : State) (nbits w : Nat) : State :=
  s.pushCommand (tableWord nbits w)

end Sys2Proof.Machine
end

