-- ==== Sys2Proof/Safety.lean ====
section
/-! DEFINITION. What counts as a sound state of L2C, and the sequences of bits the statements speak of: HDLC bits before
NRZI, line levels, and what a command added to a sink. They are written from the rules directly, as functions of whole
sequences, and not from the machine's bit-by-bit operations. -/

namespace Sys2Proof.Machine

/-! Sound states. -/

/-- What holds of every channel of a reachable state: STUFF_CNT is 0 to 4 between bits (R43), MODE is never 3 (R39), RX_ACC
keeps its bound (R46), and nothing is accumulated without a flag (R140). -/
structure Chan.Sound (c : Chan) : Prop where
  /-- R43. -/
  stuff : c.stuffCnt.toNat ≤ 4
  /-- R39. -/
  mode : cfgMode c.cfg ≠ modeIllegal
  /-- R46. -/
  accBound : c.rxAcc.length ≤ 8 * Config.rxMaxBytes + 6
  /-- R140. -/
  accSync : c.rxSync = false → c.rxAcc = []

/-- What holds of every reachable state. -/
structure State.Sound (s : State) : Prop where
  /-- There are NCH channels (R11). -/
  channels : s.chans.length = Config.nch
  /-- Each channel is sound. -/
  each : ∀ c ∈ s.chans, c.Sound
  /-- IBUF is in canonical form. -/
  ibuf : Memory.wf s.ibuf
  /-- OBUF is in canonical form. -/
  obuf : Memory.wf s.obuf
  /-- OUT_LEN is at most 8192 (R32). -/
  outLen : s.outLen.toNat ≤ Config.bufSize
  /-- Without a fault the record is 0 (R37, R302). -/
  noFault : s.fault.faulted = false → s.fault = FaultRecord.none
  /-- A recorded cause is one of the two (R302). -/
  cause : s.fault.faulted = true → s.fault.cause = 1 ∨ s.fault.cause = 2

/-- The host's next action is one L2C's buffers admit: any command word, RESET, or a LOAD that stays inside IBUF (R70). -/
def State.nextActionFits (s : State) : Prop :=
  ∀ a bytes, s.host.head? = some (.load a bytes) → inBuffer a bytes.length = true

/-! Bit sequences. -/

/-- The line levels NRZI sends for a bit sequence, from a given level on (R130). -/
def nrziLevels : Bit → List Bit → List Bit
  | _, [] => []
  | level, true :: ds => level :: nrziLevels level ds
  | level, false :: ds => (!level) :: nrziLevels (!level) ds

/-- The level after a bit sequence (R130). -/
def nrziEnd : Bit → List Bit → Bit
  | level, [] => level
  | level, true :: ds => nrziEnd level ds
  | level, false :: ds => nrziEnd (!level) ds

/-- A bit sequence with a 0 after every fifth consecutive 1, when `run` 1s have just been sent (R132). -/
def stuffed : Nat → List Bit → List Bit
  | _, [] => []
  | _, false :: ds => false :: stuffed 0 ds
  | run, true :: ds => if run + 1 = 5 then true :: false :: stuffed 0 ds else true :: stuffed (run + 1) ds

/-- The flag's bits in sending order (R77, R131). -/
def flagBits : List Bit := [false, true, true, true, true, true, true, false]

/-- The stuffed bits between an HDLC frame's flags: frame bytes, FCS low byte, FCS high byte, each least significant bit
first (R77, R78, R132, R135). -/
def frameBits (frame : List Byte) (badFcs : Bit) : List Bit :=
  stuffed 0 ((frame ++ [loByte (sentFcs frame badFcs), hiByte (sentFcs frame badFcs)]).flatMap lsbFirst)

/-- All bits of an HDLC frame before NRZI (R135). -/
def hdlcBits (frame : List Byte) (badFcs : Bit) : List Bit :=
  flagBits ++ frameBits frame badFcs ++ flagBits

/-- The channel after a sending command has sent these bits through NRZI, as its only bits, ending with a flag. -/
def Chan.sentNrzi (bits : List Bit) (c : Chan) : Chan :=
  { c with
    sink := c.sink ++ (nrziLevels c.nrziLvl bits).map .bit
    nrziLvl := nrziEnd c.nrziLvl bits
    stuffCnt := 0
    bitsSent := countWord bits.length }

/-- The channel after a sending command has pushed these bits, as its only bits, without NRZI (R261). -/
def Chan.sentPlain (bits : List Bit) (c : Chan) : Chan :=
  { c with sink := c.sink ++ bits.map .bit, bitsSent := countWord bits.length }

/-- The bits among sink items. -/
def itemBits (items : List SinkItem) : List Bit :=
  items.filterMap fun
    | .bit b => some b
    | .flush => none

/-- The bits a channel's sink gained between two states (R52). -/
def gainedBits (before after : Chan) : List Bit :=
  itemBits (after.sink.drop before.sink.length)

/-- Six consecutive 1s stand somewhere in a bit sequence. -/
def HasSixOnes (bits : List Bit) : Prop :=
  ∃ pre post, bits = pre ++ List.replicate 6 true ++ post

/-- A receiver that has seen nothing: RX_ONES 0, RX_SYNC 0, RX_ACC empty (R142). -/
def Chan.rxIdle (c : Chan) : Prop :=
  c.rxOnes = 0 ∧ c.rxSync = false ∧ c.rxAcc = []

/-- The bits accumulated since a flag, with the closing flag's leading 0 and five 1s at their end, hold a frame: a body of
at least one byte, then its FCS, low byte first, each byte least significant bit first (R11, R78, R140). -/
def AccHolds (acc : List Bit) (body : List Byte) : Prop :=
  1 ≤ body.length ∧ 6 ≤ acc.length
    ∧ acc.take (acc.length - 6) = (body ++ [loByte (fcs16 body), hiByte (fcs16 body)]).flatMap lsbFirst

/-- What one received level does to a channel whose RX_ACC is within its bound, and what it delivers (R139, R140). A level
equal to RX_LVL is a decoded 1, a different one a decoded 0. -/
structure RxTransition (c c' : Chan) (level : Bit) (delivered : List (List Byte)) : Prop where
  /-- RX_LVL is the level just received (R139). -/
  lvl : c'.rxLvl = level
  /-- RX_ONES counts consecutive 1s, saturating at 7 (R46, R140). -/
  ones : c'.rxOnes.toNat = if level = c.rxLvl then min (c.rxOnes.toNat + 1) 7 else 0
  /-- A 0 after exactly six 1s is a flag: a new frame starts. -/
  flag : level ≠ c.rxLvl → c.rxOnes = 6 → c'.rxSync = true ∧ c'.rxAcc = []
  /-- The seventh consecutive 1, and every further one, is an abort: the frame and RX_SYNC are dropped. -/
  abort : level = c.rxLvl → 6 ≤ c.rxOnes.toNat → c'.rxSync = false ∧ c'.rxAcc = []
  /-- After five 1s, a 0 is a stuffed bit and a 1 may belong to a flag: neither is data. -/
  skip : c.rxOnes = 5 → c'.rxSync = c.rxSync ∧ c'.rxAcc = c.rxAcc
  /-- Any other bit is data: kept when a flag has been seen, and an overlong frame is dropped with RX_SYNC. -/
  data : c.rxOnes.toNat < 5 ∨ (c.rxOnes = 7 ∧ level ≠ c.rxLvl) →
    if c.rxSync then
      if c.rxAcc.length < 16390 then c'.rxSync = true ∧ c'.rxAcc = c.rxAcc ++ [level == c.rxLvl]
      else c'.rxSync = false ∧ c'.rxAcc = []
    else c'.rxSync = false ∧ c'.rxAcc = c.rxAcc
  /-- Exactly a flag that closes a frame with a good FCS delivers, and it delivers that frame's body; everything else is
  discarded silently (R140, R308). -/
  delivers : ∀ body, delivered = [body] ↔
    level ≠ c.rxLvl ∧ c.rxOnes = 6 ∧ c.rxSync = true ∧ AccHolds c.rxAcc body
  /-- One level delivers at most one body. -/
  atMostOne : delivered.length ≤ 1

/-- The bits of a byte as the IL2P serializer sends them: bit 7 first, each exclusive-ored with INVERT (R79, R261). -/
def msbBits (invert : Bit) (x : Byte) : List Bit :=
  [x.getLsbD 7 ^^ invert, x.getLsbD 6 ^^ invert, x.getLsbD 5 ^^ invert, x.getLsbD 4 ^^ invert,
   x.getLsbD 3 ^^ invert, x.getLsbD 2 ^^ invert, x.getLsbD 1 ^^ invert, x.getLsbD 0 ^^ invert]

/-! States after a command. -/

/-- The state a command that only writes the result registers leaves. -/
def State.results (status value aux outLen : Word) (s : State) : State :=
  { s with status := status, value := value, aux := aux, outLen := outLen }

/-- The state with the record of channel ch replaced. -/
def State.withChan (ch : BitVec 8) (c : Chan) (s : State) : State :=
  { s with chans := s.chans.set ch.toNat c }

/-- The state a fault of the given cause leaves (R304). -/
def State.faultedBy (cause : BitVec 8) (w : Word) (s : State) : State :=
  { s with fault := { faulted := true, cause := cause, fcmd := w } }

/-- The result registers hold these values. -/
def Results (status value aux outLen : Word) (t : State) : Prop :=
  t.status = status ∧ t.value = value ∧ t.aux = aux ∧ t.outLen = outLen

/-- Nothing but the result registers, OBUF and the model's draw counter differs (R33, R206). -/
def SameButOutputs (s t : State) : Prop :=
  t.fault = s.fault ∧ t.chans = s.chans ∧ t.ibuf = s.ibuf ∧ t.host = s.host ∧ t.resets = s.resets

/-- OBUF[0..len) holds these bytes and every other OBUF byte is as before (R33). -/
def ObufHolds (out : List Byte) (s t : State) : Prop :=
  t.obufBytes 0 out.length = out ∧ ∀ a, out.length ≤ a → t.obufByte a = s.obufByte a

/-- The two bytes of a 16-bit field, low byte first (R82). -/
def lowHigh (v : Nat) : List Byte :=
  [BitVec.ofNat 8 (v % 256), BitVec.ofNat 8 (v / 256 % 256)]

/-- The words R110 calls reserved or illegal: an OP outside the opcode map, a non-zero RSV, or a non-zero CH, F or LEN in a
row that requires it to be 0 (R109, R110). -/
def Malformed (w : Word) : Prop :=
  opField w ∉ ([0x00, 0x02, 0x03, 0x10, 0x11, 0x12, 0x13, 0x20, 0x21, 0x22, 0x23, 0x24, 0x25, 0x26, 0x30] : List (BitVec 8))
    ∨ rsvField w ≠ 0
    ∨ (opField w ∈ ([0x00, 0x13, 0x20, 0x21, 0x22, 0x23, 0x24, 0x25] : List (BitVec 8)) ∧ chField w ≠ 0)
    ∨ (opField w ∈ ([0x00, 0x02, 0x03, 0x12, 0x13, 0x23, 0x24, 0x25, 0x26] : List (BitVec 8)) ∧ fField w = true)
    ∨ (opField w ∈ ([0x00, 0x03, 0x23, 0x24] : List (BitVec 8)) ∧ lenField w ≠ 0)

/-- The number of the seven bits b[6:0] in which two bytes differ (R231). -/
def distance7 (a b : Byte) : Nat :=
  ((List.range 7).filter fun i => a.getLsbD i != b.getLsbD i).length

end Sys2Proof.Machine
end

