-- ==== Sys2Proof/Certificates/Slice0/Obligations.lean ====
section
/-! DEFINITION. The statements about L2C. Each is a proposition about every state or operand it quantifies over; the
docstring names the rule of spec/ it comes from. -/

open Sys2Proof Sys2Proof.Machine

/-! Encoding (30_encoding.md). -/

/-- Decoding a command's word gives the command, for every operand (R109, R113). -/
def Obligations.DecodeInvertsEncode : Prop :=
  ∀ i : Instr, decode (encode i) = .ok i

/-- A word that decodes is the word of its command: no bit of it is dropped (R101, R109). -/
def Obligations.EncodeInvertsDecode : Prop :=
  ∀ (w : Word) (i : Instr), decode w = .ok i → encode i = w

/-- At most one row of the opcode map matches a word (R108). -/
def Obligations.AtMostOneRowMatches : Prop :=
  ∀ (w : Word) (r r' : OpRow), r ∈ opcodeMap → r' ∈ opcodeMap → r.accepts w = true → r'.accepts w = true →
    r.mnemonic = r'.mnemonic ∧ r.op = r'.op

/-- The reserved and illegal words are exactly those no row matches; each raises IllegalCommand and does nothing else
(R110). -/
def Obligations.MalformedWordsAreIllegal : Prop :=
  ∀ w : Word,
    (Malformed w ↔ ∀ r ∈ opcodeMap, r.accepts w = false)
      ∧ ∀ (s : State) (rest : List HostAction), s.host = .cmd w :: rest → s.fault.faulted = false → Malformed w →
          step s = .next ((({ s with host := rest } : State)).faultedBy 1 w)

/-- Words written out from the assembler syntax and the encodings decode to their commands (R109, R113). -/
def Obligations.SampleWordsDecode : Prop :=
  decode 0x00000000 = .ok .nop
    ∧ decode 0x03600002 = .ok (.cfgWrite 0 0x036)
    ∧ decode 0x00100210 = .ok (.hdlcSend 2 false 1)
    ∧ decode 0x00110011 = .ok (.preamble 0 true 1)
    ∧ decode 0x02900112 = .ok (.hdlcRx 1 41)
    ∧ decode 0x3FF10020 = .ok (.il2pPlan true 1023)
    ∧ decode 0x00F00025 = .ok (.il2pCrcCheck 15)
    ∧ decode 0x00110030 = .ok (.l2Send 0 true 1)
    ∧ decode 0x00080010 = .error .reservedBits
    ∧ decode 0x00000224 = .error .requiredZeroField

/-! The step, faults and reset (30_encoding.md R108, 60_exceptions.md, 70_reset_and_hazards.md). -/

/-- A step whose next host action is a word that decodes runs exactly that command on the state with the action taken off
the host's list (R108; the host's list is the model's, log 1). -/
def Obligations.StepRunsDecodedCommand : Prop :=
  ∀ (s : State) (w : Word) (i : Instr) (rest : List HostAction),
    s.host = .cmd w :: rest → s.fault.faulted = false → decode w = .ok i →
    step s = exec i { s with host := rest }

/-- With no host action to come L2C holds its state (R318, R342; the host's list, and a step that leaves the state as it is
when it is empty, are the model's choice, log 1). -/
def Obligations.IdleHoldsState : Prop :=
  ∀ s : State, s.host = [] → step s = .next s

/-- A command word that faults writes the fault record with its cause and itself, and nothing else (R304). -/
def Obligations.FaultsArePrecise : Prop :=
  ∀ (s t : State) (w : Word) (rest : List HostAction),
    s.host = .cmd w :: rest → s.fault.faulted = false → step s = .next t → t.fault.faulted = true →
    ∃ cause : BitVec 8, (cause = 1 ∨ cause = 2) ∧ t = (({ s with host := rest } : State)).faultedBy cause w

/-- While faulted, every command word is ignored, however many there are; no host action but RESET changes the fault
record; RESET clears it (R305). -/
def Obligations.FaultedBlockIsStuckUntilReset : Prop :=
  ∀ s : State, s.fault.faulted = true →
    (∀ (ws : List Word) (rest : List HostAction), s.host = ws.map .cmd ++ rest →
        Host.Core.run Sys2Proof.core ws.length s = Host.Outcome.next ({ s with host := rest } : State))
      ∧ (∀ (act : HostAction) (rest : List HostAction) (t : State), s.host = act :: rest → step s = .next t →
          (act ≠ .reset → t.fault = s.fault) ∧ (act = .reset → t.fault.faulted = false))

/-- The seven channel commands raise InvalidChannel, before any effect, when CH ≥ NCH; the other commands name no channel
(R306). -/
def Obligations.InvalidChannelIsRaised : Prop :=
  (∀ i : Instr, i.channel?.isSome = true ↔
      opField (encode i) ∈ ([0x02, 0x03, 0x10, 0x11, 0x12, 0x26, 0x30] : List (BitVec 8)))
    ∧ ∀ (i : Instr) (ch : BitVec 8) (s : State), i.channel? = some ch → s.nch ≤ ch.toNat →
        exec i s = .next (s.faultedBy 2 (encode i))

/-- The machine right after reset: NCH channels (1 to 256), every register at the reset value of R340, NRZI levels at
NRZI_INIT, sinks empty (R11, R340). -/
def Obligations.ResetStateValues : Prop :=
  1 ≤ State.reset.nch ∧ State.reset.nch ≤ 256
    ∧ Results 0 0 0 0 State.reset
    ∧ State.reset.fault = ⟨false, 0, 0⟩
    ∧ ∀ k c, State.reset.chan? k = some c →
        c = { cfg := 0, stuffCnt := 0, nrziLvl := Config.nrziInit, bitsSent := 0, rxLvl := Config.nrziInit, rxOnes := 0,
              rxSync := false, rxAcc := [], sink := [] }

/-- RESET from any state, faulted or not, restores the reset values in every channel and leaves both buffers with arbitrary
contents, the free values of a new reset (R340; the counter of resets is the model's, log 4 and 15). -/
def Obligations.ResetRestoresEveryRegister : Prop :=
  ∀ (s : State) (rest : List HostAction), s.host = .reset :: rest →
    ∃ t, step s = .next t ∧ Results 0 0 0 0 t ∧ t.fault = ⟨false, 0, 0⟩ ∧ t.nch = s.nch ∧ t.host = rest
      ∧ (∀ c ∈ t.chans, c = Chan.reset)
      ∧ ∀ a, t.ibufByte a = Config.ibufReset (s.resets + 1) a ∧ t.obufByte a = Config.obufReset (s.resets + 1) a

/-- LOAD writes the given bytes to IBUF and nothing else; a LOAD that leaves IBUF stops the model (R49, R114; the stop is
the model's, log 5). -/
def Obligations.LoadWritesIbufOnly : Prop :=
  ∀ (s : State) (a : Nat) (bytes : List Byte) (rest : List HostAction), s.host = .load a bytes :: rest →
    (bytes = [] ∨ a + bytes.length ≤ 8192 →
      ∃ t, step s = .next t
        ∧ (∀ x, t.ibufByte x = if h : a ≤ x ∧ x < a + bytes.length then bytes[x - a]'(by omega) else s.ibufByte x)
        ∧ t = { s with host := rest, ibuf := t.ibuf })
      ∧ (bytes ≠ [] → 8192 < a + bytes.length → step s = .fault .outsideBuffer)

/-! Configuration (10_state.md, 45_system.md). -/

/-- The effective configuration: the stored fields when VALID = 1, HDLC with the CRC enabled otherwise (R41). -/
def Obligations.EffectiveConfiguration : Prop :=
  ∀ v : BitVec 12,
    (v.toNat / 32 % 2 = 1 →
      (effCfg v).mode.toNat = v.toNat % 4 ∧ (effCfg v).maxFec = decide (v.toNat / 4 % 2 = 1)
        ∧ (effCfg v).invert = decide (v.toNat / 8 % 2 = 1) ∧ (effCfg v).crcEn = decide (v.toNat / 16 % 2 = 1)
        ∧ (effCfg v).fx25.toNat = v.toNat / 64)
      ∧ (v.toNat / 32 % 2 = 0 → effCfg v = { mode := 0, maxFec := false, invert := false, crcEn := true, fx25 := 0 })

/-- NOP clears the result registers and changes nothing else; any other word with OP 0 raises
IllegalCommand; while faulted NOP is ignored (R290). -/
def Obligations.NopClearsResults : Prop :=
  (∀ s : State, exec .nop s = .next (s.results 0 0 0 0))
    ∧ (∀ (w : Word) (s : State) (rest : List HostAction), opField w = 0 → w ≠ 0 → s.host = .cmd w :: rest →
        s.fault.faulted = false → step s = .next ((({ s with host := rest } : State)).faultedBy 1 w))
    ∧ ∀ (s : State) (rest : List HostAction), s.host = .cmd 0 :: rest →
        step s = .next (if s.fault.faulted then { s with host := rest } else (({ s with host := rest } : State)).results 0 0 0 0)

/-- CFG_WRITE stores the value and reports it; MODE = 3 raises IllegalCommand and leaves CHCFG unchanged; a channel that
does not exist raises InvalidChannel first (R291). -/
def Obligations.CfgWriteStoresOrFaults : Prop :=
  ∀ (ch : BitVec 8) (cfg : BitVec 12) (s : State),
    (∀ c, s.chan? ch.toNat = some c → cfg.toNat % 4 ≠ 3 →
      exec (.cfgWrite ch cfg) s = .next ((s.withChan ch { c with cfg := cfg }).results 0 (cfg.setWidth 32) 0 0))
      ∧ (∀ c, s.chan? ch.toNat = some c → cfg.toNat % 4 = 3 →
        exec (.cfgWrite ch cfg) s = .next (s.faultedBy 1 (encode (.cfgWrite ch cfg))))
      ∧ (s.chan? ch.toNat = none → exec (.cfgWrite ch cfg) s = .next (s.faultedBy 2 (encode (.cfgWrite ch cfg))))

/-- CFG_READ reports the stored value, not the effective one, and changes nothing else (R292). -/
def Obligations.CfgReadReportsStored : Prop :=
  ∀ (ch : BitVec 8) (s : State) (c : Chan), s.chan? ch.toNat = some c →
    exec (.cfgRead ch) s = .next (s.results 0 (c.cfg.setWidth 32) 0 0)

/-- A CFG_READ after a CFG_WRITE of a legal value reads it on the same channel, and what was there on another (R291, R292). -/
def Obligations.CfgReadAfterWrite : Prop :=
  ∀ (ch ch' : BitVec 8) (cfg : BitVec 12) (s t u : State) (c : Chan), s.chan? ch'.toNat = some c → ch.toNat < s.nch →
    cfg.toNat % 4 ≠ 3 → exec (.cfgWrite ch cfg) s = .next t → exec (.cfgRead ch') t = .next u →
    u.value = if ch = ch' then cfg.setWidth 32 else c.cfg.setWidth 32

/-! HDLC transmit (40_hdlc.md). -/

/-- The values of FCS16 every model must reproduce (R134). -/
def Obligations.FcsValues : Prop :=
  fcs16 [] = 0x0000 ∧ fcs16 [0x00] = 0xF078 ∧ fcs16 [0xFF] = 0xFF00 ∧ fcs16 [0x7E] = 0x6A81
    ∧ fcs16 [0x31, 0x32, 0x33, 0x34, 0x35, 0x36, 0x37, 0x38, 0x39] = 0x906E
    ∧ fcs16 [0x96, 0x82, 0x64, 0x88, 0x8A, 0xAE, 0xE4, 0x96, 0x96, 0x68, 0x90, 0x8A, 0x94, 0x6F, 0x81] = 0xF0DB
    ∧ fcs16 [0x86, 0xA2, 0x40, 0x40, 0x40, 0x40, 0x60, 0x96, 0x96, 0x68, 0x90, 0x8A, 0x94, 0xFF, 0x03, 0xF0] = 0x7C44

/-- FCS_CALC reports the FCS of IBUF[0..n) and changes nothing else (R137). -/
def Obligations.FcsCalcReportsFcs : Prop :=
  ∀ (n : BitVec 12) (s : State),
    exec (.fcsCalc n) s = .next (s.results 0 ((fcs16 (s.ibufBytes 0 n.toNat)).setWidth 32) 0 0)

/-- HDLC_SEND sends flag, stuffed data and FCS, and flag, through NRZI from the channel's level on, whatever its MODE; it
counts those bits, reports their number and the FCS as sent, and changes nothing else (R130 to R132, R135). -/
def Obligations.HdlcSendSendsFrame : Prop :=
  ∀ (ch : BitVec 8) (badFcs : Bit) (n : BitVec 12) (s : State) (c : Chan), s.chan? ch.toNat = some c →
    exec (.hdlcSend ch badFcs n) s =
      .next ((s.withChan ch (c.sentNrzi (hdlcBits (s.ibufBytes 0 n.toNat) badFcs))).results
        (countWord (hdlcBits (s.ibufBytes 0 n.toNat) badFcs).length)
        ((sentFcs (s.ibufBytes 0 n.toNat) badFcs).setWidth 32) 0 0)

/-- HDLC_SEND of n bytes reports at least 32 + 8n bits, and at most one stuffed bit for five data bits more (R135). -/
def Obligations.HdlcSendBitCount : Prop :=
  ∀ (ch : BitVec 8) (badFcs : Bit) (n : BitVec 12) (s t : State) (c c' : Chan), s.chan? ch.toNat = some c →
    exec (.hdlcSend ch badFcs n) s = .next t → t.chan? ch.toNat = some c' →
    t.status.toNat = (gainedBits c c').length
      ∧ 32 + 8 * n.toNat ≤ t.status.toNat
      ∧ 5 * (t.status.toNat - (32 + 8 * n.toNat)) ≤ 8 * n.toNat + 16

/-- Between the flags of one HDLC_SEND no six consecutive 1s are sent before NRZI, and STUFF_CNT is 0 afterwards (R138 (1)
and (2)). -/
def Obligations.NoFlagInsideFrame : Prop :=
  ∀ (ch : BitVec 8) (badFcs : Bit) (n : BitVec 12) (s t : State) (c c' : Chan), s.chan? ch.toNat = some c →
    exec (.hdlcSend ch badFcs n) s = .next t → t.chan? ch.toNat = some c' →
    c'.stuffCnt = 0
      ∧ ∃ mid, ¬ HasSixOnes mid ∧ gainedBits c c' = nrziLevels c.nrziLvl (flagBits ++ mid ++ flagBits)

/-- The levels HDLC_SEND sends depend only on the frame bytes, F and the starting level, and complement with it (R138 (3)). -/
def Obligations.LevelsDependOnFrameAndLevel : Prop :=
  ∀ (ch ch₂ : BitVec 8) (badFcs : Bit) (n : BitVec 12) (s s₂ t t₂ : State) (c c' c₂ c₂' : Chan),
    s.chan? ch.toNat = some c → s₂.chan? ch₂.toNat = some c₂ →
    s.ibufBytes 0 n.toNat = s₂.ibufBytes 0 n.toNat →
    exec (.hdlcSend ch badFcs n) s = .next t → exec (.hdlcSend ch₂ badFcs n) s₂ = .next t₂ →
    t.chan? ch.toNat = some c' → t₂.chan? ch₂.toNat = some c₂' →
    (c.nrziLvl = c₂.nrziLvl → gainedBits c c' = gainedBits c₂ c₂')
      ∧ (c.nrziLvl ≠ c₂.nrziLvl → gainedBits c c' = (gainedBits c₂ c₂').map (! ·))

/-- PREAMBLE on an HDLC or FX.25 channel sends `nbytes` flags through NRZI, leaves the level as it found it and STUFF_CNT 0
if it sent any, flushes last when asked, and reports 8 bits a flag (R131, R136). -/
def Obligations.PreambleSendsFlags : Prop :=
  ∀ (ch : BitVec 8) (finish : Bit) (nbytes : BitVec 12) (s : State) (c : Chan), s.chan? ch.toNat = some c →
    (effCfg c.cfg).mode ≠ 2 →
    exec (.preamble ch finish nbytes) s =
      .next ((s.withChan ch
        { c with
          sink := c.sink ++ (nrziLevels c.nrziLvl (List.replicate nbytes.toNat flagBits).flatten).map .bit
            ++ (if finish then [.flush] else [])
          stuffCnt := if nbytes.toNat = 0 then c.stuffCnt else 0
          bitsSent := countWord (8 * nbytes.toNat) }).results (countWord (8 * nbytes.toNat)) 0 0 0)

/-- PREAMBLE on an IL2P channel sends `nbytes` bytes 0x55 most significant bit first, exclusive-ored with INVERT, touches
neither NRZI_LVL nor STUFF_CNT, and flushes last when asked (R79, R136). -/
def Obligations.PreambleSendsIl2pFiller : Prop :=
  ∀ (ch : BitVec 8) (finish : Bit) (nbytes : BitVec 12) (s : State) (c : Chan), s.chan? ch.toNat = some c →
    (effCfg c.cfg).mode = 2 →
    exec (.preamble ch finish nbytes) s =
      .next ((s.withChan ch
        { c with
          sink := c.sink
            ++ ((List.replicate nbytes.toNat
                  (([false, true, false, true, false, true, false, true] : List Bit).map
                    (· ^^ (effCfg c.cfg).invert))).flatten).map .bit
            ++ (if finish then [.flush] else [])
          bitsSent := countWord (8 * nbytes.toNat) }).results (countWord (8 * nbytes.toNat)) 0 0 0)

/-! HDLC receive (40_hdlc.md R139 to R142). -/

/-- HDLC_RX takes bit 0 of each of the `nlevels` IBUF bytes as a level, leaves the channel's receive state after them,
writes one record (length low byte first, body) per delivered frame to OBUF, reports their number, and changes nothing
else, whatever the channel's MODE; the records take at most one byte for eight bits received (R73, R141). Every delivered
body has 1 to 2046 bytes and stood, followed by its FCS, in RX_ACC when a level arrived. Every level changes the receive
state and delivers as R139 and R140 say: seven 1s or an overlong frame drop the frame and RX_SYNC, a flag delivers exactly a
frame with a good FCS, and anything else is discarded silently (R139, R140, R308). -/
def Obligations.HdlcRxWritesRecords : Prop :=
  ∀ (ch : BitVec 8) (nlevels : BitVec 12) (s : State) (c : Chan), s.chan? ch.toNat = some c →
    c.rxAcc.length ≤ 8 * Config.rxMaxBytes + 6 →
    let levels := (s.ibufBytes 0 nlevels.toNat).map fun b => b.getLsbD 0
    let r := c.rxLevels levels
    let out := r.2.flatMap fun body => lowHigh body.length ++ body
    (∃ t, exec (.hdlcRx ch nlevels) s = .next t
      ∧ Results (countWord r.2.length) 0 0 (countWord out.length) t
      ∧ ObufHolds out s t ∧ 8 * out.length ≤ c.rxAcc.length + nlevels.toNat
      ∧ t.chans = s.chans.set ch.toNat
          { c with rxLvl := r.1.rxLvl, rxOnes := r.1.rxOnes, rxSync := r.1.rxSync, rxAcc := r.1.rxAcc }
      ∧ t.fault = s.fault ∧ t.ibuf = s.ibuf ∧ t.host = s.host ∧ t.resets = s.resets ∧ t.draws = s.draws)
      ∧ (∀ body ∈ r.2, 1 ≤ body.length ∧ body.length ≤ 2046
          ∧ ∃ pre level post, levels = pre ++ level :: post ∧ AccHolds (c.rxLevels pre).1.rxAcc body)
      ∧ ∀ pre level post, levels = pre ++ level :: post →
          ∃ delivered, (c.rxLevels (pre ++ [level])).2 = (c.rxLevels pre).2 ++ delivered
            ∧ RxTransition (c.rxLevels pre).1 (c.rxLevels (pre ++ [level])).1 level delivered

/-- Feeding a channel's levels in two HDLC_RX commands leaves the same channel and delivers the same frames, split between
the two in order, as feeding them in one (R350). -/
def Obligations.HdlcRxInPieces : Prop :=
  ∀ (ch : BitVec 8) (m₁ m₂ m : BitVec 12) (s s₁ s₂ t : State) (ibuf : Memory),
    ch.toNat < s.nch → m.toNat = m₁.toNat + m₂.toNat →
    exec (.hdlcRx ch m₁) s = .next s₁ →
    (({ s₁ with ibuf := ibuf } : State)).ibufBytes 0 m₂.toNat = s.ibufBytes m₁.toNat m₂.toNat →
    exec (.hdlcRx ch m₂) { s₁ with ibuf := ibuf } = .next s₂ →
    exec (.hdlcRx ch m) s = .next t →
    s₂.chan? ch.toNat = t.chan? ch.toNat
      ∧ s₁.status + s₂.status = t.status
      ∧ s₁.obufBytes 0 s₁.outLen.toNat ++ s₂.obufBytes 0 s₂.outLen.toNat = t.obufBytes 0 t.outLen.toNat

/-- Round trip over the line: the levels of `k` filler flags and one HDLC_SEND, fed to an idle receiver that either starts
at the sender's level or sees at least one flag first, deliver exactly the frame, or nothing when the FCS was sent
complemented; with neither, the frame is lost (R142). -/
def Obligations.HdlcLoopbackDeliversFrame : Prop :=
  ∀ (ch : BitVec 8) (badFcs : Bit) (k n : BitVec 12) (s t u : State) (c c' d : Chan),
    1 ≤ n.toNat → n.toNat + 2 ≤ Config.rxMaxBytes →
    s.chan? ch.toNat = some c → (effCfg c.cfg).mode = 0 →
    exec (.preamble ch false k) s = .next t → exec (.hdlcSend ch badFcs n) t = .next u → u.chan? ch.toNat = some c' →
    d.rxIdle →
    ((d.rxLvl = c.nrziLvl ∨ 1 ≤ k.toNat) →
      (d.rxLevels (gainedBits c c')).2 = if badFcs then [] else [s.ibufBytes 0 n.toNat])
      ∧ (d.rxLvl ≠ c.nrziLvl → k.toNat = 0 → (d.rxLevels (gainedBits c c')).2 = [])

/-! IL2P block planner (41_il2p_plan.md). -/

/-- For every payload size up to 1023 and both modes the planner succeeds with blocks that partition the payload, at least
one small block, blocks that fit an RS codeword, and a bounded encoded length (R185, R187); for a payload that is not empty
the block count is the size divided by 238 (maximum FEC) or 246 (automatic), rounded up, the small block size is the size
divided by that count, and the parity is 16 in maximum-FEC mode and 2, 4, 6 or 8 by the thresholds 61, 123, 185 and 247 on
the small block size in automatic mode (R9, R181 to R184). -/
def Obligations.PlanIsSoundForLegalSizes : Prop :=
  ∀ (n : Nat) (m : Bit), n ≤ 1023 → ∃ p, plan n m = .ok p
    ∧ p.payloadByteCount = n
    ∧ p.smallBlockCount * p.smallBlockSize + p.largeBlockCount * p.largeBlockSize = n
    ∧ p.smallBlockCount + p.largeBlockCount = p.blockCount
    ∧ p.largeBlockSize = p.smallBlockSize + 1
    ∧ (1 ≤ n → p.blockCount = (if m then (n + 237) / 238 else (n + 245) / 246) ∧ p.smallBlockSize = n / p.blockCount)
    ∧ (1 ≤ n → p.largeBlockCount < p.blockCount)
    ∧ p.paritySymbols ∈ [2, 4, 6, 8, 16] ∧ (m = true → p.paritySymbols = 16)
    ∧ (1 ≤ n → m = false → p.smallBlockSize ≤ 247
        ∧ p.paritySymbols = if p.smallBlockSize ≤ 61 then 2 else if p.smallBlockSize ≤ 123 then 4
            else if p.smallBlockSize ≤ 185 then 6 else 8)
    ∧ (1 ≤ p.smallBlockCount → p.smallBlockSize + p.paritySymbols ≤ 254)
    ∧ (1 ≤ p.largeBlockCount → p.largeBlockSize + p.paritySymbols ≤ 254)
    ∧ p.encodedLength = n + p.blockCount * p.paritySymbols
    ∧ p.encodedLength ≤ (if m then 1103 else 1063)

/-- The plan of an empty payload: zero blocks, large block size 1, parity 16 or 2 (R186). -/
def Obligations.ZeroPlanValues : Prop :=
  ∀ m : Bit, plan 0 m = .ok
    { payloadByteCount := 0, blockCount := 0, smallBlockSize := 0, largeBlockSize := 1, largeBlockCount := 0,
      smallBlockCount := 0, paritySymbols := if m then 16 else 2, encodedLength := 0 }

/-- IL2P_PLAN writes the plan's eight fields, low byte first, to OBUF[0..16) and reports encoded length and block count; a
size above 1023 reports −1 and writes nothing (R188). -/
def Obligations.Il2pPlanWritesRecord : Prop :=
  ∀ (m : Bit) (size : BitVec 12) (s : State),
    (size.toNat ≤ 1023 → ∃ p t, plan size.toNat m = .ok p ∧ exec (.il2pPlan m size) s = .next t
      ∧ Results 0 (countWord p.encodedLength) (countWord p.blockCount) 16 t
      ∧ ObufHolds (lowHigh p.payloadByteCount ++ lowHigh p.blockCount ++ lowHigh p.smallBlockSize
          ++ lowHigh p.largeBlockSize ++ lowHigh p.largeBlockCount ++ lowHigh p.smallBlockCount
          ++ lowHigh p.paritySymbols ++ lowHigh p.encodedLength) s t
      ∧ SameButOutputs s t ∧ t.draws = s.draws)
      ∧ (1023 < size.toNat → exec (.il2pPlan m size) s = .next (s.results 0xFFFFFFFF 0 0 0))

/-! IL2P payload codec (42_il2p_payload.md). -/

/-- Every payload of at most 1023 bytes encodes, to exactly the plan's encoded length (R185, R203). -/
def Obligations.EncodingHasPlannedLength : Prop :=
  ∀ (payload : List Byte) (m : Bit), payload.length ≤ 1023 →
    ∃ p out, plan payload.length m = .ok p ∧ encPayload Codec.machine payload m = .ok out ∧ out.length = p.encodedLength

/-- Block j of a plan holds the payload bytes the block order gives it, the large blocks first; the encoding holds, at the
sum of the earlier blocks' lengths and parities, the scrambled block and then its parity (R200, R201, R203). -/
def Obligations.EncodedBlocksInOrder : Prop :=
  ∀ (payload : List Byte) (m : Bit) (p : BlockPlan) (out : List Byte), plan payload.length m = .ok p →
    encPayload Codec.machine payload m = .ok out →
    p.blocks.length = p.largeBlockCount + p.smallBlockCount
      ∧ ∀ (j : Nat) (h : j < p.blocks.length),
        p.blocks[j] = (if j < p.largeBlockCount then (j * p.largeBlockSize, p.largeBlockSize)
            else (p.largeBlockCount * p.largeBlockSize + (j - p.largeBlockCount) * p.smallBlockSize, p.smallBlockSize))
          ∧ (out.drop (((p.blocks.take j).map fun b => b.2 + p.paritySymbols).sum)).take (p.blocks[j].2 + p.paritySymbols)
              = Codec.machine.scramble ((payload.drop p.blocks[j].1).take p.blocks[j].2)
                ++ Codec.machine.rsEnc (Codec.machine.scramble ((payload.drop p.blocks[j].1).take p.blocks[j].2))
                  p.paritySymbols

/-- Decoding an unaltered encoding gives the payload and no corrections (R207). -/
def Obligations.PayloadRoundTrip : Prop :=
  ∀ (payload : List Byte) (m : Bit) (anyByte : Nat → Byte), payload.length ≤ 1023 →
    ∃ out, encPayload Codec.machine payload m = .ok out
      ∧ decPayload Codec.machine anyByte out payload.length m = .ok (payload, 0)

/-- A decode fails as Uncorrectable exactly when the Reed-Solomon decode of some block fails, whatever the other blocks do;
block j starts after the earlier blocks and their parity (R200, R205). -/
def Obligations.DecodeFailsIffABlockFails : Prop :=
  ∀ (anyByte : Nat → Byte) (r : List Byte) (n : Nat) (m : Bit) (p : BlockPlan), plan n m = .ok p →
    (decPayload Codec.machine anyByte r n m = .error .uncorrectable ↔
      ∃ j, ∃ h : j < p.blocks.length,
        Codec.machine.rsDec
          ((r.drop (((p.blocks.take j).map fun b => b.2 + p.paritySymbols).sum)).take (p.blocks[j].2 + p.paritySymbols))
          p.paritySymbols = none)

/-- When the Reed-Solomon decode of every block succeeds, the decoded payload is the descrambled corrected blocks in order,
and the corrections are counted over all blocks (R205). -/
def Obligations.DecodeJoinsCorrectedBlocks : Prop :=
  ∀ (anyByte : Nat → Byte) (r : List Byte) (n : Nat) (m : Bit) (p : BlockPlan) (corrected : List (List Byte × Nat)),
    plan n m = .ok p → r.length = p.encodedLength → corrected.length = p.blocks.length →
    (∀ (j : Nat) (h : j < p.blocks.length),
      Codec.machine.rsDec
        ((r.drop (((p.blocks.take j).map fun b => b.2 + p.paritySymbols).sum)).take (p.blocks[j].2 + p.paritySymbols))
        p.paritySymbols = corrected[j]?) →
    decPayload Codec.machine anyByte r n m
      = .ok (corrected.flatMap fun d => Codec.machine.descramble d.1, (corrected.map fun d => d.2).sum)

/-- IL2P_ENC writes the encoded payload to OBUF and reports its length; a size above 1023 reports −1 and writes nothing
(R204). -/
def Obligations.Il2pEncWritesEncoding : Prop :=
  ∀ (m : Bit) (size : BitVec 12) (s : State),
    (size.toNat ≤ 1023 → ∃ p out t, plan size.toNat m = .ok p
      ∧ encPayload Codec.machine (s.ibufBytes 0 size.toNat) m = .ok out ∧ exec (.il2pEnc m size) s = .next t
      ∧ Results (countWord p.encodedLength) 0 0 (countWord p.encodedLength) t
      ∧ ObufHolds out s t ∧ SameButOutputs s t ∧ t.draws = s.draws)
      ∧ (1023 < size.toNat → exec (.il2pEnc m size) s = .next (s.results 0xFFFFFFFF 0 0 0))

/-- IL2P_DEC of the bytes IBUF[0..E): on success the payload is in OBUF[0..n), STATUS and OUT_LEN are n and AUX the number
of corrections; when a block fails STATUS is −2 and OUT_LEN 0, OBUF[0..n) and AUX are open and nothing else changes; a size
above 1023 reports −1 and writes nothing (R205, R206). -/
def Obligations.Il2pDecRecoversOrReports : Prop :=
  ∀ (m : Bit) (size : BitVec 12) (s : State),
    (size.toNat ≤ 1023 → ∃ p t, plan size.toNat m = .ok p ∧ exec (.il2pDec m size) s = .next t ∧ SameButOutputs s t
      ∧ match decPayload Codec.machine (Config.failedBlockByte s.draws) (s.ibufBytes 0 p.encodedLength) size.toNat m with
        | .ok (out, corr) =>
          Results (countWord size.toNat) 0 (countWord corr) (countWord size.toNat) t ∧ out.length = size.toNat
            ∧ ObufHolds out s t ∧ t.draws = s.draws
        | .error e =>
          e = .uncorrectable ∧ t.status = 0xFFFFFFFE ∧ t.value = 0 ∧ t.outLen = 0
            ∧ ∀ a, size.toNat ≤ a → t.obufByte a = s.obufByte a)
      ∧ (1023 < size.toNat → exec (.il2pDec m size) s = .next (s.results 0xFFFFFFFF 0 0 0))

/-- With the unaltered encoding of a payload in IBUF, IL2P_DEC of the same size and mode reports its size and no
correction, and leaves the payload in OBUF (R206, R207). -/
def Obligations.Il2pDecOfEncodingSucceeds : Prop :=
  ∀ (m : Bit) (size : BitVec 12) (s : State) (payload out : List Byte), size.toNat ≤ 1023 → payload.length = size.toNat →
    encPayload Codec.machine payload m = .ok out → s.ibufBytes 0 out.length = out →
    ∃ t, exec (.il2pDec m size) s = .next t ∧ Results (countWord size.toNat) 0 0 (countWord size.toNat) t
      ∧ ObufHolds payload s t

/-! IL2P trailing CRC (43_il2p_crc.md). -/

/-- HAM_ENC puts the data in bits [3:0], the parities of R230 in bits 4 to 6, and 0 in bit 7; its sixteen values are the
table's (R230). -/
def Obligations.HammingEncodeTable : Prop :=
  (∀ v : BitVec 4,
      (∀ i, i < 4 → (hamEnc v).getLsbD i = v.getLsbD i)
        ∧ (hamEnc v).getLsbD 4 = (v.getLsbD 0 ^^ v.getLsbD 2 ^^ v.getLsbD 3)
        ∧ (hamEnc v).getLsbD 5 = (v.getLsbD 0 ^^ v.getLsbD 1 ^^ v.getLsbD 3)
        ∧ (hamEnc v).getLsbD 6 = (v.getLsbD 0 ^^ v.getLsbD 1 ^^ v.getLsbD 2)
        ∧ (hamEnc v).getLsbD 7 = false)
    ∧ (List.range 16).map (fun v => hamEnc (BitVec.ofNat 4 v))
        = [0x00, 0x71, 0x62, 0x13, 0x54, 0x25, 0x36, 0x47, 0x38, 0x49, 0x5A, 0x2B, 0x6C, 0x1D, 0x0E, 0x7F]

/-- HAM_DEC gives the nibble of the one codeword within Hamming distance 1 of b[6:0] (R231). -/
def Obligations.HammingDecodeNearest : Prop :=
  ∀ (b : Byte) (v : BitVec 4), distance7 b (hamEnc v) ≤ 1 ↔ hamDec b = v

/-- Decoding the four codewords of a CRC gives the CRC; a codeword with one bit flipped decodes to its nibble; the check of
a frame gives the same answer after any one bit of the four bytes is flipped, and changes its answer only when some decoded
nibble changes (R239). -/
def Obligations.CrcSurvivesOneFlippedBit : Prop :=
  (∀ c : BitVec 16, crcDec4 (crcEnc4 c) = c)
    ∧ (∀ (v : BitVec 4) (i : Nat), i < 8 → hamDec (hamEnc v ^^^ (1 <<< i)) = v)
    ∧ (∀ (frame : List Byte) (c : BitVec 16) (j i : Nat), j < 4 → i < 8 →
        crcCheck frame ((crcEnc4 c).set j ((crcEnc4 c).getD j 0 ^^^ (1 <<< i))) = crcCheck frame (crcEnc4 c))
    ∧ ∀ frame e e' : List Byte, crcCheck frame e ≠ crcCheck frame e' →
        ∃ j, j < 4 ∧ hamDec (e.getD j 0) ≠ hamDec (e'.getD j 0)

/-- IL2P_CRC_ENC writes the four codewords of the 16-bit value at IBUF[0..2), low byte first, and reports the value
(R236). -/
def Obligations.Il2pCrcEncWritesCodewords : Prop :=
  ∀ s : State, ∃ t, exec .il2pCrcEnc s = .next t
    ∧ Results 0 ((s.ibufByte 1 ++ s.ibufByte 0).setWidth 32) 0 4 t
    ∧ ObufHolds
        [hamEnc ((s.ibufByte 1).extractLsb' 4 4), hamEnc ((s.ibufByte 1).extractLsb' 0 4),
         hamEnc ((s.ibufByte 0).extractLsb' 4 4), hamEnc ((s.ibufByte 0).extractLsb' 0 4)] s t
    ∧ SameButOutputs s t ∧ t.draws = s.draws

/-- IL2P_CRC_DEC reports the nibbles of IBUF[0..4), the first highest, and changes nothing else (R237). -/
def Obligations.Il2pCrcDecReportsCrc : Prop :=
  ∀ s : State,
    exec .il2pCrcDec s = .next (s.results 0
      ((hamDec (s.ibufByte 0) ++ hamDec (s.ibufByte 1) ++ hamDec (s.ibufByte 2) ++ hamDec (s.ibufByte 3)).setWidth 32) 0 0)

/-- IL2P_CRC_CHECK reports 1 when the FCS of IBUF[0..n) is what the four bytes after it decode to, 0 otherwise, and changes
nothing else (R235, R238). -/
def Obligations.Il2pCrcCheckCompares : Prop :=
  ∀ (n : BitVec 12) (s : State),
    exec (.il2pCrcCheck n) s = .next (s.results 0
      (if fcs16 (s.ibufBytes 0 n.toNat)
          = hamDec (s.ibufByte n.toNat) ++ hamDec (s.ibufByte (n.toNat + 1)) ++ hamDec (s.ibufByte (n.toNat + 2))
            ++ hamDec (s.ibufByte (n.toNat + 3))
        then 1 else 0) 0 0)

/-! IL2P transmit and the dispatcher (44_dispatch.md). -/

/-- An IL2P frame is the sync word (three bytes), the header, the encoded payload and, with the CRC enabled, the four
codewords of the frame bytes' FCS; it fails exactly when the header encoder refuses (R81, R240, R260). -/
def Obligations.Il2pFrameLayout : Prop :=
  ∀ (frame : List Byte) (cfg : EffCfg),
    match Codec.machine.hdrEnc frame cfg.maxFec with
    | none => il2pFrame Codec.machine frame cfg = .error .encodeFailure
    | some (hdr, payload) =>
      ∃ blocks, encPayload Codec.machine payload cfg.maxFec = .ok blocks ∧ Codec.machine.sync.length = 3
        ∧ il2pFrame Codec.machine frame { cfg with crcEn := false } = .ok (Codec.machine.sync ++ hdr ++ blocks)
        ∧ il2pFrame Codec.machine frame { cfg with crcEn := true }
            = .ok (Codec.machine.sync ++ hdr ++ blocks ++ crcEnc4 (fcs16 frame))
        ∧ (crcEnc4 (fcs16 frame)).length = 4

/-- IL2P_SEND, whatever the MODE, sends the IL2P frame most significant bit first with INVERT applied to every bit and
reports 8 bits a byte; when the frame cannot be built it reports −4 and sends nothing; NRZI_LVL and STUFF_CNT are untouched
(R261, R262; a count beyond 32 bits wraps, which is the model's choice, log 13). -/
def Obligations.Il2pSendSendsFrameOrRefuses : Prop :=
  ∀ (ch : BitVec 8) (n : BitVec 12) (s : State) (c : Chan), s.chan? ch.toNat = some c →
    exec (.il2pSend ch n) s = .next
      (match il2pFrame Codec.machine (s.ibufBytes 0 n.toNat) (effCfg c.cfg) with
      | .ok bytes =>
        (s.withChan ch (c.sentPlain (bytes.flatMap (msbBits (effCfg c.cfg).invert)))).results
          (countWord (8 * bytes.length)) 0 0 0
      | .error _ => (s.withChan ch { c with bitsSent := 0 }).results 0xFFFFFFFC 0 0 0)

/-- L2_SEND on a channel whose mode is neither IL2P nor FX.25 does exactly what HDLC_SEND does: it sends the HDLC frame,
VALUE is the FCS as sent, AUX is 0 (R263, R264 (4)). -/
def Obligations.L2SendHdlcModeIsHdlcSend : Prop :=
  ∀ (ch : BitVec 8) (badFcs : Bit) (n : BitVec 12) (s : State) (c : Chan), s.chan? ch.toNat = some c →
    (effCfg c.cfg).mode ≠ 1 → (effCfg c.cfg).mode ≠ 2 →
    exec (.l2Send ch badFcs n) s = exec (.hdlcSend ch badFcs n) s
      ∧ exec (.l2Send ch badFcs n) s =
        .next ((s.withChan ch (c.sentNrzi (hdlcBits (s.ibufBytes 0 n.toNat) badFcs))).results
          (countWord (hdlcBits (s.ibufBytes 0 n.toNat) badFcs).length)
          ((sentFcs (s.ibufBytes 0 n.toNat) badFcs).setWidth 32) 0 0)

/-- L2_SEND on an IL2P channel sends the IL2P frame's bits, ignores F and reports AUX 2; when the frame cannot be built it
sends the HDLC frame as HDLC_SEND would, with AUX 0 (R263, R264 (2) and (3), R265; a count beyond 32 bits wraps, which is
the model's choice, log 13). -/
def Obligations.L2SendIl2pModeFallsBack : Prop :=
  ∀ (ch : BitVec 8) (badFcs : Bit) (n : BitVec 12) (s : State) (c : Chan), s.chan? ch.toNat = some c →
    (effCfg c.cfg).mode = 2 →
    exec (.l2Send ch badFcs n) s = .next
      (match il2pFrame Codec.machine (s.ibufBytes 0 n.toNat) (effCfg c.cfg) with
      | .ok bytes =>
        (s.withChan ch (c.sentPlain (bytes.flatMap (msbBits (effCfg c.cfg).invert)))).results
          (countWord (8 * bytes.length)) 0 2 0
      | .error _ =>
        (s.withChan ch (c.sentNrzi (hdlcBits (s.ibufBytes 0 n.toNat) badFcs))).results
          (countWord (hdlcBits (s.ibufBytes 0 n.toNat) badFcs).length)
          ((sentFcs (s.ibufBytes 0 n.toNat) badFcs).setWidth 32) 0 0)

/-- L2_SEND on an FX.25 channel pushes exactly the bits of FX25_SEND, takes its codec state, ignores F, and reports the
number of bits, which is its result, with AUX 1; when FX25_SEND fails it sends the HDLC frame as HDLC_SEND would, from the
codec state as it was, with AUX 0 (R16, R263, R264 (2), R265; a count beyond 32 bits wraps, which is the model's choice,
log 13). -/
def Obligations.L2SendFx25ModeFallsBack : Prop :=
  ∀ (ch : BitVec 8) (badFcs : Bit) (n : BitVec 12) (s : State) (c : Chan) (r : Int) (bits : List Bit) (st : TxState),
    s.chan? ch.toNat = some c → (effCfg c.cfg).mode = 1 →
    Codec.machine.fx25Send ch.toNat (s.ibufBytes 0 n.toNat) (effCfg c.cfg).fx25 (c.stuffCnt, c.nrziLvl) = (r, bits, st) →
    (0 < r → r = bits.length) ∧ (r ≤ 0 → bits = [])
      ∧ exec (.l2Send ch badFcs n) s = .next
        (if 0 < r then
          (s.withChan ch { c.sentPlain bits with stuffCnt := st.1, nrziLvl := st.2 }).results (BitVec.ofInt 32 r) 0 1 0
        else
          (s.withChan ch (c.sentNrzi (hdlcBits (s.ibufBytes 0 n.toNat) badFcs))).results
            (countWord (hdlcBits (s.ibufBytes 0 n.toNat) badFcs).length)
            ((sentFcs (s.ibufBytes 0 n.toNat) badFcs).setWidth 32) 0 0)

/-! What commands leave alone (10_state.md R33, R47, R49, R52; 20_memory.md R85). -/

/-- No command touches a channel it does not name (R47, R85). -/
def Obligations.OtherChannelsUntouched : Prop :=
  ∀ (i : Instr) (s t : State) (k : Nat), exec i s = .next t → (∀ ch, i.channel? = some ch → ch.toNat ≠ k) →
    t.chan? k = s.chan? k

/-- Commands read IBUF and never write it (R49, R348 (3)). -/
def Obligations.CommandsNeverWriteIbuf : Prop :=
  ∀ (i : Instr) (s t : State) (a : Nat), exec i s = .next t → t.ibufByte a = s.ibufByte a ∧ t.ibuf = s.ibuf

/-- OBUF bytes at and beyond OUT_LEN keep their values; after IL2P_DEC, those at and beyond its size as well as OUT_LEN do
(R33, R206). -/
def Obligations.ObufKeptBeyondOutLen : Prop :=
  ∀ (i : Instr) (s t : State) (a : Nat), exec i s = .next t → t.outLen.toNat ≤ a →
    (∀ m size, i = .il2pDec m size → size.toNat ≤ a) → t.obufByte a = s.obufByte a

/-- A bit sink only grows, at its end (R52, R84). -/
def Obligations.SinksOnlyGrow : Prop :=
  ∀ (i : Instr) (s t : State) (k : Nat) (c : Chan), exec i s = .next t → s.chan? k = some c →
    ∃ c' items, t.chan? k = some c' ∧ c'.sink = c.sink ++ items

/-- STUFF_CNT and NRZI_LVL of a channel are written only by HDLC_SEND, PREAMBLE on a non-IL2P channel and the HDLC and
FX.25 paths of L2_SEND that name it; its receive state only by HDLC_RX; its CHCFG only by CFG_WRITE (R47, R51). -/
def Obligations.OnlyOwnersWriteChannelState : Prop :=
  ∀ (i : Instr) (s t : State) (k : Nat) (c c' : Chan), exec i s = .next t → s.chan? k = some c → t.chan? k = some c' →
    ((∀ ch f n, i = .hdlcSend ch f n → ch.toNat ≠ k) →
        (∀ ch f n, i = .preamble ch f n → ch.toNat = k → (effCfg c.cfg).mode = 2) →
        (∀ ch f n, i = .l2Send ch f n → ch.toNat = k →
          ∃ bytes, (effCfg c.cfg).mode = 2 ∧ il2pFrame Codec.machine (s.ibufBytes 0 n.toNat) (effCfg c.cfg) = .ok bytes) →
        c'.stuffCnt = c.stuffCnt ∧ c'.nrziLvl = c.nrziLvl)
      ∧ ((∀ ch n, i = .hdlcRx ch n → ch.toNat ≠ k) →
        c'.rxLvl = c.rxLvl ∧ c'.rxOnes = c.rxOnes ∧ c'.rxSync = c.rxSync ∧ c'.rxAcc = c.rxAcc)
      ∧ ((∀ ch v, i = .cfgWrite ch v → ch.toNat ≠ k) → c'.cfg = c.cfg)

/-- The effects (`exec`) of two commands on different channels leave every channel and IBUF the same in either order (R85,
R316). `exec` does not look at FAULTED: a command word that follows one that faulted is ignored (R305), so of two command
words written to CMD this says the order does not matter when neither faults. -/
def Obligations.CommandsOnDifferentChannelsCommute : Prop :=
  ∀ (i j : Instr) (a b : BitVec 8) (s s₁ s₂ t₁ t₂ : State), i.channel? = some a → j.channel? = some b → a ≠ b →
    exec i s = .next s₁ → exec j s₁ = .next s₂ → exec j s = .next t₁ → exec i t₁ = .next t₂ →
    s₂.chans = t₂.chans ∧ s₂.ibuf = t₂.ibuf

/-! Sound states. -/

/-- The state after reset is sound. -/
def Obligations.ResetStateIsSound : Prop :=
  State.reset.Sound

/-- Every step from a sound state leads to a sound state: NCH channels, STUFF_CNT 0 to 4, MODE never 3, RX_ACC within its
bound and empty without a flag, buffers in canonical form, OUT_LEN at most 8192, a fault record that is 0 or has one of the
two causes (R11, R32, R37, R39, R43, R46, R302). -/
def Obligations.EveryStepKeepsSoundness : Prop :=
  ∀ s t : State, s.Sound → step s = .next t → t.Sound

/-- From a sound state every step whose host action stays inside IBUF, in particular every command word, goes on to a next
state: no command addresses outside a buffer and none is left without a meaning (R73, R88; that a LOAD outside IBUF stops
is the model's choice, log 5). -/
def Obligations.SoundStatesNeverStop : Prop :=
  ∀ s : State, s.Sound → s.nextActionFits → ∃ t, step s = .next t
end

