-- ==== Sys2Proof/Laws/Codec.lean ====
section
/-! SUPPORT. The laws of the external primitives (00_scope.md R12 to R16), true of the machine's codec whatever the bodyless
constants of Config are. -/

namespace Sys2Proof.Machine

/-- NCH is 1 to 256 (R11). -/
theorem Config.nch_bounds : 1 ≤ Config.nch ∧ Config.nch ≤ 256 := by
  have := Config.nchPred.isLt
  simp only [Config.nch]
  omega

/-- SYNC is three bytes (R12). -/
@[simp] theorem Codec.machine_sync_length : Codec.machine.sync.length = 3 :=
  Config.syncWord.2

/-- The payload HDR_ENC returns has at most 1023 bytes (R13). -/
theorem Codec.machine_hdrEnc_length {s : List Byte} {m : Bit} {h p : List Byte}
    (e : Codec.machine.hdrEnc s m = some (h, p)) : p.length ≤ 1023 := by
  simp only [Codec.machine, hdrEncode, Option.map_eq_some_iff, Prod.mk.injEq] at e
  obtain ⟨x, _, _, rfl⟩ := e
  exact x.2.2

/-- SCRAMBLE keeps the length (R14). -/
@[simp] theorem Codec.machine_scramble_length (b : List Byte) : (Codec.machine.scramble b).length = b.length :=
  (Config.scrambler b.length (blockVector b)).2

/-- DESCRAMBLE keeps the length (R14). -/
@[simp] theorem Codec.machine_descramble_length (b : List Byte) : (Codec.machine.descramble b).length = b.length :=
  ((Config.scrambler b.length).symm (blockVector b)).2

/-- DESCRAMBLE through any vector of the block's length. -/
theorem descrambleBlock_toList {n : Nat} (v : List.Vector Byte n) :
    descrambleBlock v.toList = ((Config.scrambler n).symm v).toList := by
  obtain ⟨l, rfl⟩ := v
  rfl

/-- DESCRAMBLE undoes SCRAMBLE (R14). -/
@[simp] theorem Codec.machine_descramble_scramble (b : List Byte) :
    Codec.machine.descramble (Codec.machine.scramble b) = b := by
  show descrambleBlock (scrambleBlock b) = b
  unfold scrambleBlock
  rw [descrambleBlock_toList, Equiv.symm_apply_apply]
  rfl

/-- RS_ENC gives exactly k bytes (R15). -/
@[simp] theorem Codec.machine_rsEnc_length (b : List Byte) (k : Nat) : (Codec.machine.rsEnc b k).length = k :=
  (Config.rsParity b k).2

/-- RS_DEC of a codeword (R15). -/
theorem Codec.machine_rsDec_rsEnc (b : List Byte) (k : Nat) (h1 : 1 ≤ b.length) (h2 : b.length + k ≤ 255)
    (hk : k ∈ [2, 4, 6, 8, 16]) :
    Codec.machine.rsDec (b ++ Codec.machine.rsEnc b k) k = some (b, 0) := by
  have hl : (rsEncode b k).length = k := Codec.machine_rsEnc_length b k
  have hn : (b ++ rsEncode b k).length - k = b.length := by simp [hl]
  have hc : isCodeword (b ++ rsEncode b k) k = true := by
    have hk' : [2, 4, 6, 8, 16].contains k = true := by simpa using hk
    unfold isCodeword
    simp only [hk', List.length_append, hl]
    simp [h1, h2]
  show rsDecode (b ++ rsEncode b k) k = some (b, 0)
  unfold rsDecode
  rw [if_pos hc, hn]
  simp

/-- A block RS_DEC corrects keeps its length, and the count is at most the codeword's length (R15). -/
theorem Codec.machine_rsDec_length {cw b : List Byte} {k n : Nat} (h : Codec.machine.rsDec cw k = some (b, n)) :
    b.length = cw.length - k ∧ n ≤ cw.length - k + k := by
  change rsDecode cw k = some (b, n) at h
  unfold rsDecode at h
  by_cases hc : isCodeword cw k = true
  · simp only [hc, if_true, Option.some.injEq, Prod.mk.injEq] at h
    obtain ⟨rfl, rfl⟩ := h
    simp
  · simp only [hc, Bool.false_eq_true, if_false, Option.map_eq_some_iff, Prod.mk.injEq] at h
    obtain ⟨d, _, rfl, rfl⟩ := h
    exact ⟨d.1.2, by have := d.2.isLt; omega⟩

/-- R16's rule holds of whatever the open FX.25 primitive answers. -/
theorem fx25Result_spec (raw : Int × List Bit × (Fin 5 × Bit)) :
    ((0 < (fx25Result raw).1 ∧ (fx25Result raw).1 = (fx25Result raw).2.1.length)
      ∨ ((fx25Result raw).1 ≤ 0 ∧ (fx25Result raw).2.1 = []))
      ∧ (fx25Result raw).2.2.1.toNat ≤ 4 := by
  have h4 := raw.2.2.1.isLt
  by_cases h : raw.1 ≤ 0 ∨ raw.2.1 = []
  · rw [fx25Result, if_pos h]
    exact ⟨.inr ⟨min_le_right _ _, rfl⟩, by simp only [BitVec.toNat_ofNat]; omega⟩
  · rw [fx25Result, if_neg h]
    rw [not_or] at h
    have := List.length_pos_of_ne_nil h.2
    exact ⟨.inl ⟨Int.natCast_pos.2 this, rfl⟩, by simp only [BitVec.toNat_ofNat]; omega⟩

/-- FX25_SEND: r > 0 is the number of bits pushed, r ≤ 0 pushes none (R16). -/
theorem Codec.machine_fx25Send (ch : Nat) (s : List Byte) (v : BitVec 6) (st : TxState) :
    (0 < (Codec.machine.fx25Send ch s v st).1
        ∧ (Codec.machine.fx25Send ch s v st).1 = (Codec.machine.fx25Send ch s v st).2.1.length)
      ∨ ((Codec.machine.fx25Send ch s v st).1 ≤ 0 ∧ (Codec.machine.fx25Send ch s v st).2.1 = []) :=
  (fx25Result_spec (Config.fx25Raw ch s v st)).1

/-- The STUFF_CNT FX25_SEND returns is 0 to 4 (R43). -/
theorem Codec.machine_fx25Send_stuff (ch : Nat) (s : List Byte) (v : BitVec 6) (st : TxState) :
    (Codec.machine.fx25Send ch s v st).2.2.1.toNat ≤ 4 :=
  (fx25Result_spec (Config.fx25Raw ch s v st)).2

end Sys2Proof.Machine
end

