-- ==== Sys2Proof/Laws/Decode.lean ====
section
/-! SUPPORT. The fields of a packed command word, and when a row of the opcode map matches one. -/

namespace Sys2Proof

/-- The bits of a packed word. -/
theorem getLsbD_packFields (len : BitVec 12) (rsv : BitVec 3) (f : Bit) (ch op : BitVec 8) (i : Nat) :
    (packFields len rsv f ch op).getLsbD i
      = if i < 8 then op.getLsbD i
        else if i - 8 < 8 then ch.getLsbD (i - 8)
        else if i - 8 - 8 < 1 then (BitVec.ofBool f).getLsbD (i - 8 - 8)
        else if i - 8 - 8 - 1 < 3 then rsv.getLsbD (i - 8 - 8 - 1)
        else len.getLsbD (i - 8 - 8 - 1 - 3) := by
  show BitVec.getLsbD (w := 12 + 3 + 1 + 8 + 8) (len ++ rsv ++ BitVec.ofBool f ++ ch ++ op) i = _
  simp only [BitVec.getLsbD_append]

/-- OP of a packed word. -/
@[simp] theorem opField_packFields (len : BitVec 12) (rsv : BitVec 3) (f : Bit) (ch op : BitVec 8) :
    opField (packFields len rsv f ch op) = op := by
  apply BitVec.eq_of_getLsbD_eq
  intro i hi
  rw [opField, BitVec.getLsbD_extractLsb', getLsbD_packFields]
  simp [hi]

/-- CH of a packed word. -/
@[simp] theorem chField_packFields (len : BitVec 12) (rsv : BitVec 3) (f : Bit) (ch op : BitVec 8) :
    chField (packFields len rsv f ch op) = ch := by
  apply BitVec.eq_of_getLsbD_eq
  intro i hi
  rw [chField, BitVec.getLsbD_extractLsb', getLsbD_packFields]
  simp [hi]

/-- F of a packed word. -/
@[simp] theorem fField_packFields (len : BitVec 12) (rsv : BitVec 3) (f : Bit) (ch op : BitVec 8) :
    fField (packFields len rsv f ch op) = f := by
  rw [fField, getLsbD_packFields]
  cases f <;> rfl

/-- RSV of a packed word. -/
@[simp] theorem rsvField_packFields (len : BitVec 12) (rsv : BitVec 3) (f : Bit) (ch op : BitVec 8) :
    rsvField (packFields len rsv f ch op) = rsv := by
  apply BitVec.eq_of_getLsbD_eq
  intro i hi
  have h1 : ¬ 17 + i < 8 := by omega
  have h2 : ¬ 17 + i - 8 < 8 := by omega
  have h3 : ¬ 17 + i - 8 - 8 < 1 := by omega
  have h4 : 17 + i - 8 - 8 - 1 = i := by omega
  rw [rsvField, BitVec.getLsbD_extractLsb', getLsbD_packFields, if_neg h1, if_neg h2, if_neg h3, h4]
  simp [hi]

/-- LEN of a packed word. -/
@[simp] theorem lenField_packFields (len : BitVec 12) (rsv : BitVec 3) (f : Bit) (ch op : BitVec 8) :
    lenField (packFields len rsv f ch op) = len := by
  apply BitVec.eq_of_getLsbD_eq
  intro i hi
  have h1 : ¬ 20 + i < 8 := by omega
  have h2 : ¬ 20 + i - 8 < 8 := by omega
  have h3 : ¬ 20 + i - 8 - 8 < 1 := by omega
  have h4 : ¬ 20 + i - 8 - 8 - 1 < 3 := by omega
  have h5 : 20 + i - 8 - 8 - 1 - 3 = i := by omega
  rw [lenField, BitVec.getLsbD_extractLsb', getLsbD_packFields, if_neg h1, if_neg h2, if_neg h3, if_neg h4, h5]
  simp [hi]

/-- Masking a packed word masks each field. -/
theorem packFields_and (len len' : BitVec 12) (rsv rsv' : BitVec 3) (f f' : Bit) (ch ch' op op' : BitVec 8) :
    packFields len rsv f ch op &&& packFields len' rsv' f' ch' op'
      = packFields (len &&& len') (rsv &&& rsv') (f && f') (ch &&& ch') (op &&& op') := by
  apply BitVec.eq_of_getLsbD_eq
  intro i _
  rw [BitVec.getLsbD_and]
  simp only [getLsbD_packFields]
  split_ifs <;> simp only [BitVec.getLsbD_and, BitVec.getLsbD_ofBool]
  cases decide (i - 8 - 8 = 0) <;> simp

/-- Packed words are equal when their fields are. -/
theorem packFields_inj {len len' : BitVec 12} {rsv rsv' : BitVec 3} {f f' : Bit} {ch ch' op op' : BitVec 8} :
    packFields len rsv f ch op = packFields len' rsv' f' ch' op'
      ↔ len = len' ∧ rsv = rsv' ∧ f = f' ∧ ch = ch' ∧ op = op' := by
  constructor
  · intro h
    refine ⟨?_, ?_, ?_, ?_, ?_⟩
    · simpa using congrArg lenField h
    · simpa using congrArg rsvField h
    · simpa using congrArg fField h
    · simpa using congrArg chField h
    · simpa using congrArg opField h
  · rintro ⟨rfl, rfl, rfl, rfl, rfl⟩
    rfl

/-- A row matches a packed word when OP is its own, RSV is 0 and every field it does not name is 0 (R105, R109, R110). -/
theorem OpRow.accepts_packFields (r : OpRow) (len : BitVec 12) (rsv : BitVec 3) (f : Bit) (ch op : BitVec 8) :
    r.accepts (packFields len rsv f ch op) = true
      ↔ (r.lenFree = true ∨ len = 0) ∧ rsv = 0 ∧ (r.fFree = true ∨ f = false) ∧ (r.chFree = true ∨ ch = 0)
          ∧ op = r.op := by
  have h12 (x : BitVec 12) : x &&& 0xFFF = x := by
    have : (0xFFF : BitVec 12) = BitVec.allOnes 12 := by decide
    rw [this, BitVec.and_allOnes]
  have h8 (x : BitVec 8) : x &&& 0xFF = x := by
    have : (0xFF : BitVec 8) = BitVec.allOnes 8 := by decide
    rw [this, BitVec.and_allOnes]
  have z12 (x : BitVec 12) : (x &&& 0 = 0) = True := eq_true BitVec.and_zero
  have z8 (x : BitVec 8) : (x &&& 0 = 0) = True := eq_true BitVec.and_zero
  have h3 (x : BitVec 3) : x &&& 0b111 = x := by
    have : (0b111 : BitVec 3) = BitVec.allOnes 3 := by decide
    rw [this, BitVec.and_allOnes]
  simp only [OpRow.accepts, OpRow.mask, OpRow.pattern, packFields_and, beq_iff_eq, packFields_inj, h8, h3]
  cases r.lenFree <;> cases r.fFree <;> cases r.chFree <;>
    simp only [Bool.false_eq_true, if_true, if_false, h12, h8, Bool.not_true, Bool.not_false, Bool.and_true,
      Bool.and_false, true_or, false_or, true_and, z12, z8]

/-- Every word is the packing of its fields. -/
theorem packFields_fields (w : Word) :
    packFields (lenField w) (rsvField w) (fField w) (chField w) (opField w) = w := by
  apply BitVec.eq_of_getLsbD_eq
  intro i hi
  simp only [getLsbD_packFields, lenField, rsvField, fField, chField, opField, BitVec.getLsbD_extractLsb',
    BitVec.getLsbD_ofBool]
  by_cases h8 : i < 8
  · simp [h8]
  · by_cases h16 : i - 8 < 8
    · have : 8 + (i - 8) = i := by omega
      simp [h8, h16, this]
    · by_cases h17 : i - 8 - 8 < 1
      · have : i = 16 := by omega
        subst this
        simp
      · by_cases h20 : i - 8 - 8 - 1 < 3
        · have : 17 + (i - 8 - 8 - 1) = i := by omega
          simp [h8, h16, h17, h20, this]
        · have h1 : 20 + (i - 8 - 8 - 1 - 3) = i := by omega
          have h2 : i - 8 - 8 - 1 - 3 < 12 := by omega
          simp [h8, h16, h17, h20, h1, h2]

end Sys2Proof
end

