-- ==== Sys2Proof/Laws/Memory.lean ====
section
/-! SUPPORT. The buffers: reading what was written, and the canonical form kept by every operation. -/

namespace Sys2Proof.Machine

/-- Read after write of one byte. -/
@[simp] theorem Memory.get?_put (m : Memory) (a x : Nat) (b : Byte) :
    Memory.get? (Memory.put m a b) x = if a = x then some b else Memory.get? m x := by
  induction m with
  | nil => simp [Memory.put, Memory.get?]
  | cons c m ih =>
    obtain ⟨y, v⟩ := c
    simp only [Memory.put]
    split
    · simp [Memory.get?]
    · split
      · subst_vars
        simp only [Memory.get?]
        split <;> rfl
      · simp only [Memory.get?, ih]
        split
        · subst_vars
          split <;> simp_all
        · rfl

/-- Read after a write of consecutive bytes: inside, the byte written; outside, the byte before. -/
theorem Memory.get?_putBytes (m : Memory) (a x : Nat) (bs : List Byte) :
    Memory.get? (Memory.putBytes m a bs) x
      = if a ≤ x ∧ x < a + bs.length then bs[x - a]? else Memory.get? m x := by
  induction bs generalizing m a with
  | nil =>
    have : ¬(a ≤ x ∧ x < a) := by omega
    simp [Memory.putBytes, this]
  | cons b bs ih =>
    rw [Memory.putBytes, ih, List.length_cons, Memory.get?_put]
    by_cases h1 : a + 1 ≤ x ∧ x < a + 1 + bs.length
    · have h2 : a ≤ x ∧ x < a + (bs.length + 1) := by omega
      have h3 : x - a = (x - (a + 1)) + 1 := by omega
      rw [if_pos h1, if_pos h2, h3, List.getElem?_cons_succ]
    · rw [if_neg h1]
      by_cases h2 : a = x
      · subst h2
        have h3 : a ≤ a ∧ a < a + (bs.length + 1) := by omega
        rw [if_pos rfl, if_pos h3]
        simp
      · have h3 : ¬(a ≤ x ∧ x < a + (bs.length + 1)) := by omega
        rw [if_neg h2, if_neg h3]

/-- Every entry after a write is the new one or an old one. -/
theorem Memory.mem_put {m : Memory} {a : Nat} {b : Byte} {c : Host.Cell} (h : c ∈ Memory.put m a b) :
    c = (a, b) ∨ c ∈ m := by
  induction m with
  | nil => simpa [Memory.put] using h
  | cons d m ih =>
    obtain ⟨y, v⟩ := d
    simp only [Memory.put] at h
    split at h
    · simpa using h
    · split at h
      · rcases List.mem_cons.1 h with h | h
        · exact .inl h
        · exact .inr (List.mem_cons_of_mem _ h)
      · rcases List.mem_cons.1 h with h | h
        · exact .inr (by simp [h])
        · exact (ih h).imp id (List.mem_cons_of_mem _)

/-- A write inside the buffer keeps the canonical form. -/
theorem Memory.wf_put {m : Memory} {a : Nat} {b : Byte} (hm : Memory.wf m) (ha : a < Config.bufSize) :
    Memory.wf (Memory.put m a b) := by
  constructor
  · have h := hm.1
    clear hm
    induction m with
    | nil => simp [Memory.put]
    | cons d m ih =>
      obtain ⟨y, v⟩ := d
      rw [List.pairwise_cons] at h
      simp only [Memory.put]
      split
      · rename_i hlt
        refine List.pairwise_cons.2 ⟨fun c hc => ?_, List.pairwise_cons.2 h⟩
        rcases List.mem_cons.1 hc with rfl | hc
        · exact hlt
        · exact lt_trans hlt (h.1 c hc)
      · split
        · rename_i _ he
          subst he
          exact List.pairwise_cons.2 h
        · rename_i hn he
          refine List.pairwise_cons.2 ⟨fun c hc => ?_, ih h.2⟩
          rcases Memory.mem_put hc with rfl | hc
          · show y < a
            omega
          · exact h.1 c hc
  · intro c hc
    rcases Memory.mem_put hc with rfl | hc
    · exact ha
    · exact hm.2 c hc

/-- A write of bytes inside the buffer keeps the canonical form. -/
theorem Memory.wf_putBytes {m : Memory} {a : Nat} {bs : List Byte} (hm : Memory.wf m)
    (h : inBuffer a bs.length = true) : Memory.wf (Memory.putBytes m a bs) := by
  induction bs generalizing m a with
  | nil => exact hm
  | cons b bs ih =>
    have ha : a + (bs.length + 1) ≤ Config.bufSize := by simpa [inBuffer] using h
    refine ih (Memory.wf_put hm (by omega)) ?_
    simp only [inBuffer, decide_eq_true_eq]
    omega

/-- The buffers of the reset state are in canonical form. -/
theorem Memory.wf_nil : Memory.wf [] := ⟨List.Pairwise.nil, by simp⟩

/-- OBUF after a store: inside, the byte stored; outside, the byte before. -/
theorem State.obufByte_storeOut (s : State) (out : List Byte) (a : Nat) :
    (s.storeOut out).obufByte a = if h : a < out.length then out[a] else s.obufByte a := by
  simp only [State.obufByte, State.storeOut, Memory.get?_putBytes, Nat.zero_le, true_and, Nat.zero_add, Nat.sub_zero]
  by_cases h : a < out.length <;> simp [h]

/-- The bytes read back after a store are the bytes stored. -/
theorem State.obufBytes_storeOut (s : State) (out : List Byte) :
    (s.storeOut out).obufBytes 0 out.length = out := by
  apply List.ext_getElem
  · simp [State.obufBytes]
  · intro i h1 h2
    simp [State.obufBytes, State.obufByte_storeOut, h2]

/-- An operand read has the length asked for. -/
@[simp] theorem State.length_ibufBytes (s : State) (a n : Nat) : (s.ibufBytes a n).length = n := by
  simp [State.ibufBytes]

/-- An OBUF read has the length asked for. -/
@[simp] theorem State.length_obufBytes (s : State) (a n : Nat) : (s.obufBytes a n).length = n := by
  simp [State.obufBytes]

end Sys2Proof.Machine
end

