-- ==== Sys2Proof/Laws/State.lean ====
section
/-! SUPPORT. What each update of the state or of a channel does to each field. -/

namespace Sys2Proof.Machine

/-! `finish` (R33). -/

@[simp] theorem State.finish_status (st v a o : Word) (s : State) : (s.finish st v a o).status = st := rfl
@[simp] theorem State.finish_value (st v a o : Word) (s : State) : (s.finish st v a o).value = v := rfl
@[simp] theorem State.finish_aux (st v a o : Word) (s : State) : (s.finish st v a o).aux = a := rfl
@[simp] theorem State.finish_outLen (st v a o : Word) (s : State) : (s.finish st v a o).outLen = o := rfl
@[simp] theorem State.finish_fault (st v a o : Word) (s : State) : (s.finish st v a o).fault = s.fault := rfl
@[simp] theorem State.finish_chans (st v a o : Word) (s : State) : (s.finish st v a o).chans = s.chans := rfl
@[simp] theorem State.finish_ibuf (st v a o : Word) (s : State) : (s.finish st v a o).ibuf = s.ibuf := rfl
@[simp] theorem State.finish_obuf (st v a o : Word) (s : State) : (s.finish st v a o).obuf = s.obuf := rfl
@[simp] theorem State.finish_host (st v a o : Word) (s : State) : (s.finish st v a o).host = s.host := rfl
@[simp] theorem State.finish_resets (st v a o : Word) (s : State) : (s.finish st v a o).resets = s.resets := rfl
@[simp] theorem State.finish_draws (st v a o : Word) (s : State) : (s.finish st v a o).draws = s.draws := rfl

/-! `storeOut`. -/

@[simp] theorem State.storeOut_status (b : List Byte) (s : State) : (s.storeOut b).status = s.status := rfl
@[simp] theorem State.storeOut_value (b : List Byte) (s : State) : (s.storeOut b).value = s.value := rfl
@[simp] theorem State.storeOut_aux (b : List Byte) (s : State) : (s.storeOut b).aux = s.aux := rfl
@[simp] theorem State.storeOut_outLen (b : List Byte) (s : State) : (s.storeOut b).outLen = s.outLen := rfl
@[simp] theorem State.storeOut_fault (b : List Byte) (s : State) : (s.storeOut b).fault = s.fault := rfl
@[simp] theorem State.storeOut_chans (b : List Byte) (s : State) : (s.storeOut b).chans = s.chans := rfl
@[simp] theorem State.storeOut_ibuf (b : List Byte) (s : State) : (s.storeOut b).ibuf = s.ibuf := rfl
@[simp] theorem State.storeOut_obuf (b : List Byte) (s : State) : (s.storeOut b).obuf = Memory.putBytes s.obuf 0 b := rfl
@[simp] theorem State.storeOut_host (b : List Byte) (s : State) : (s.storeOut b).host = s.host := rfl
@[simp] theorem State.storeOut_resets (b : List Byte) (s : State) : (s.storeOut b).resets = s.resets := rfl
@[simp] theorem State.storeOut_draws (b : List Byte) (s : State) : (s.storeOut b).draws = s.draws := rfl

/-! `raiseFault` (R304). -/

@[simp] theorem State.raiseFault_status (k : FaultCause) (w : Word) (s : State) : (s.raiseFault k w).status = s.status := rfl
@[simp] theorem State.raiseFault_value (k : FaultCause) (w : Word) (s : State) : (s.raiseFault k w).value = s.value := rfl
@[simp] theorem State.raiseFault_aux (k : FaultCause) (w : Word) (s : State) : (s.raiseFault k w).aux = s.aux := rfl
@[simp] theorem State.raiseFault_outLen (k : FaultCause) (w : Word) (s : State) : (s.raiseFault k w).outLen = s.outLen := rfl
@[simp] theorem State.raiseFault_fault (k : FaultCause) (w : Word) (s : State) : (s.raiseFault k w).fault = ⟨true, k.code, w⟩ := rfl
@[simp] theorem State.raiseFault_chans (k : FaultCause) (w : Word) (s : State) : (s.raiseFault k w).chans = s.chans := rfl
@[simp] theorem State.raiseFault_ibuf (k : FaultCause) (w : Word) (s : State) : (s.raiseFault k w).ibuf = s.ibuf := rfl
@[simp] theorem State.raiseFault_obuf (k : FaultCause) (w : Word) (s : State) : (s.raiseFault k w).obuf = s.obuf := rfl
@[simp] theorem State.raiseFault_host (k : FaultCause) (w : Word) (s : State) : (s.raiseFault k w).host = s.host := rfl
@[simp] theorem State.raiseFault_resets (k : FaultCause) (w : Word) (s : State) : (s.raiseFault k w).resets = s.resets := rfl
@[simp] theorem State.raiseFault_draws (k : FaultCause) (w : Word) (s : State) : (s.raiseFault k w).draws = s.draws := rfl

/-! `setChan`. -/

@[simp] theorem State.setChan_status (ch : BitVec 8) (c : Chan) (s : State) : (s.setChan ch c).status = s.status := rfl
@[simp] theorem State.setChan_value (ch : BitVec 8) (c : Chan) (s : State) : (s.setChan ch c).value = s.value := rfl
@[simp] theorem State.setChan_aux (ch : BitVec 8) (c : Chan) (s : State) : (s.setChan ch c).aux = s.aux := rfl
@[simp] theorem State.setChan_outLen (ch : BitVec 8) (c : Chan) (s : State) : (s.setChan ch c).outLen = s.outLen := rfl
@[simp] theorem State.setChan_fault (ch : BitVec 8) (c : Chan) (s : State) : (s.setChan ch c).fault = s.fault := rfl
@[simp] theorem State.setChan_chans (ch : BitVec 8) (c : Chan) (s : State) : (s.setChan ch c).chans = s.chans.set ch.toNat c := rfl
@[simp] theorem State.setChan_ibuf (ch : BitVec 8) (c : Chan) (s : State) : (s.setChan ch c).ibuf = s.ibuf := rfl
@[simp] theorem State.setChan_obuf (ch : BitVec 8) (c : Chan) (s : State) : (s.setChan ch c).obuf = s.obuf := rfl
@[simp] theorem State.setChan_host (ch : BitVec 8) (c : Chan) (s : State) : (s.setChan ch c).host = s.host := rfl
@[simp] theorem State.setChan_resets (ch : BitVec 8) (c : Chan) (s : State) : (s.setChan ch c).resets = s.resets := rfl
@[simp] theorem State.setChan_draws (ch : BitVec 8) (c : Chan) (s : State) : (s.setChan ch c).draws = s.draws := rfl

/-! `afterReset` (R340). -/

@[simp] theorem State.afterReset_status (s : State) : (s.afterReset).status = 0 := rfl
@[simp] theorem State.afterReset_value (s : State) : (s.afterReset).value = 0 := rfl
@[simp] theorem State.afterReset_aux (s : State) : (s.afterReset).aux = 0 := rfl
@[simp] theorem State.afterReset_outLen (s : State) : (s.afterReset).outLen = 0 := rfl
@[simp] theorem State.afterReset_fault (s : State) : (s.afterReset).fault = FaultRecord.none := rfl
@[simp] theorem State.afterReset_chans (s : State) : (s.afterReset).chans = s.chans.map fun _ => Chan.reset := rfl
@[simp] theorem State.afterReset_ibuf (s : State) : (s.afterReset).ibuf = [] := rfl
@[simp] theorem State.afterReset_obuf (s : State) : (s.afterReset).obuf = [] := rfl
@[simp] theorem State.afterReset_host (s : State) : (s.afterReset).host = s.host := rfl
@[simp] theorem State.afterReset_resets (s : State) : (s.afterReset).resets = s.resets + 1 := rfl
@[simp] theorem State.afterReset_draws (s : State) : (s.afterReset).draws = s.draws := rfl

/-! `pushCommand`. -/

@[simp] theorem State.pushCommand_status (w : Word) (s : State) : (s.pushCommand w).status = s.status := rfl
@[simp] theorem State.pushCommand_value (w : Word) (s : State) : (s.pushCommand w).value = s.value := rfl
@[simp] theorem State.pushCommand_aux (w : Word) (s : State) : (s.pushCommand w).aux = s.aux := rfl
@[simp] theorem State.pushCommand_outLen (w : Word) (s : State) : (s.pushCommand w).outLen = s.outLen := rfl
@[simp] theorem State.pushCommand_fault (w : Word) (s : State) : (s.pushCommand w).fault = s.fault := rfl
@[simp] theorem State.pushCommand_chans (w : Word) (s : State) : (s.pushCommand w).chans = s.chans := rfl
@[simp] theorem State.pushCommand_ibuf (w : Word) (s : State) : (s.pushCommand w).ibuf = s.ibuf := rfl
@[simp] theorem State.pushCommand_obuf (w : Word) (s : State) : (s.pushCommand w).obuf = s.obuf := rfl
@[simp] theorem State.pushCommand_host (w : Word) (s : State) : (s.pushCommand w).host = .cmd w :: s.host := rfl
@[simp] theorem State.pushCommand_resets (w : Word) (s : State) : (s.pushCommand w).resets = s.resets := rfl
@[simp] theorem State.pushCommand_draws (w : Word) (s : State) : (s.pushCommand w).draws = s.draws := rfl

/-! `finishFailedDecode` (R206). -/

@[simp] theorem State.finishFailedDecode_status (e : StatusError) (n : Nat) (s : State) : (s.finishFailedDecode e n).status = e.code := rfl
@[simp] theorem State.finishFailedDecode_value (e : StatusError) (n : Nat) (s : State) : (s.finishFailedDecode e n).value = 0 := rfl
@[simp] theorem State.finishFailedDecode_aux (e : StatusError) (n : Nat) (s : State) : (s.finishFailedDecode e n).aux = Config.decFailAux s.draws := rfl
@[simp] theorem State.finishFailedDecode_outLen (e : StatusError) (n : Nat) (s : State) : (s.finishFailedDecode e n).outLen = 0 := rfl
@[simp] theorem State.finishFailedDecode_fault (e : StatusError) (n : Nat) (s : State) : (s.finishFailedDecode e n).fault = s.fault := rfl
@[simp] theorem State.finishFailedDecode_chans (e : StatusError) (n : Nat) (s : State) : (s.finishFailedDecode e n).chans = s.chans := rfl
@[simp] theorem State.finishFailedDecode_ibuf (e : StatusError) (n : Nat) (s : State) : (s.finishFailedDecode e n).ibuf = s.ibuf := rfl
@[simp] theorem State.finishFailedDecode_obuf (e : StatusError) (n : Nat) (s : State) : (s.finishFailedDecode e n).obuf = Memory.putBytes s.obuf 0 ((List.range n).map fun i => Config.decFailByte s.draws i) := rfl
@[simp] theorem State.finishFailedDecode_host (e : StatusError) (n : Nat) (s : State) : (s.finishFailedDecode e n).host = s.host := rfl
@[simp] theorem State.finishFailedDecode_resets (e : StatusError) (n : Nat) (s : State) : (s.finishFailedDecode e n).resets = s.resets := rfl
@[simp] theorem State.finishFailedDecode_draws (e : StatusError) (n : Nat) (s : State) : (s.finishFailedDecode e n).draws = s.draws + 1 := rfl

/-! `putBit`, `flush`, `startCount`. -/

@[simp] theorem Chan.putBit_cfg (b : Bit) (c : Chan) : (c.putBit b).cfg = c.cfg := rfl
@[simp] theorem Chan.putBit_stuffCnt (b : Bit) (c : Chan) : (c.putBit b).stuffCnt = c.stuffCnt := rfl
@[simp] theorem Chan.putBit_nrziLvl (b : Bit) (c : Chan) : (c.putBit b).nrziLvl = c.nrziLvl := rfl
@[simp] theorem Chan.putBit_bitsSent (b : Bit) (c : Chan) : (c.putBit b).bitsSent = c.bitsSent + 1 := rfl
@[simp] theorem Chan.putBit_rxLvl (b : Bit) (c : Chan) : (c.putBit b).rxLvl = c.rxLvl := rfl
@[simp] theorem Chan.putBit_rxOnes (b : Bit) (c : Chan) : (c.putBit b).rxOnes = c.rxOnes := rfl
@[simp] theorem Chan.putBit_rxSync (b : Bit) (c : Chan) : (c.putBit b).rxSync = c.rxSync := rfl
@[simp] theorem Chan.putBit_rxAcc (b : Bit) (c : Chan) : (c.putBit b).rxAcc = c.rxAcc := rfl
@[simp] theorem Chan.putBit_sink (b : Bit) (c : Chan) : (c.putBit b).sink = c.sink ++ [.bit b] := rfl

@[simp] theorem Chan.flush_cfg (c : Chan) : (c.flush).cfg = c.cfg := rfl
@[simp] theorem Chan.flush_stuffCnt (c : Chan) : (c.flush).stuffCnt = c.stuffCnt := rfl
@[simp] theorem Chan.flush_nrziLvl (c : Chan) : (c.flush).nrziLvl = c.nrziLvl := rfl
@[simp] theorem Chan.flush_bitsSent (c : Chan) : (c.flush).bitsSent = c.bitsSent := rfl
@[simp] theorem Chan.flush_rxLvl (c : Chan) : (c.flush).rxLvl = c.rxLvl := rfl
@[simp] theorem Chan.flush_rxOnes (c : Chan) : (c.flush).rxOnes = c.rxOnes := rfl
@[simp] theorem Chan.flush_rxSync (c : Chan) : (c.flush).rxSync = c.rxSync := rfl
@[simp] theorem Chan.flush_rxAcc (c : Chan) : (c.flush).rxAcc = c.rxAcc := rfl
@[simp] theorem Chan.flush_sink (c : Chan) : (c.flush).sink = c.sink ++ [.flush] := rfl

@[simp] theorem Chan.startCount_cfg (c : Chan) : (c.startCount).cfg = c.cfg := rfl
@[simp] theorem Chan.startCount_stuffCnt (c : Chan) : (c.startCount).stuffCnt = c.stuffCnt := rfl
@[simp] theorem Chan.startCount_nrziLvl (c : Chan) : (c.startCount).nrziLvl = c.nrziLvl := rfl
@[simp] theorem Chan.startCount_bitsSent (c : Chan) : (c.startCount).bitsSent = 0 := rfl
@[simp] theorem Chan.startCount_rxLvl (c : Chan) : (c.startCount).rxLvl = c.rxLvl := rfl
@[simp] theorem Chan.startCount_rxOnes (c : Chan) : (c.startCount).rxOnes = c.rxOnes := rfl
@[simp] theorem Chan.startCount_rxSync (c : Chan) : (c.startCount).rxSync = c.rxSync := rfl
@[simp] theorem Chan.startCount_rxAcc (c : Chan) : (c.startCount).rxAcc = c.rxAcc := rfl
@[simp] theorem Chan.startCount_sink (c : Chan) : (c.startCount).sink = c.sink := rfl

/-! `nrziSend` (R130). -/

@[simp] theorem Chan.nrziSend_cfg (d : Bit) (c : Chan) : (c.nrziSend d).cfg = c.cfg := rfl
@[simp] theorem Chan.nrziSend_stuffCnt (d : Bit) (c : Chan) : (c.nrziSend d).stuffCnt = c.stuffCnt := rfl
@[simp] theorem Chan.nrziSend_nrziLvl (d : Bit) (c : Chan) : (c.nrziSend d).nrziLvl = (if d then c.nrziLvl else !c.nrziLvl) := rfl
@[simp] theorem Chan.nrziSend_bitsSent (d : Bit) (c : Chan) : (c.nrziSend d).bitsSent = c.bitsSent + 1 := rfl
@[simp] theorem Chan.nrziSend_rxLvl (d : Bit) (c : Chan) : (c.nrziSend d).rxLvl = c.rxLvl := rfl
@[simp] theorem Chan.nrziSend_rxOnes (d : Bit) (c : Chan) : (c.nrziSend d).rxOnes = c.rxOnes := rfl
@[simp] theorem Chan.nrziSend_rxSync (d : Bit) (c : Chan) : (c.nrziSend d).rxSync = c.rxSync := rfl
@[simp] theorem Chan.nrziSend_rxAcc (d : Bit) (c : Chan) : (c.nrziSend d).rxAcc = c.rxAcc := rfl
@[simp] theorem Chan.nrziSend_sink (d : Bit) (c : Chan) : (c.nrziSend d).sink = c.sink ++ [.bit (if d then c.nrziLvl else !c.nrziLvl)] := rfl

/-! The receiver's updates (R139, R140). -/

@[simp] theorem Chan.rxAbort_cfg (c : Chan) : (c.rxAbort).cfg = c.cfg := rfl
@[simp] theorem Chan.rxAbort_stuffCnt (c : Chan) : (c.rxAbort).stuffCnt = c.stuffCnt := rfl
@[simp] theorem Chan.rxAbort_nrziLvl (c : Chan) : (c.rxAbort).nrziLvl = c.nrziLvl := rfl
@[simp] theorem Chan.rxAbort_bitsSent (c : Chan) : (c.rxAbort).bitsSent = c.bitsSent := rfl
@[simp] theorem Chan.rxAbort_rxLvl (c : Chan) : (c.rxAbort).rxLvl = c.rxLvl := rfl
@[simp] theorem Chan.rxAbort_rxOnes (c : Chan) : (c.rxAbort).rxOnes = c.rxOnes := rfl
@[simp] theorem Chan.rxAbort_rxSync (c : Chan) : (c.rxAbort).rxSync = false := rfl
@[simp] theorem Chan.rxAbort_rxAcc (c : Chan) : (c.rxAbort).rxAcc = [] := rfl
@[simp] theorem Chan.rxAbort_sink (c : Chan) : (c.rxAbort).sink = c.sink := rfl

@[simp] theorem Chan.nrziRecv_snd_cfg (l : Bit) (c : Chan) : ((c.nrziRecv l).2).cfg = c.cfg := rfl
@[simp] theorem Chan.nrziRecv_snd_stuffCnt (l : Bit) (c : Chan) : ((c.nrziRecv l).2).stuffCnt = c.stuffCnt := rfl
@[simp] theorem Chan.nrziRecv_snd_nrziLvl (l : Bit) (c : Chan) : ((c.nrziRecv l).2).nrziLvl = c.nrziLvl := rfl
@[simp] theorem Chan.nrziRecv_snd_bitsSent (l : Bit) (c : Chan) : ((c.nrziRecv l).2).bitsSent = c.bitsSent := rfl
@[simp] theorem Chan.nrziRecv_snd_rxLvl (l : Bit) (c : Chan) : ((c.nrziRecv l).2).rxLvl = l := rfl
@[simp] theorem Chan.nrziRecv_snd_rxOnes (l : Bit) (c : Chan) : ((c.nrziRecv l).2).rxOnes = c.rxOnes := rfl
@[simp] theorem Chan.nrziRecv_snd_rxSync (l : Bit) (c : Chan) : ((c.nrziRecv l).2).rxSync = c.rxSync := rfl
@[simp] theorem Chan.nrziRecv_snd_rxAcc (l : Bit) (c : Chan) : ((c.nrziRecv l).2).rxAcc = c.rxAcc := rfl
@[simp] theorem Chan.nrziRecv_snd_sink (l : Bit) (c : Chan) : ((c.nrziRecv l).2).sink = c.sink := rfl

end Sys2Proof.Machine
end

