-- ==== Sys2Proof/Laws/Ops.lean ====
section
/-! SUPPORT. Once for each shared operation: everything it can do. -/

namespace Sys2Proof.Machine

/-- `guardRange`: go on inside the buffer, stop outside. -/
theorem guardRange_cases (a n : Nat) (k : Result) :
    (inBuffer a n = true ∧ guardRange a n k = k)
      ∨ (inBuffer a n = false ∧ guardRange a n k = .fault .outsideBuffer) := by
  cases h : inBuffer a n <;> simp [guardRange, h]

/-- `guardRange` answers next only inside the buffer. -/
theorem guardRange_next {a n : Nat} {k : Result} {t : State} (h : guardRange a n k = .next t) :
    inBuffer a n = true ∧ k = .next t := by
  rcases guardRange_cases a n k with ⟨hb, hk⟩ | ⟨_, hk⟩
  · exact ⟨hb, hk ▸ h⟩
  · rw [hk] at h
    cases h

/-- A range that ends inside the buffer is inside. -/
theorem inBuffer_of_le {a n : Nat} (h : a + n ≤ Config.bufSize) : inBuffer a n = true := by
  simp [inBuffer, h]

/-- Every operand range that starts at 0 and has a LEN field's length is inside (R73). -/
@[simp] theorem inBuffer_len (n : BitVec 12) : inBuffer 0 n.toNat = true := by
  have := n.isLt
  exact inBuffer_of_le (by simp only [Config.bufSize]; omega)

/-- The four bytes after a frame of a LEN field's length are inside (R73). -/
@[simp] theorem inBuffer_afterLen (n : BitVec 12) : inBuffer n.toNat 4 = true := by
  have := n.isLt
  exact inBuffer_of_le (by simp only [Config.bufSize]; omega)

/-- `guardRange` of a range inside. -/
theorem guardRange_pos {a n : Nat} (h : inBuffer a n = true) (k : Result) : guardRange a n k = k := by
  simp [guardRange, h]

/-- `withIbuf` of a range inside goes on with the operand bytes. -/
theorem withIbuf_pos {a n : Nat} (h : inBuffer a n = true) (s : State) (k : List Byte → Result) :
    withIbuf a n s k = k (s.ibufBytes a n) :=
  guardRange_pos h _

/-- `withIbuf` answers next only by going on with the operand bytes. -/
theorem withIbuf_next {a n : Nat} {s t : State} {k : List Byte → Result} (h : withIbuf a n s k = .next t) :
    inBuffer a n = true ∧ k (s.ibufBytes a n) = .next t :=
  guardRange_next h

/-- `finishOut` answers next only with the bytes stored and the result registers written. -/
theorem finishOut_next {out : List Byte} {st v a : Word} {s t : State} (h : finishOut out st v a s = .next t) :
    inBuffer 0 out.length = true ∧ t = (s.storeOut out).finish st v a (countWord out.length) := by
  obtain ⟨hb, hk⟩ := guardRange_next h
  exact ⟨hb, (Host.Outcome.next.inj hk).symm⟩

/-- `onChannel` on a channel that exists. -/
theorem onChannel_some {i : Instr} {ch : BitVec 8} {s : State} {c : Chan} (h : s.chan? ch.toNat = some c)
    (k : Chan → Result) : onChannel i ch s k = k c := by
  simp [onChannel, h]

/-- `onChannel` on a channel that does not exist raises InvalidChannel. -/
theorem onChannel_none {i : Instr} {ch : BitVec 8} {s : State} (h : s.chan? ch.toNat = none) (k : Chan → Result) :
    onChannel i ch s k = .next (s.raiseFault .invalidChannel (encode i)) := by
  simp [onChannel, h]

/-- Everything `onChannel` can do when it answers next. -/
theorem onChannel_next {i : Instr} {ch : BitVec 8} {s t : State} {k : Chan → Result}
    (h : onChannel i ch s k = .next t) :
    (∃ c, s.chan? ch.toNat = some c ∧ k c = .next t)
      ∨ (s.chan? ch.toNat = none ∧ t = s.raiseFault .invalidChannel (encode i)) := by
  cases hc : s.chan? ch.toNat with
  | some c => exact .inl ⟨c, rfl, by rw [← onChannel_some hc k, h]⟩
  | none =>
    rw [onChannel_none hc] at h
    exact .inr ⟨rfl, (Host.Outcome.next.inj h).symm⟩

/-- A channel exists exactly when its number is below NCH. -/
theorem State.chan?_eq_none_iff (s : State) (ch : Nat) : s.chan? ch = none ↔ s.nch ≤ ch := by
  simp [State.chan?, State.nch]

/-- `setChan` keeps the number of channels. -/
@[simp] theorem State.nch_setChan (ch : BitVec 8) (c : Chan) (s : State) : (s.setChan ch c).nch = s.nch := by
  simp [State.nch]

/-- The channels after `setChan`. -/
theorem State.chan?_setChan (ch : BitVec 8) (c : Chan) (s : State) (k : Nat) :
    (s.setChan ch c).chan? k = if ch.toNat = k then (s.chan? k).map (fun _ => c) else s.chan? k := by
  simp only [State.chan?, State.setChan_chans, List.getElem?_set]
  by_cases h : ch.toNat = k
  · subst h
    by_cases hl : ch.toNat < s.chans.length <;> simp [hl]
  · simp [h]

/-- `finish` does not touch the channels. -/
@[simp] theorem State.chan?_finish (st v a o : Word) (s : State) (k : Nat) : (s.finish st v a o).chan? k = s.chan? k := rfl

/-- `storeOut` does not touch the channels. -/
@[simp] theorem State.chan?_storeOut (b : List Byte) (s : State) (k : Nat) : (s.storeOut b).chan? k = s.chan? k := rfl

/-- `finish` does not touch OBUF. -/
@[simp] theorem State.obufByte_finish (st v a o : Word) (s : State) (x : Nat) :
    (s.finish st v a o).obufByte x = s.obufByte x := rfl

/-- `setChan` does not touch OBUF. -/
@[simp] theorem State.obufByte_setChan (ch : BitVec 8) (c : Chan) (s : State) (x : Nat) :
    (s.setChan ch c).obufByte x = s.obufByte x := rfl

/-- `setChan` does not touch IBUF. -/
@[simp] theorem State.ibufBytes_setChan (ch : BitVec 8) (c : Chan) (s : State) (x n : Nat) :
    (s.setChan ch c).ibufBytes x n = s.ibufBytes x n := rfl

/-- `finish` does not touch IBUF. -/
@[simp] theorem State.ibufBytes_finish (st v a o : Word) (s : State) (x n : Nat) :
    (s.finish st v a o).ibufBytes x n = s.ibufBytes x n := rfl

/-- Everything one host action can do. -/
theorem hostAct_next {act : HostAction} {s t : State} (h : hostAct act s = .next t) :
    (∃ w, act = .cmd w ∧ runCommand w s = .next t)
      ∨ (∃ a bytes, act = .load a bytes ∧ inBuffer a bytes.length = true
          ∧ t = { s with ibuf := Memory.putBytes s.ibuf a bytes })
      ∨ (act = .reset ∧ t = s.afterReset) := by
  cases act with
  | cmd w => exact .inl ⟨w, rfl, h⟩
  | load a bytes =>
    obtain ⟨hb, hk⟩ := guardRange_next h
    exact .inr (.inl ⟨a, bytes, rfl, hb, (Host.Outcome.next.inj hk).symm⟩)
  | reset => exact .inr (.inr ⟨rfl, (Host.Outcome.next.inj h).symm⟩)

/-- Everything a command word can do: ignored, executed, or rejected with IllegalCommand. -/
theorem runCommand_next {w : Word} {s t : State} (h : runCommand w s = .next t) :
    (s.fault.faulted = true ∧ t = s)
      ∨ (s.fault.faulted = false ∧ ∃ i, decode w = .ok i ∧ exec i s = .next t)
      ∨ (s.fault.faulted = false ∧ (∃ e, decode w = .error e) ∧ t = s.raiseFault .illegalCommand w) := by
  unfold runCommand at h
  cases hf : s.fault.faulted with
  | true =>
    simp only [hf] at h
    exact .inl ⟨rfl, (Host.Outcome.next.inj h).symm⟩
  | false =>
    simp only [hf] at h
    cases hd : decode w with
    | ok i =>
      simp only [hd] at h
      exact .inr (.inl ⟨rfl, i, rfl, h⟩)
    | error e =>
      simp only [hd] at h
      exact .inr (.inr ⟨rfl, ⟨e, rfl⟩, (Host.Outcome.next.inj h).symm⟩)

/-- Everything a step can do: wait, or take the host's next action. -/
theorem step_next {s t : State} (h : step s = .next t) :
    (s.host = [] ∧ t = s) ∨ (∃ act rest, s.host = act :: rest ∧ hostAct act { s with host := rest } = .next t) := by
  unfold step takeAction at h
  cases hh : s.host with
  | nil =>
    simp only [hh] at h
    exact .inl ⟨rfl, (Host.Outcome.next.inj h).symm⟩
  | cons act rest =>
    simp only [hh] at h
    exact .inr ⟨act, rest, rfl, h⟩

end Sys2Proof.Machine
end

