-- ==== Sys2Proof/Laws/Line.lean ====
section
/-! SUPPORT. Pushing bits, sending through NRZI and receiving: what each operation does once, and what it leaves alone. -/

namespace Sys2Proof.Machine

/-- A fold of updates that keep a field keeps the field. -/
theorem foldl_keeps {α β : Type} (f : Chan → α → Chan) (g : Chan → β) (h : ∀ c x, g (f c x) = g c) (xs : List α)
    (c : Chan) : g (xs.foldl f c) = g c := by
  induction xs generalizing c with
  | nil => rfl
  | cons x xs ih => rw [List.foldl_cons, ih, h]

/-- Everything `putBits` does: the bits go to the sink in order and are counted. -/
theorem Chan.putBits_eq (bits : List Bit) (c : Chan) :
    c.putBits bits = { c with sink := c.sink ++ bits.map .bit, bitsSent := c.bitsSent + BitVec.ofNat 32 bits.length } := by
  induction bits generalizing c with
  | nil => simp [Chan.putBits]
  | cons b bits ih =>
    have h : c.putBits (b :: bits) = (c.putBit b).putBits bits := rfl
    rw [h, ih]
    simp only [Chan.putBit, List.map_cons, List.append_assoc, List.cons_append, List.nil_append, List.length_cons,
      Chan.mk.injEq, true_and, and_true]
    rw [Nat.add_comm, BitVec.ofNat_add, ← BitVec.add_assoc]
    rfl

/-- What the transmitter never touches: configuration and receive state (R47). -/
def Chan.rxSide (c : Chan) : BitVec 12 × Bit × BitVec 3 × Bool × List Bit :=
  (c.cfg, c.rxLvl, c.rxOnes, c.rxSync, c.rxAcc)

/-- What the receiver never touches: configuration, codec state and sink (R47). -/
def Chan.txSide (c : Chan) : BitVec 12 × BitVec 3 × Bit × Word × List SinkItem :=
  (c.cfg, c.stuffCnt, c.nrziLvl, c.bitsSent, c.sink)

@[simp] theorem Chan.rxSide_putBits (bits : List Bit) (c : Chan) : (c.putBits bits).rxSide = c.rxSide :=
  foldl_keeps (fun c b => c.putBit b) Chan.rxSide (fun _ _ => rfl) bits c

@[simp] theorem Chan.rxSide_nrziSend (d : Bit) (c : Chan) : (c.nrziSend d).rxSide = c.rxSide := rfl

@[simp] theorem Chan.rxSide_startCount (c : Chan) : c.startCount.rxSide = c.rxSide := rfl

@[simp] theorem Chan.rxSide_flush (c : Chan) : c.flush.rxSide = c.rxSide := rfl

@[simp] theorem Chan.rxSide_sendCtrl (x : Byte) (c : Chan) : (c.sendCtrl x).rxSide = c.rxSide :=
  foldl_keeps (fun c d => c.nrziSend d) Chan.rxSide (fun _ _ => rfl) (lsbFirst x) c

@[simp] theorem Chan.rxSide_sendDataBit (d : Bit) (c : Chan) : (c.sendDataBit d).rxSide = c.rxSide := by
  cases d
  · rfl
  · simp only [Chan.sendDataBit, if_true]
    split <;> rfl

@[simp] theorem Chan.rxSide_sendData (x : Byte) (c : Chan) : (c.sendData x).rxSide = c.rxSide :=
  foldl_keeps (fun c d => c.sendDataBit d) Chan.rxSide (fun c d => Chan.rxSide_sendDataBit d c) (lsbFirst x) c

@[simp] theorem Chan.rxSide_sendDataBytes (xs : List Byte) (c : Chan) : (c.sendDataBytes xs).rxSide = c.rxSide :=
  foldl_keeps (fun c x => c.sendData x) Chan.rxSide (fun c x => Chan.rxSide_sendData x c) xs c

@[simp] theorem Chan.rxSide_sendFrame (frame : List Byte) (f : Bit) (c : Chan) : (c.sendFrame frame f).rxSide = c.rxSide := by
  simp [Chan.sendFrame]

@[simp] theorem Chan.rxSide_sendFlags (k : Nat) (c : Chan) : (c.sendFlags k).rxSide = c.rxSide := by
  induction k generalizing c with
  | zero => rfl
  | succ k ih => rw [Chan.sendFlags, ih, Chan.rxSide_sendCtrl]

@[simp] theorem Chan.rxSide_il2pTx (b : List Byte) (inv : Bit) (c : Chan) : (c.il2pTx b inv).rxSide = c.rxSide :=
  Chan.rxSide_putBits _ _

@[simp] theorem Chan.rxSide_sendFiller (k : Nat) (c : Chan) : (c.sendFiller k).rxSide = c.rxSide := by
  simp only [Chan.sendFiller]
  split <;> simp

@[simp] theorem Chan.txSide_rxAppend (d : Bit) (c : Chan) : (c.rxAppend d).txSide = c.txSide := by
  unfold Chan.rxAppend
  split <;> rfl

@[simp] theorem Chan.txSide_rxAbort (c : Chan) : c.rxAbort.txSide = c.txSide := rfl

@[simp] theorem Chan.txSide_rxLimit (c : Chan) : c.rxLimit.txSide = c.txSide := by
  unfold Chan.rxLimit
  split <;> rfl

@[simp] theorem Chan.txSide_rxOne (c : Chan) : c.rxOne.txSide = c.txSide := by
  simp only [Chan.rxOne, Chan.rxAppend, Chan.rxAbort]
  repeat' split
  all_goals rfl

@[simp] theorem Chan.txSide_rxZero (c : Chan) : c.rxZero.1.txSide = c.txSide := by
  simp only [Chan.rxZero, Chan.rxAppend]
  repeat' split
  all_goals rfl

@[simp] theorem Chan.txSide_rxBit (d : Bit) (c : Chan) : (c.rxBit d).1.txSide = c.txSide := by
  cases d <;> simp [Chan.rxBit]

/-- The receiver leaves configuration, codec state and sink alone. -/
@[simp] theorem Chan.txSide_rxLevels (levels : List Bit) (c : Chan) : (c.rxLevels levels).1.txSide = c.txSide := by
  induction levels generalizing c with
  | nil => rfl
  | cons l levels ih =>
    simp only [Chan.rxLevels, ih, Chan.txSide_rxBit]
    rfl

/-- Receiving a sequence in two pieces is receiving it in one (R350). -/
theorem Chan.rxLevels_append (xs ys : List Bit) (c : Chan) :
    c.rxLevels (xs ++ ys)
      = (((c.rxLevels xs).1.rxLevels ys).1, (c.rxLevels xs).2 ++ ((c.rxLevels xs).1.rxLevels ys).2) := by
  induction xs generalizing c with
  | nil => simp [Chan.rxLevels]
  | cons x xs ih => simp [Chan.rxLevels, ih]

end Sys2Proof.Machine
end

