-- ==== Sys2Proof/Laws/Plan.lean ====
section
/-! SUPPORT. Everything the planner can answer. -/

namespace Sys2Proof.Machine

/-- The parity counts the automatic mode chooses (R184). -/
theorem autoParity_mem {ss k : Nat} (h : autoParity ss = some k) : k ∈ [2, 4, 6, 8] := by
  unfold autoParity at h
  split at h
  · cases h; decide
  · split at h
    · cases h; decide
    · split at h
      · cases h; decide
      · split at h
        · cases h; decide
        · cases h

/-- The automatic mode finds a parity count exactly for small blocks of at most 247 bytes (R184). -/
theorem autoParity_eq_none_iff (ss : Nat) : autoParity ss = none ↔ 247 < ss := by
  unfold autoParity
  constructor
  · intro h
    by_contra hc
    split at h
    · cases h
    · split at h
      · cases h
      · split at h
        · cases h
        · rw [if_pos (by omega)] at h
          cases h
  · intro h
    rw [if_neg (by omega), if_neg (by omega), if_neg (by omega), if_neg (by omega)]

/-- A plan is the zero plan, a maximum-FEC plan or an automatic plan (R180 to R186). -/
theorem plan_ok_cases {n : Nat} {m : Bit} {p : BlockPlan} (h : plan n m = .ok p) :
    n ≤ Config.maxPayload
      ∧ ((n = 0 ∧ p = zeroPlan m)
        ∨ (n ≠ 0 ∧ m = true ∧ p = blockPlan n (ceilDiv n Config.divMaxFec) Config.maxFecParity)
        ∨ (n ≠ 0 ∧ m = false ∧ ∃ k, autoParity (n / ceilDiv n Config.divAuto) = some k
            ∧ p = blockPlan n (ceilDiv n Config.divAuto) k)) := by
  unfold plan at h
  split at h
  · cases h
  · rename_i hn
    refine ⟨by omega, ?_⟩
    split at h
    · rename_i h0
      exact .inl ⟨h0, (Except.ok.inj h).symm⟩
    · rename_i h0
      cases m with
      | true =>
        simp only [if_true] at h
        exact .inr (.inl ⟨h0, rfl, (Except.ok.inj h).symm⟩)
      | false =>
        simp only [Bool.false_eq_true, if_false] at h
        split at h
        · rename_i k hk
          exact .inr (.inr ⟨h0, rfl, k, hk, (Except.ok.inj h).symm⟩)
        · cases h

/-- The planner fails on a size above 1023, or when the automatic mode finds no parity count (R180, R184). -/
theorem plan_error_cases {n : Nat} {m : Bit} {e : StatusError} (h : plan n m = .error e) :
    (Config.maxPayload < n ∧ e = .invalidSize)
      ∨ (m = false ∧ autoParity (n / ceilDiv n Config.divAuto) = none ∧ e = .internalInconsistency) := by
  unfold plan at h
  split at h
  · rename_i hn
    exact .inl ⟨hn, (Except.error.inj h).symm⟩
  · split at h
    · cases h
    · cases m with
      | true => simp only [if_true] at h; cases h
      | false =>
        simp only [Bool.false_eq_true, if_false] at h
        split at h
        · cases h
        · rename_i hk
          exact .inr ⟨rfl, hk, (Except.error.inj h).symm⟩

end Sys2Proof.Machine
end

