-- ==== Sys2Proof/Laws/Payload.lean ====
section
/-! SUPPORT. Everything the payload codec, the IL2P frame and the choice of path can answer. -/

namespace Sys2Proof.Machine

/-- A slice that lies inside the sequence has its length. -/
theorem length_slice {s : List Byte} {off l : Nat} (h : off + l ≤ s.length) : (slice s off l).length = l := by
  simp only [slice, List.length_take, List.length_drop]
  omega

/-- An encoded block is as long as the block and its parity (R202). -/
@[simp] theorem length_encodeBlock (k : Nat) (b : List Byte) :
    (encodeBlock Codec.machine k b).length = b.length + k := by
  simp [encodeBlock]

/-- The encoder follows the plan of the payload's length, or fails as the planner does (R203). -/
theorem encPayload_cases (C : Codec) (s : List Byte) (m : Bit) :
    (∃ e, plan s.length m = .error e ∧ encPayload C s m = .error e)
      ∨ ∃ p, plan s.length m = .ok p
        ∧ encPayload C s m = .ok (p.blocks.flatMap fun b => encodeBlock C p.paritySymbols (slice s b.1 b.2)) := by
  unfold encPayload
  cases plan s.length m with
  | error e => exact .inl ⟨e, rfl, rfl⟩
  | ok p => exact .inr ⟨p, rfl, rfl⟩

/-- One block of the decoder: joined and counted when it decodes, open and a failure when not (R205). -/
theorem decodeBlock_cases (C : Codec) (open_ : Nat → Byte) (r : List Byte) (k : Nat) (d : DecState) (b : Nat × Nat) :
    (∃ block c, C.rsDec (slice r d.pos (b.2 + k)) k = some (block, c)
        ∧ decodeBlock C open_ r k d b = ⟨d.out ++ C.descramble block, d.corr + c, d.failed, d.pos + b.2 + k⟩)
      ∨ (C.rsDec (slice r d.pos (b.2 + k)) k = none
        ∧ decodeBlock C open_ r k d b
            = ⟨d.out ++ C.descramble ((List.range b.2).map fun i => open_ (b.1 + i)), d.corr, true, d.pos + b.2 + k⟩) := by
  unfold decodeBlock
  cases h : C.rsDec (slice r d.pos (b.2 + k)) k with
  | none => exact .inr ⟨rfl, by simp only [h]⟩
  | some x => exact .inl ⟨x.1, x.2, rfl, by simp only [h]⟩

/-- The position after a block does not depend on what it decodes to (R200, R205). -/
@[simp] theorem decodeBlock_pos (C : Codec) (open_ : Nat → Byte) (r : List Byte) (k : Nat) (d : DecState) (b : Nat × Nat) :
    (decodeBlock C open_ r k d b).pos = d.pos + b.2 + k := by
  obtain ⟨block, c, -, h⟩ | ⟨-, h⟩ := decodeBlock_cases C open_ r k d b <;> rw [h]

/-- An IL2P frame is refused by the header encoder or the payload encoder, or built in order (R260). -/
theorem il2pFrame_cases (C : Codec) (s : List Byte) (c : EffCfg) :
    il2pFrame C s c = .error .encodeFailure
      ∨ ∃ hdr pay blocks, C.hdrEnc s c.maxFec = some (hdr, pay) ∧ encPayload C pay c.maxFec = .ok blocks
        ∧ il2pFrame C s c = .ok (C.sync ++ hdr ++ blocks ++ (if c.crcEn then crcEnc4 (fcs16 s) else [])) := by
  unfold il2pFrame
  cases hh : C.hdrEnc s c.maxFec with
  | none => exact .inl rfl
  | some h =>
    obtain ⟨hdr, pay⟩ := h
    cases hp : encPayload C pay c.maxFec with
    | error e => simp [hp]
    | ok blocks => exact .inr ⟨hdr, pay, blocks, rfl, hp, by simp [hp]⟩

/-- The path L2_SEND takes (R263). -/
theorem layer2Path_cases (C : Codec) (ch : Nat) (s : List Byte) (c : Chan) :
    (layer2Path C ch s c = .hdlc)
      ∨ (∃ bytes, (effCfg c.cfg).mode = modeIl2p ∧ il2pFrame C s (effCfg c.cfg) = .ok bytes ∧ layer2Path C ch s c = .il2p bytes)
      ∨ ((effCfg c.cfg).mode = modeFx25
        ∧ 0 < (C.fx25Send ch s (effCfg c.cfg).fx25 (c.stuffCnt, c.nrziLvl)).1
        ∧ layer2Path C ch s c = .fx25 (C.fx25Send ch s (effCfg c.cfg).fx25 (c.stuffCnt, c.nrziLvl)).2.1
            (C.fx25Send ch s (effCfg c.cfg).fx25 (c.stuffCnt, c.nrziLvl)).2.2) := by
  simp only [layer2Path]
  by_cases h2 : (effCfg c.cfg).mode = modeIl2p
  · rw [if_pos h2]
    cases hf : il2pFrame C s (effCfg c.cfg) with
    | ok bytes => exact .inr (.inl ⟨bytes, h2, rfl, rfl⟩)
    | error e => exact .inl rfl
  · rw [if_neg h2]
    by_cases h1 : (effCfg c.cfg).mode = modeFx25
    · rw [if_pos h1]
      split
      · rename_i hr
        exact .inr (.inr ⟨h1, hr, rfl⟩)
      · exact .inl rfl
    · rw [if_neg h1]
      exact .inl rfl

end Sys2Proof.Machine
end

