-- ==== Sys2Proof/Laws/PerInstr.lean ====
section
/-! SUPPORT. A fact about every command as syntax, one lemma per constructor. -/

namespace Sys2Proof.Laws.CanonicalWord

/-- The command's word has RSV = 0, and CH = 0 unless the command names a channel (R103, R105). -/
def Statement (i : Instr) : Prop :=
  rsvField (encode i) = 0 ∧ chField (encode i) = i.channel?.getD 0

theorem nop : Statement .nop := by simp [Statement, encode, cmdWord, Instr.channel?]

theorem cfgWrite (ch : BitVec 8) (cfg : BitVec 12) : Statement (.cfgWrite ch cfg) := by
  simp [Statement, encode, cmdWord, Instr.channel?]

theorem cfgRead (ch : BitVec 8) : Statement (.cfgRead ch) := by simp [Statement, encode, cmdWord, Instr.channel?]

theorem hdlcSend (ch : BitVec 8) (badFcs : Bit) (n : BitVec 12) : Statement (.hdlcSend ch badFcs n) := by
  simp [Statement, encode, cmdWord, Instr.channel?]

theorem preamble (ch : BitVec 8) (finish : Bit) (nbytes : BitVec 12) : Statement (.preamble ch finish nbytes) := by
  simp [Statement, encode, cmdWord, Instr.channel?]

theorem hdlcRx (ch : BitVec 8) (nlevels : BitVec 12) : Statement (.hdlcRx ch nlevels) := by
  simp [Statement, encode, cmdWord, Instr.channel?]

theorem fcsCalc (n : BitVec 12) : Statement (.fcsCalc n) := by simp [Statement, encode, cmdWord, Instr.channel?]

theorem il2pPlan (maxFec : Bit) (size : BitVec 12) : Statement (.il2pPlan maxFec size) := by
  simp [Statement, encode, cmdWord, Instr.channel?]

theorem il2pEnc (maxFec : Bit) (size : BitVec 12) : Statement (.il2pEnc maxFec size) := by
  simp [Statement, encode, cmdWord, Instr.channel?]

theorem il2pDec (maxFec : Bit) (size : BitVec 12) : Statement (.il2pDec maxFec size) := by
  simp [Statement, encode, cmdWord, Instr.channel?]

theorem il2pCrcEnc : Statement .il2pCrcEnc := by simp [Statement, encode, cmdWord, Instr.channel?]

theorem il2pCrcDec : Statement .il2pCrcDec := by simp [Statement, encode, cmdWord, Instr.channel?]

theorem il2pCrcCheck (n : BitVec 12) : Statement (.il2pCrcCheck n) := by
  simp [Statement, encode, cmdWord, Instr.channel?]

theorem il2pSend (ch : BitVec 8) (n : BitVec 12) : Statement (.il2pSend ch n) := by
  simp [Statement, encode, cmdWord, Instr.channel?]

theorem l2Send (ch : BitVec 8) (badFcs : Bit) (n : BitVec 12) : Statement (.l2Send ch badFcs n) := by
  simp [Statement, encode, cmdWord, Instr.channel?]

end Sys2Proof.Laws.CanonicalWord
end

