-- ==== Sys2Proof/Laws/Receive.lean ====
section
/-! SUPPORT. Everything the deframer does with one frame end and with one level. -/

namespace Sys2Proof.Machine

/-- A byte has eight bits. -/
@[simp] theorem length_lsbFirst (x : Byte) : (lsbFirst x).length = 8 := by simp [lsbFirst]

/-- Reading back the bits of a byte (R77). -/
theorem byteOfBits_lsbFirst (x : Byte) : byteOfBits (lsbFirst x) = x := by
  revert x; decide +kernel

/-- Eight bits are the bits of the byte they make (R77). -/
theorem lsbFirst_byteOfBits {bits : List Bit} (h : bits.length = 8) : lsbFirst (byteOfBits bits) = bits := by
  match bits, h with
  | [b0, b1, b2, b3, b4, b5, b6, b7], _ =>
    revert b0 b1 b2 b3 b4 b5 b6 b7; decide +kernel

/-- The bits of a byte sequence are eight for each byte. -/
@[simp] theorem length_flatMap_lsbFirst (bs : List Byte) : (bs.flatMap lsbFirst).length = 8 * bs.length := by
  induction bs with
  | nil => rfl
  | cons b bs ih => simp only [List.flatMap_cons, List.length_append, length_lsbFirst, List.length_cons, ih]; omega

/-- Splitting off the first byte of a bit sequence. -/
theorem bytesOfBits_append {xs : List Bit} (h : xs.length = 8) (ys : List Bit) :
    bytesOfBits (xs ++ ys) = byteOfBits xs :: bytesOfBits ys := by
  have h1 : (xs ++ ys).length / 8 = ys.length / 8 + 1 := by rw [List.length_append]; omega
  simp only [bytesOfBits, h1, List.range_succ_eq_map, List.map_cons, List.map_map]
  congr 1
  · simp [← h]
  · apply List.map_congr_left
    intro k _
    have h2 : 8 * (k + 1) = xs.length + 8 * k := by omega
    simp only [Function.comp_apply, Nat.succ_eq_add_one, h2, List.drop_append, Nat.add_sub_cancel_left,
      List.drop_eq_nil_of_le (Nat.le_add_right xs.length (8 * k)), List.nil_append]

/-- Reading back the bits of a byte sequence (R140). -/
theorem bytesOfBits_flatMap_lsbFirst (bs : List Byte) : bytesOfBits (bs.flatMap lsbFirst) = bs := by
  induction bs with
  | nil => rfl
  | cons b bs ih => rw [List.flatMap_cons, bytesOfBits_append (length_lsbFirst b), ih, byteOfBits_lsbFirst]

/-- Whole bytes of bits are the bits of the bytes they make (R140). -/
theorem flatMap_lsbFirst_bytesOfBits {n : Nat} {bits : List Bit} (h : bits.length = 8 * n) :
    (bytesOfBits bits).flatMap lsbFirst = bits := by
  induction n generalizing bits with
  | zero => rw [List.length_eq_zero_iff.mp h]; rfl
  | succ n ih =>
    have h1 : (bits.take 8).length = 8 := by rw [List.length_take]; omega
    have h2 : (bits.drop 8).length = 8 * n := by rw [List.length_drop]; omega
    rw [← List.take_append_drop 8 bits, bytesOfBits_append h1, List.flatMap_cons, lsbFirst_byteOfBits h1, ih h2]

/-- The number two bytes stand for, low byte first (R82). -/
theorem le16Value_toNat (lo hi : Byte) : (le16Value lo hi).toNat = 256 * hi.toNat + lo.toNat := by
  have h : (hi ++ lo).toNat = hi.toNat <<< 8 ||| lo.toNat := BitVec.toNat_append hi lo
  rw [← Nat.shiftLeft_add_eq_or_of_lt lo.isLt, Nat.shiftLeft_eq] at h
  have e : (le16Value lo hi).toNat = (hi ++ lo).toNat := rfl
  omega

/-- A 16-bit value is its two bytes, low byte first (R82). -/
theorem le16Value_eq_iff (v : BitVec 16) (lo hi : Byte) : v = le16Value lo hi ↔ lo = loByte v ∧ hi = hiByte v := by
  have hlo : (loByte v).toNat = v.toNat % 256 := by simp [loByte]
  have hhi : (hiByte v).toNat = v.toNat / 256 % 256 := by simp [hiByte, Nat.shiftRight_eq_div_pow]
  have := lo.isLt
  have := hi.isLt
  have := v.isLt
  rw [BitVec.toNat_inj.symm, BitVec.toNat_inj.symm, BitVec.toNat_inj.symm, le16Value_toNat, hlo, hhi]
  omega

/-- A frame end delivers a body exactly when the accumulated bits hold it with its FCS (R140). -/
theorem rxFrame_eq_some_iff (acc : List Bit) (body : List Byte) : rxFrame acc = some body ↔ AccHolds acc body := by
  have hmin : Config.rxMinBytes = 3 := rfl
  simp only [rxFrame, AccHolds]
  generalize hb : acc.take (acc.length - 6) = bits
  constructor
  · intro h
    split at h
    · cases h
    · rename_i h6
      split at h
      · cases h
      · rename_i h8
        split at h
        · cases h
        · rename_i h3
          split at h
          · rename_i hf
            have hl : bits.length = 8 * (bits.length / 8) := by omega
            have hy : (bytesOfBits bits).length = bits.length / 8 := by simp [bytesOfBits]
            have hbody := Option.some.inj h
            rw [hbody] at hf
            obtain ⟨hlo, hhi⟩ := (le16Value_eq_iff _ _ _).mp hf
            have hlen : body.length = bits.length / 8 - 2 := by rw [← hbody, List.length_take, hy]; omega
            refine ⟨by omega, by omega, ?_⟩
            rw [← flatMap_lsbFirst_bytesOfBits hl]
            congr 1
            rw [← hlo, ← hhi, ← hbody]
            have hd : (bytesOfBits bits).drop (bits.length / 8 - 2)
                = [(bytesOfBits bits).getD (bits.length / 8 - 2) 0, (bytesOfBits bits).getD (bits.length / 8 - 1) 0] := by
              apply List.ext_getElem
              · simp [hy]; omega
              · intro i h1 h2
                have hi : i = 0 ∨ i = 1 := by simp at h2; omega
                rw [List.getElem_drop]
                obtain rfl | rfl := hi
                · simp [List.getD, hy, show bits.length / 8 - 2 < bits.length / 8 by omega]
                · have e : bits.length / 8 - 2 + 1 = bits.length / 8 - 1 := by omega
                  simp [e, List.getD, hy, show bits.length / 8 - 1 < bits.length / 8 by omega]
            rw [← hd, List.take_append_drop]
          · cases h
  · rintro ⟨h1, h6, he⟩
    have hl : bits.length = 8 * (body.length + 2) := by rw [he, length_flatMap_lsbFirst]; simp
    have hn : bits.length / 8 = body.length + 2 := by omega
    have hy : bytesOfBits bits = body ++ [loByte (fcs16 body), hiByte (fcs16 body)] := by
      rw [he, bytesOfBits_flatMap_lsbFirst]
    rw [if_neg (by omega), if_neg (by omega), if_neg (by omega), hn, hy]
    have ht : (body ++ [loByte (fcs16 body), hiByte (fcs16 body)]).take (body.length + 2 - 2) = body := by simp
    rw [ht, if_pos]
    rw [le16Value_eq_iff]
    simp [List.getD]

/-- The bodies a frame end delivers, as a list (R140). -/
theorem rxFrame_toList_eq_iff (acc : List Bit) (body : List Byte) :
    (rxFrame acc).toList = [body] ↔ AccHolds acc body := by
  rw [← rxFrame_eq_some_iff]
  cases rxFrame acc <;> simp

/-- Everything one level does to a channel whose RX_ACC is within its bound (R139, R140). -/
theorem rxBit_transition {c : Chan} (h : c.rxAcc.length ≤ 16390) (level : Bit) :
    RxTransition c (((c.nrziRecv level).2).rxBit (c.nrziRecv level).1).1 level
      (((c.nrziRecv level).2).rxBit (c.nrziRecv level).1).2.toList := by
  have hm : 8 * Config.rxMaxBytes + 6 = 16390 := rfl
  obtain ⟨cfg, sc, nl, bs, rl, ones, sync, acc, sink⟩ := c
  have h0 : ¬16390 < acc.length := by simpa using h
  have h1 : (16390 < acc.length + 1) ↔ ¬acc.length < 16390 := by omega
  have hf := rxFrame_toList_eq_iff acc
  have hl : (rxFrame acc).toList.length ≤ 1 := by cases rxFrame acc <;> simp
  have ho : ∀ o : BitVec 3, o = 0 ∨ o = 1 ∨ o = 2 ∨ o = 3 ∨ o = 4 ∨ o = 5 ∨ o = 6 ∨ o = 7 := by decide
  by_cases hd : level = rl
  · subst hd
    obtain rfl | rfl | rfl | rfl | rfl | rfl | rfl | rfl := ho ones <;> cases sync <;>
      by_cases ha : acc.length < 16390 <;>
      constructor <;>
      simp [Chan.nrziRecv, Chan.rxBit, Chan.rxOne, Chan.rxAbort, Chan.rxAppend, Chan.rxLimit, hm, h0, h1, ha]
  · have hd' : (level == rl) = false := by simpa using hd
    obtain rfl | rfl | rfl | rfl | rfl | rfl | rfl | rfl := ho ones <;> cases sync <;>
      by_cases ha : acc.length < 16390 <;>
      constructor <;>
      simp [Chan.nrziRecv, Chan.rxBit, Chan.rxZero, Chan.rxAbort, Chan.rxAppend, Chan.rxLimit, hm, h0, h1, ha, hd, hd', hf, hl]

end Sys2Proof.Machine
end

