-- ==== Sys2Proof/WellFormed.lean ====
section
/-! DEFINITION. Well-formed commands. The field widths of Instr already rule out every operand the encoding cannot hold,
so decoding needs no further check. A command is well formed when its operand values are among those the spec lists as
legal: MODE 0, 1 or 2 for CFG_WRITE (10_state.md R38, R39) and a payload size of 0 to 1023 for the IL2P payload commands
(00_scope.md R9). An ill-formed command still decodes and runs: it takes the IllegalCommand fault (R291) or reports the
status InvalidSize (R180), as the spec says. -/

namespace Sys2Proof

/-- MODE 3 is illegal (R38, R39). -/
def legalMode (cfg : BitVec 12) : Bool :=
  decide (cfg.extractLsb' 0 2 ≠ 3#2)

/-- The payload sizes L2C accepts (R9). -/
def legalSize (size : BitVec 12) : Bool :=
  decide (size.toNat ≤ Config.maxPayload)

/-- The operand values are legal ones. -/
def Instr.wellFormed : Instr → Bool
  | .nop => true
  | .cfgWrite _ cfg => legalMode cfg
  | .cfgRead _ => true
  | .hdlcSend _ _ _ => true
  | .preamble _ _ _ => true
  | .hdlcRx _ _ => true
  | .fcsCalc _ => true
  | .il2pPlan _ size => legalSize size
  | .il2pEnc _ size => legalSize size
  | .il2pDec _ size => legalSize size
  | .il2pCrcEnc => true
  | .il2pCrcDec => true
  | .il2pCrcCheck _ => true
  | .il2pSend _ _ => true
  | .l2Send _ _ _ => true

end Sys2Proof
end

