-- ==== Sys2Proof/Tests/Slice0.lean ====
section
/-! SUPPORT. Tests of one step each, with expected results from the rules and vectors of spec/ (95_test_vectors.md unless
another file is named), and a state that meets the hypotheses of each statement. -/

open Sys2Proof Sys2Proof.Machine

namespace Sys2Proof.Tests

/-! Helpers. -/

/-- The `n` bits of a number, the highest first: a bit string of the vectors. -/
def bits (n v : Nat) : List Bit := (List.range n).map fun i => v.testBit (n - 1 - i)

/-- A channel in its reset state with NRZI_INIT = 0. -/
def chan : Chan where
  cfg := 0
  stuffCnt := 0
  nrziLvl := false
  bitsSent := 0
  rxLvl := false
  rxOnes := 0
  rxSync := false
  rxAcc := []
  sink := []

/-- Two channels, the first as given, and IBUF starting with the given bytes. -/
def st (c : Chan) (bytes : List Byte) : State :=
  { State.reset with chans := [c, chan], ibuf := Memory.putBytes [] 0 bytes }

/-- The next state, if there is one. -/
def ran : Result → Option State
  | .next s => some s
  | .fault _ => none
  | .refused _ => none

/-- The four result registers after a command. -/
def results (r : Result) : Option (Word × Word × Word × Word) :=
  (ran r).map fun t => (t.status, t.value, t.aux, t.outLen)

/-- The bits of a channel's sink after a command. -/
def sent (k : Nat) (r : Result) : Option (List SinkItem) :=
  (ran r).bind fun t => (t.chan? k).map (·.sink)

/-- OBUF bytes after a command. -/
def obuf (n : Nat) (r : Result) : Option (List Byte) :=
  (ran r).map fun t => t.obufBytes 0 n

/-- The frame F1. -/
def f1 : List Byte := [0x96, 0x82, 0x64, 0x88, 0x8A, 0xAE, 0xE4, 0x96, 0x96, 0x68, 0x90, 0x8A, 0x94, 0x6F, 0x81]

/-- Instance T of L2.4 with the SYNC, HDR_ENC and FX25_SEND of L2.7. -/
def codecT : Codec where
  sync := [0xF1, 0x5E, 0x48]
  hdrEnc := fun s _ => if 2 ≤ s.length then none else some ([BitVec.ofNat 8 s.length], s)
  scramble := fun b => b
  descramble := fun b => b
  rsEnc := fun _ k => List.replicate k 0
  rsDec := fun cw k => if cw.drop (cw.length - k) = List.replicate k 0 then some (cw.take (cw.length - k), 0) else none
  fx25Send := fun _ _ _ s => (0, [], s)

/-! Decoding: words written out from the encodings of 30_encoding.md R109 and R113. -/

theorem test_decode_nop : decode 0x00000000 = .ok .nop := by decide
theorem test_decode_cfgWrite : decode 0b000000110110_000_0_00000101_00000010 = .ok (.cfgWrite 5 0x036) := by decide
theorem test_decode_cfgRead : decode 0b000000000000_000_0_11111111_00000011 = .ok (.cfgRead 255) := by decide
theorem test_decode_hdlcSend : decode 0b000000001111_000_1_00000010_00010000 = .ok (.hdlcSend 2 true 15) := by decide
theorem test_decode_preamble : decode 0b000000000001_000_1_00000000_00010001 = .ok (.preamble 0 true 1) := by decide
theorem test_decode_hdlcRx : decode 0b000000101001_000_0_00000001_00010010 = .ok (.hdlcRx 1 41) := by decide
theorem test_decode_fcsCalc : decode 0b000000001111_000_0_00000000_00010011 = .ok (.fcsCalc 15) := by decide
theorem test_decode_il2pPlan : decode 0b001111111111_000_1_00000000_00100000 = .ok (.il2pPlan true 1023) := by decide
theorem test_decode_il2pEnc : decode 0b010000000000_000_0_00000000_00100001 = .ok (.il2pEnc false 1024) := by decide
theorem test_decode_il2pDec : decode 0b011111010000_000_0_00000000_00100010 = .ok (.il2pDec false 2000) := by decide
theorem test_decode_il2pCrcEnc : decode 0x00000023 = .ok .il2pCrcEnc := by decide
theorem test_decode_il2pCrcDec : decode 0x00000024 = .ok .il2pCrcDec := by decide
theorem test_decode_il2pCrcCheck : decode 0b000000010000_000_0_00000000_00100101 = .ok (.il2pCrcCheck 16) := by decide
theorem test_decode_il2pSend : decode 0b000000000010_000_0_00000111_00100110 = .ok (.il2pSend 7 2) := by decide
theorem test_decode_l2Send : decode 0b000000000001_000_1_00000000_00110000 = .ok (.l2Send 0 true 1) := by decide

/-- L2.8: the reserved OP 0x01, RSV = 4, F = 1 on FCS_CALC, CH = 2 on IL2P_CRC_DEC. -/
theorem test_decode_rejects :
    decode 0x00000001 = .error .reservedOpcode ∧ decode 0x00080010 = .error .reservedBits
      ∧ decode 0x00010013 = .error .requiredZeroField ∧ decode 0x00000224 = .error .requiredZeroField := by decide

/-- The match and mask columns of the opcode map (R109). -/
theorem test_opcode_map :
    opcodeMap.map (fun r => (r.mnemonic, r.pattern, r.mask)) =
      [("NOP", 0x00000000, 0xFFFFFFFF), ("CFG_WRITE", 0x00000002, 0x000F00FF), ("CFG_READ", 0x00000003, 0xFFFF00FF),
       ("HDLC_SEND", 0x00000010, 0x000E00FF), ("PREAMBLE", 0x00000011, 0x000E00FF), ("HDLC_RX", 0x00000012, 0x000F00FF),
       ("FCS_CALC", 0x00000013, 0x000FFFFF), ("IL2P_PLAN", 0x00000020, 0x000EFFFF), ("IL2P_ENC", 0x00000021, 0x000EFFFF),
       ("IL2P_DEC", 0x00000022, 0x000EFFFF), ("IL2P_CRC_ENC", 0x00000023, 0xFFFFFFFF),
       ("IL2P_CRC_DEC", 0x00000024, 0xFFFFFFFF), ("IL2P_CRC_CHECK", 0x00000025, 0x000FFFFF),
       ("IL2P_SEND", 0x00000026, 0x000F00FF), ("L2_SEND", 0x00000030, 0x000E00FF)] := by decide

/-- The host's entry points: the decoder on a table word, and the first step after reset (L2.8, row 1). -/
theorem test_table_word : decodeTableWord 32 0x00F00013 = some (.fcsCalc 15) ∧ decodeTableWord 32 0x00010013 = none := by
  decide
theorem test_fetch_word : step (State.reset.withFetchWord 32 0x00000000) = exec .nop State.reset := by rfl

/-! Well-formedness: MODE 3 and sizes above 1023 are refused. -/

theorem test_wf_mode : Instr.wellFormed (.cfgWrite 0 0x003) = false ∧ Instr.wellFormed (.cfgWrite 0 0x036) = true := by decide
theorem test_wf_plan : Instr.wellFormed (.il2pPlan true 1024) = false ∧ Instr.wellFormed (.il2pPlan true 1023) = true := by
  decide
theorem test_wf_enc : Instr.wellFormed (.il2pEnc false 1024) = false ∧ Instr.wellFormed (.il2pEnc false 0) = true := by decide
theorem test_wf_dec : Instr.wellFormed (.il2pDec false 4095) = false ∧ Instr.wellFormed (.il2pDec true 5) = true := by decide

/-! System commands (L2.8). -/

theorem test_nop_clears : results (exec .nop { st chan [] with value := 0x906E, outLen := 3 }) = some (0, 0, 0, 0) := by decide

theorem test_cfgWrite_stores :
    (ran (exec (.cfgWrite 0 0x036) (st chan []))).map (fun t => (t.value, (t.chan? 0).map (·.cfg))) = some (0x36, some 0x036) := by
  decide

theorem test_cfgWrite_mode3_faults :
    (ran (exec (.cfgWrite 0 0x003) (st chan []))).map (fun t => (t.fault, (t.chan? 0).map (·.cfg)))
      = some (⟨true, 1, 0x00300002⟩, some 0x000) := by decide

theorem test_cfgRead_stored : results (exec (.cfgRead 0) (st { chan with cfg := 0x016 } [])) = some (0, 0x016, 0, 0) := by decide

/-- A word that decodes to nothing faults; a channel that does not exist faults (L2.8, NCH = 2). -/
theorem test_illegal_command :
    (ran (runCommand 0x00000224 (st chan []))).map (·.fault) = some ⟨true, 1, 0x00000224⟩ := by decide
theorem test_invalid_channel :
    (ran (runCommand 0x00100210 (st chan [0xFF]))).map (fun t => (t.fault, t.chans)) = some (⟨true, 2, 0x00100210⟩, [chan, chan]) := by
  decide

/-! HDLC transmit (L2.1, L2.2). -/

theorem test_fcsCalc_ab : results (exec (.fcsCalc 2) (st chan [0x41, 0x42])) = some (0, 0x31EF, 0, 0) := by decide +kernel

theorem test_fcsCalc_empty : results (exec (.fcsCalc 0) (st chan [])) = some (0, 0x0000, 0, 0) := by decide

/-- Frame FF: a stuffed bit in the data and one in the FCS. -/
theorem test_hdlcSend_ff :
    (fun r => (results r, sent 0 r)) (exec (.hdlcSend 0 false 1) (st chan [0xFF]))
      = (some (42, 0xFF00, 0, 0), some ((bits 42 0b111111100000011110101010111111000011111110).map .bit)) := by
  decide +kernel

/-- Frame 7E with a bad FCS, from level 1. -/
theorem test_hdlcSend_badFcs :
    (ran (exec (.hdlcSend 0 true 1) (st { chan with nrziLvl := true, stuffCnt := 4 } [0x7E]))).map
        (fun t => (t.status, t.value, (t.chan? 0).map fun c => (c.sink, c.nrziLvl)))
      = some (42, 0x957E, some ((bits 42 0b000000010000001101111110011001101100000001).map .bit, true)) := by
  decide +kernel

/-- R132: FF leaves STUFF_CNT 3 after nine bits; 1F then F8 takes 18 bits and leaves 0. -/
theorem test_sendData_stuffing :
    ((chan.sendData 0xFF).bitsSent, (chan.sendData 0xFF).stuffCnt) = (9, 3)
      ∧ ((chan.sendDataBytes [0x1F, 0xF8]).bitsSent, (chan.sendDataBytes [0x1F, 0xF8]).stuffCnt) = (18, 0) := by decide +kernel

theorem test_preamble_flag :
    sent 0 (exec (.preamble 0 false 1) (st { chan with nrziLvl := true } [])) = some ((bits 8 0b00000001).map .bit) := by
  decide +kernel

theorem test_preamble_il2p :
    sent 0 (exec (.preamble 0 true 1) (st { chan with cfg := 0x02A } [])) = some ((bits 8 0b10101010).map .bit ++ [.flush]) := by
  decide +kernel

/-! HDLC receive (L2.6). -/

/-- The levels of frame 7E, one per IBUF byte. -/
def levels7e : List Byte :=
  (bits 41 0b11111110111111001101010110011000100000001).map fun b => if b then 0x01 else 0xFE

theorem test_hdlcRx_delivers :
    (ran (exec (.hdlcRx 1 41) (st chan levels7e))).map (fun t => (t.status, t.outLen, t.obufBytes 0 3))
      = some (1, 3, [0x01, 0x00, 0x7E]) := by decide +kernel

/-- The wrong starting level: the start flag reads as an abort. -/
theorem test_hdlcRx_wrong_level :
    (ran (exec (.hdlcRx 0 41) (st { chan with rxLvl := true } levels7e))).map (fun t => (t.status, t.outLen)) = some (0, 0) := by
  decide +kernel

/-! IL2P planner and payload (L2.3, L2.4). -/

theorem test_il2pPlan_247 :
    (fun r => (results r, obuf 16 r)) (exec (.il2pPlan false 247) (st chan []))
      = (some (0, 255, 2, 16),
          some [0xF7, 0, 2, 0, 0x7B, 0, 0x7C, 0, 1, 0, 1, 0, 4, 0, 0xFF, 0]) := by decide +kernel

theorem test_il2pPlan_1024 :
    (ran (exec (.il2pPlan false 1024) (st chan []))).map (fun t => (t.status, t.outLen, t.obuf)) = some (0xFFFFFFFF, 0, []) := by
  decide

theorem test_plan_maxfec_1023 :
    plan 1023 true = .ok ⟨1023, 5, 204, 205, 3, 2, 16, 1103⟩ ∧ plan 186 false = .ok ⟨186, 1, 186, 187, 0, 1, 8, 194⟩ := by decide

theorem test_il2pEnc_0 : results (exec (.il2pEnc false 0) (st chan [])) = some (0, 0, 0, 0) := by decide

theorem test_il2pEnc_1024 : results (exec (.il2pEnc false 1024) (st chan [])) = some (0xFFFFFFFF, 0, 0, 0) := by decide

theorem test_il2pDec_0 : results (exec (.il2pDec true 0) (st chan [])) = some (0, 0, 0, 0) := by decide

theorem test_il2pDec_2000 : results (exec (.il2pDec false 2000) (st chan [])) = some (0xFFFFFFFF, 0, 0, 0) := by decide

/-- The large block comes first: 247 bytes, the first 124 of them 1. -/
theorem test_encPayload_order :
    encPayload codecT (List.replicate 124 1 ++ List.replicate 123 2) false
      = .ok (List.replicate 124 1 ++ [0, 0, 0, 0] ++ List.replicate 123 2 ++ [0, 0, 0, 0]) := by decide +kernel

theorem test_decPayload :
    decPayload codecT (fun _ => 0) [1, 2, 3, 0, 0] 3 false = .ok ([1, 2, 3], 0)
      ∧ decPayload codecT (fun _ => 0) [1, 2, 3, 0, 7] 3 false = .error .uncorrectable := by decide

/-! IL2P trailing CRC (L2.5, R231). -/

theorem test_hamDec_table :
    (List.range 128).map (fun b => (hamDec (BitVec.ofNat 8 b)).toNat) =
      [0x0, 0x0, 0x0, 0x3, 0x0, 0x5, 0xE, 0x7, 0x0, 0x9, 0xE, 0xB, 0xE, 0xD, 0xE, 0xE,
       0x0, 0x3, 0x3, 0x3, 0x4, 0xD, 0x6, 0x3, 0x8, 0xD, 0xA, 0x3, 0xD, 0xD, 0xE, 0xD,
       0x0, 0x5, 0x2, 0xB, 0x5, 0x5, 0x6, 0x5, 0x8, 0xB, 0xB, 0xB, 0xC, 0x5, 0xE, 0xB,
       0x8, 0x1, 0x6, 0x3, 0x6, 0x5, 0x6, 0x6, 0x8, 0x8, 0x8, 0xB, 0x8, 0xD, 0x6, 0xF]
      ++ [0x0, 0x9, 0x2, 0x7, 0x4, 0x7, 0x7, 0x7, 0x9, 0x9, 0xA, 0x9, 0xC, 0x9, 0xE, 0x7,
       0x4, 0x1, 0xA, 0x3, 0x4, 0x4, 0x4, 0x7, 0xA, 0x9, 0xA, 0xA, 0x4, 0xD, 0xA, 0xF,
       0x2, 0x1, 0x2, 0x2, 0xC, 0x5, 0x2, 0x7, 0xC, 0x9, 0x2, 0xB, 0xC, 0xC, 0xC, 0xF,
       0x1, 0x1, 0x2, 0x1, 0x4, 0x1, 0x6, 0xF, 0x8, 0x1, 0xA, 0xF, 0xC, 0xF, 0xF, 0xF] := by decide +kernel

theorem test_il2pCrcEnc :
    (fun r => (results r, obuf 4 r)) (exec .il2pCrcEnc (st chan [0xDB, 0xF0]))
      = (some (0, 0xF0DB, 0, 4), some [0x7F, 0x00, 0x1D, 0x2B]) := by decide

theorem test_il2pCrcDec_corrects : results (exec .il2pCrcDec (st chan [0x47, 0x6C, 0x54, 0xD4])) = some (0, 0x7C44, 0, 0) := by
  decide

theorem test_il2pCrcDec_wrong : results (exec .il2pCrcDec (st chan [0x7F, 0x00, 0x1D, 0x2C])) = some (0, 0xF0DC, 0, 0) := by
  decide

theorem test_il2pCrcCheck_match :
    results (exec (.il2pCrcCheck 15) (st chan (f1 ++ [0x7F, 0x00, 0x1D, 0x2B]))) = some (0, 1, 0, 0) := by decide +kernel

theorem test_il2pCrcCheck_mismatch :
    results (exec (.il2pCrcCheck 15) (st chan (f1 ++ [0x7F, 0x00, 0x1D, 0x2C]))) = some (0, 0, 0, 0) := by decide +kernel

/-! IL2P transmit and the dispatcher (L2.7). -/

/-- The IL2P frame of 41 with and without the CRC, and the refusal of a frame of two bytes. -/
theorem test_il2pFrame :
    il2pFrame codecT [0x41] (effCfg 0x032) = .ok [0xF1, 0x5E, 0x48, 0x01, 0x41, 0x00, 0x00, 0x5A, 0x13, 0x7F, 0x25]
      ∧ il2pFrame codecT [0x41] (effCfg 0x022) = .ok [0xF1, 0x5E, 0x48, 0x01, 0x41, 0x00, 0x00]
      ∧ il2pFrame codecT [0x41, 0x42] (effCfg 0x032) = .error .encodeFailure := by decide +kernel

/-- The 88 bits of that frame, inverted. -/
theorem test_il2pTx_inverted :
    (fun c => (c.sink, c.bitsSent, c.nrziLvl)) (chan.il2pTx [0xF1, 0x5E, 0x48, 0x01, 0x41, 0, 0, 0x5A, 0x13, 0x7F, 0x25] true)
      = ((bits 88 0b0000111010100001101101111111111010111110111111111111111110100101111011001000000011011010).map .bit, 88, false) := by
  decide +kernel

theorem test_il2pSend_invalid_channel :
    (ran (exec (.il2pSend 2 1) (st chan []))).map (·.fault) = some ⟨true, 2, 0x00100226⟩ := by decide

theorem test_l2Send_hdlc :
    (fun r => (results r, sent 0 r)) (exec (.l2Send 0 false 1) (st chan [0xFF]))
      = (some (42, 0xFF00, 0, 0), some ((bits 42 0b111111100000011110101010111111000011111110).map .bit)) := by decide +kernel

/-- The choice of path: IL2P, IL2P refused, FX.25 failed. -/
theorem test_layer2Path :
    layer2Path codecT 0 [0x41] { chan with cfg := 0x022 } = .il2p [0xF1, 0x5E, 0x48, 0x01, 0x41, 0x00, 0x00]
      ∧ layer2Path codecT 0 [0x41, 0x42] { chan with cfg := 0x032 } = .hdlc
      ∧ layer2Path codecT 0 [0x41] { chan with cfg := 0x021 } = .hdlc := by decide +kernel

/-! The host's actions (L3 P5, R340, R114). -/

theorem test_faulted_ignores :
    ran (step { st chan [] with fault := ⟨true, 1, 1⟩, host := [.cmd 0x00300020] }) = some { st chan [] with fault := ⟨true, 1, 1⟩ } := by
  rfl

theorem test_reset_clears :
    (ran (step { st { chan with cfg := 0x036 } [1] with fault := ⟨true, 1, 1⟩, status := 7, host := [.reset] })).map
        (fun t => (t.fault, t.status, t.ibuf, t.chans.map (·.cfg))) = some (⟨false, 0, 0⟩, 0, [], [0, 0]) := by decide

theorem test_load :
    (ran (step { st chan [1, 2] with host := [.load 8191 [7]] })).map (fun t => t.ibufBytes 8191 1) = some [7]
      ∧ step { st chan [] with host := [.load 8191 [7, 8]] } = .fault .outsideBuffer := by
  constructor <;> rfl

/-! A state and operands that meet the hypotheses of each statement that has some (one theorem for each; where a statement
has several clauses, one conjunct for each). -/

theorem hyp_EncodeInvertsDecode : decode 0x03600002 = .ok (.cfgWrite 0 0x036) := by decide

theorem hyp_AtMostOneRowMatches :
    ∃ r ∈ opcodeMap, r.accepts 0x03600002 = true := by decide

/-- One word for each way of being malformed. -/
theorem hyp_MalformedWordsAreIllegal :
    ({ st chan [] with host := [.cmd 0x31] } : State).host = .cmd 0x31 :: [] ∧ (st chan []).fault.faulted = false
      ∧ Malformed 0x00000031 ∧ Malformed 0x00020010 ∧ Malformed 0x00000113 ∧ Malformed 0x00010002 ∧ Malformed 0x00100003 := by
  unfold Malformed
  exact ⟨rfl, rfl, .inl (by decide), .inr (.inl (by decide)), .inr (.inr (.inl (by decide))),
    .inr (.inr (.inr (.inl (by decide)))), .inr (.inr (.inr (.inr (by decide))))⟩

theorem hyp_StepRunsDecodedCommand :
    ({ st chan [] with host := [.cmd 0] } : State).host = .cmd 0 :: [] ∧ (st chan []).fault.faulted = false
      ∧ decode 0 = .ok .nop := ⟨rfl, rfl, by decide⟩

theorem hyp_IdleHoldsState : (st chan []).host = [] := rfl

theorem hyp_FaultsArePrecise :
    ∃ t, step { st chan [] with host := [.cmd 0x00300002] } = .next t ∧ t.fault.faulted = true := ⟨_, rfl, rfl⟩

/-- Command words, an action that is no RESET, and a RESET. -/
theorem hyp_FaultedBlockIsStuckUntilReset :
    (∀ acts, ({ st chan [] with fault := ⟨true, 1, 1⟩, host := acts } : State).fault.faulted = true)
      ∧ ([.cmd 0, .cmd 1, .reset] : List HostAction) = ([0, 1] : List Word).map .cmd ++ [.reset]
      ∧ (∃ t, step { st chan [] with fault := ⟨true, 1, 1⟩, host := [.load 0 [1]] } = .next t)
      ∧ ∃ t, step { st chan [] with fault := ⟨true, 1, 1⟩, host := [.reset] } = .next t :=
  ⟨fun _ => rfl, rfl, ⟨_, rfl⟩, ⟨_, rfl⟩⟩

/-- The lowest and the highest channel that does not exist. -/
theorem hyp_InvalidChannelIsRaised :
    (Instr.cfgRead 2).channel? = some 2 ∧ (st chan []).nch ≤ (2 : BitVec 8).toNat
      ∧ (Instr.l2Send 255 true 0).channel? = some 255 ∧ (st chan []).nch ≤ (255 : BitVec 8).toNat := by decide

theorem hyp_ResetStateValues : State.reset.chan? 0 = some Chan.reset := rfl

theorem hyp_ResetRestoresEveryRegister : ({ st chan [] with host := [.reset] } : State).host = .reset :: [] := rfl

/-- The last byte of IBUF, no byte at all beyond it, and the first address that does not exist. -/
theorem hyp_LoadWritesIbufOnly :
    (8191 + ([7] : List Byte).length ≤ 8192) ∧ ([] : List Byte) = []
      ∧ ([7] : List Byte) ≠ [] ∧ 8192 < 8192 + ([7] : List Byte).length := by decide

theorem hyp_EffectiveConfiguration :
    (0x020 : BitVec 12).toNat / 32 % 2 = 1 ∧ (0xFDF : BitVec 12).toNat / 32 % 2 = 0 := by decide

theorem hyp_NopClearsResults :
    opField 0x00000100 = 0 ∧ (0x00000100 : Word) ≠ 0
      ∧ ({ st chan [] with host := [.cmd 0x100] } : State).host = .cmd 0x100 :: []
      ∧ ({ st chan [] with host := [.cmd 0] } : State).host = .cmd 0 :: [] := by decide

/-- A legal value, MODE 3, and a channel that does not exist. -/
theorem hyp_CfgWriteStoresOrFaults :
    (st chan []).chan? 1 = some chan ∧ (0xFFE : BitVec 12).toNat % 4 ≠ 3 ∧ (0x003 : BitVec 12).toNat % 4 = 3
      ∧ (st chan []).chan? 2 = none := by decide

theorem hyp_CfgReadReportsStored : (st chan []).chan? (0 : BitVec 8).toNat = some chan := by decide

/-- The same channel and another one. -/
theorem hyp_CfgReadAfterWrite :
    (st chan []).chan? 0 = some chan ∧ (0 : BitVec 8).toNat < (st chan []).nch ∧ (0x036 : BitVec 12).toNat % 4 ≠ 3
      ∧ ∃ t u v, exec (.cfgWrite 0 0x036) (st chan []) = .next t ∧ exec (.cfgRead 0) t = .next u ∧ exec (.cfgRead 1) t = .next v :=
  ⟨rfl, by decide, by decide, _, _, _, rfl, rfl, rfl⟩

/-- For the statements about HDLC_SEND and the other commands on an existing channel. -/
theorem hyp_HdlcSendSendsFrame : (st chan [0xFF]).chan? (0 : BitVec 8).toNat = some chan := rfl

theorem hyp_HdlcSendBitCount :
    ∃ t c', exec (.hdlcSend 0 false 4095) (st chan []) = .next t ∧ t.chan? 0 = some c' := ⟨_, _, rfl, rfl⟩

theorem hyp_NoFlagInsideFrame :
    ∃ t c', exec (.hdlcSend 0 true 0) (st chan []) = .next t ∧ t.chan? 0 = some c' := ⟨_, _, rfl, rfl⟩

/-- Equal and different starting levels. -/
theorem hyp_LevelsDependOnFrameAndLevel :
    (st chan [0xFF]).ibufBytes 0 1 = (st { chan with nrziLvl := true } [0xFF]).ibufBytes 0 1
      ∧ (∃ t c', exec (.hdlcSend 1 false 1) (st chan [0xFF]) = .next t ∧ t.chan? 1 = some c')
      ∧ (∃ t c', exec (.hdlcSend 0 false 1) (st { chan with nrziLvl := true } [0xFF]) = .next t ∧ t.chan? 0 = some c')
      ∧ chan.nrziLvl ≠ ({ chan with nrziLvl := true } : Chan).nrziLvl :=
  ⟨by decide, ⟨_, _, rfl, rfl⟩, ⟨_, _, rfl, rfl⟩, by decide⟩

theorem hyp_PreambleSendsFlags : (st chan []).chan? 0 = some chan ∧ (effCfg chan.cfg).mode ≠ 2 := by decide

theorem hyp_PreambleSendsIl2pFiller :
    (st { chan with cfg := 0x02A } []).chan? 0 = some { chan with cfg := 0x02A } ∧ (effCfg 0x02A).mode = 2 := by decide

theorem hyp_HdlcRxWritesRecords :
    (st chan levels7e).chan? 1 = some chan ∧ chan.rxAcc.length ≤ 8 * Config.rxMaxBytes + 6
      ∧ ∃ pre level post, ((st chan levels7e).ibufBytes 0 1).map (fun b => b.getLsbD 0) = pre ++ level :: post :=
  ⟨by decide, by decide, [], true, [], by decide⟩

/-- A channel in the middle of receiving. -/
def receiving (ones : BitVec 3) (sync : Bool) (acc : List Bit) : Chan :=
  { chan with rxOnes := ones, rxSync := sync, rxAcc := acc }

/-- The accumulated bits of frame 7E (FCS 0x6A81, R134) at its closing flag. -/
def acc7e : List Bit := [0x7E, 0x81, 0x6A].flatMap lsbFirst ++ [false, true, true, true, true, true]

/-- A frame for `AccHolds`, and none when one bit of its FCS differs or when there is no body. -/
theorem hyp_AccHolds :
    AccHolds acc7e [0x7E] ∧ ¬AccHolds ([0x7E, 0x81, 0x6B].flatMap lsbFirst ++ [false, true, true, true, true, true]) [0x7E]
      ∧ ¬AccHolds ([0x00, 0x00].flatMap lsbFirst ++ [false, true, true, true, true, true]) [] := by
  unfold AccHolds
  decide +kernel

/-- The premises of each clause of `RxTransition`, at their boundary values: a flag that closes a frame, an abort at the
seventh 1 and beyond, the bits after five 1s, and data after at most four 1s or after an abort, the last bit that fits and the
first that does not, with and without a flag seen. -/
theorem hyp_RxTransition :
    ((receiving 6 true acc7e).rxLvl ≠ true ∧ (receiving 6 true acc7e).rxOnes = 6 ∧ (receiving 6 true acc7e).rxSync = true)
      ∧ ((receiving 6 true []).rxLvl = false ∧ 6 ≤ (receiving 6 true []).rxOnes.toNat
          ∧ 6 ≤ (receiving 7 false []).rxOnes.toNat)
      ∧ (receiving 5 true []).rxOnes = 5
      ∧ ((receiving 4 true []).rxOnes.toNat < 5 ∧ (receiving 7 false []).rxOnes = 7 ∧ (receiving 7 false []).rxLvl ≠ true)
      ∧ ((receiving 0 true (List.replicate 16389 true)).rxAcc.length < 16390
          ∧ ¬(receiving 0 true (List.replicate 16390 true)).rxAcc.length < 16390
          ∧ (receiving 0 true (List.replicate 16390 true)).rxAcc.length ≤ 8 * Config.rxMaxBytes + 6
          ∧ (receiving 0 false []).rxSync = false) := by
  decide +kernel

theorem hyp_HdlcRxInPieces :
    (1 : BitVec 8).toNat < (st chan levels7e).nch ∧ (3 : BitVec 12).toNat = (1 : BitVec 12).toNat + (2 : BitVec 12).toNat
      ∧ ∃ s₁ s₂ t, exec (.hdlcRx 1 1) (st chan levels7e) = .next s₁
        ∧ (({ s₁ with ibuf := Memory.putBytes [] 0 (levels7e.drop 1) } : State)).ibufBytes 0 2
            = (st chan levels7e).ibufBytes 1 2
        ∧ exec (.hdlcRx 1 2) { s₁ with ibuf := Memory.putBytes [] 0 (levels7e.drop 1) } = .next s₂
        ∧ exec (.hdlcRx 1 3) (st chan levels7e) = .next t :=
  ⟨by decide, by decide, _, _, _, rfl, by decide, rfl, rfl⟩

/-- The shortest and the longest frame; an idle receiver at the sender's level and one at the other, with and without a
flag before the frame. -/
theorem hyp_HdlcLoopbackDeliversFrame :
    (1 ≤ (1 : BitVec 12).toNat ∧ (2046 : BitVec 12).toNat + 2 ≤ Config.rxMaxBytes)
      ∧ (st chan []).chan? 0 = some chan ∧ (effCfg chan.cfg).mode = 0
      ∧ (∃ t u c', exec (.preamble 0 false 0) (st chan []) = .next t ∧ exec (.hdlcSend 0 false 2046) t = .next u
          ∧ u.chan? 0 = some c')
      ∧ (∃ t u c', exec (.preamble 0 false 1) (st chan []) = .next t ∧ exec (.hdlcSend 0 true 1) t = .next u
          ∧ u.chan? 0 = some c')
      ∧ chan.rxIdle ∧ ({ chan with rxLvl := true } : Chan).rxIdle ∧ chan.rxLvl = chan.nrziLvl
      ∧ ({ chan with rxLvl := true } : Chan).rxLvl ≠ chan.nrziLvl ∧ 1 ≤ (1 : BitVec 12).toNat ∧ (0 : BitVec 12).toNat = 0 :=
  ⟨by decide, rfl, by decide, ⟨_, _, _, rfl, rfl, rfl⟩, ⟨_, _, _, rfl, rfl, rfl⟩, ⟨rfl, rfl, rfl⟩, ⟨rfl, rfl, rfl⟩, rfl,
    by decide, by decide, rfl⟩

/-- The empty and the largest payload, and both sides of every threshold: sizes 61/62, 123/124, 185/186 and 246/247 in
automatic mode and 238/239 in maximum-FEC mode, with block count, small block size and parity (L2.3). -/
theorem hyp_PlanIsSoundForLegalSizes :
    ([0, 1, 61, 62, 123, 124, 185, 186, 246, 247, 1023].map fun n =>
        (plan n false).toOption.map fun p => (p.blockCount, p.smallBlockSize, p.paritySymbols))
      = [some (0, 0, 2), some (1, 1, 2), some (1, 61, 2), some (1, 62, 4), some (1, 123, 4), some (1, 124, 6), some (1, 185, 6),
         some (1, 186, 8), some (1, 246, 8), some (2, 123, 4), some (5, 204, 8)]
    ∧ ([0, 1, 238, 239, 1023].map fun n =>
        (plan n true).toOption.map fun p => (p.blockCount, p.smallBlockSize, p.paritySymbols))
      = [some (0, 0, 16), some (1, 1, 16), some (1, 238, 16), some (2, 119, 16), some (5, 204, 16)] := by decide

theorem hyp_EncodingHasPlannedLength :
    ([] : List Byte).length ≤ 1023 ∧ (List.replicate 1023 (0 : Byte)).length ≤ 1023 :=
  ⟨by decide, List.length_replicate.le⟩

theorem hyp_PayloadRoundTrip :
    ([] : List Byte).length ≤ 1023 ∧ (List.replicate 1023 (0 : Byte)).length ≤ 1023 :=
  ⟨by decide, List.length_replicate.le⟩

/-- The largest legal size and the smallest illegal one, for IL2P_PLAN, IL2P_ENC and IL2P_DEC. -/
theorem hyp_Il2pPlanWritesRecord : (1023 : BitVec 12).toNat ≤ 1023 ∧ 1023 < (1024 : BitVec 12).toNat := by decide

theorem hyp_Il2pEncWritesEncoding : (1023 : BitVec 12).toNat ≤ 1023 ∧ 1023 < (1024 : BitVec 12).toNat := by decide

theorem hyp_Il2pDecRecoversOrReports : (0 : BitVec 12).toNat ≤ 1023 ∧ 1023 < (4095 : BitVec 12).toNat := by decide

theorem hyp_DecodeFailsIffABlockFails : ∃ p, plan 3 false = .ok p := ⟨_, rfl⟩

theorem hyp_EncodedBlocksInOrder :
    ∃ p out, plan ([5] : List Byte).length false = .ok p ∧ encPayload Codec.machine [5] false = .ok out ∧ 0 < p.blocks.length :=
  ⟨_, _, rfl, rfl, by decide⟩

/-- The received bytes are an unaltered encoding of one block of one byte. -/
theorem hyp_DecodeJoinsCorrectedBlocks :
    ∃ p, plan 1 false = .ok p ∧ (encodeBlock Codec.machine 2 [5]).length = p.encodedLength
      ∧ ([(Codec.machine.scramble [5], 0)] : List (List Byte × Nat)).length = p.blocks.length
      ∧ ∀ (j : Nat) (h : j < p.blocks.length),
        Codec.machine.rsDec
          (((encodeBlock Codec.machine 2 [5]).drop (((p.blocks.take j).map fun b => b.2 + p.paritySymbols).sum)).take
            (p.blocks[j].2 + p.paritySymbols)) p.paritySymbols
          = ([(Codec.machine.scramble [5], 0)] : List (List Byte × Nat))[j]? := by
  refine ⟨blockPlan 1 1 2, rfl, by simp [encodeBlock, blockPlan], rfl, ?_⟩
  intro j h
  have hj : j = 0 := Nat.lt_one_iff.mp h
  subst hj
  have hl := Codec.machine_rsDec_rsEnc (Codec.machine.scramble [5]) 2 (by simp) (by simp) (by simp)
  have ht : (encodeBlock Codec.machine 2 [5]).length = 3 := by simp [encodeBlock]
  have hp : (encodeBlock Codec.machine 2 [5]).take (1 + 2) = encodeBlock Codec.machine 2 [5] :=
    List.take_of_length_le (by omega)
  exact (congrArg (fun cw => Codec.machine.rsDec cw 2) hp).trans hl

/-- A state whose IBUF holds the encoding of the one-byte payload 05. -/
theorem hyp_Il2pDecOfEncodingSucceeds :
    (1 : BitVec 12).toNat ≤ 1023 ∧ ([5] : List Byte).length = (1 : BitVec 12).toNat
      ∧ ∃ out, encPayload Codec.machine [5] false = .ok out ∧ (st chan out).ibufBytes 0 out.length = out := by
  refine ⟨by decide, by decide, _, rfl, ?_⟩
  apply List.ext_getElem
  · simp
  · intro i h1 h2
    simp [State.ibufBytes, State.ibufByte, st, Memory.get?_putBytes] at h1 ⊢
    simp [h1]

theorem hyp_CrcSurvivesOneFlippedBit :
    3 < 4 ∧ 7 < 8 ∧ crcCheck [] [0, 0, 0, 0] ≠ crcCheck [] [0, 0, 0, 0x71] := by decide

theorem hyp_Il2pSendSendsFrameOrRefuses : (st chan [0x41]).chan? (0 : BitVec 8).toNat = some chan := rfl

theorem hyp_L2SendHdlcModeIsHdlcSend :
    (st chan [0x41]).chan? 0 = some chan ∧ (effCfg chan.cfg).mode ≠ 1 ∧ (effCfg chan.cfg).mode ≠ 2 := by decide

theorem hyp_L2SendIl2pModeFallsBack :
    (st { chan with cfg := 0x032 } [0x41]).chan? 0 = some { chan with cfg := 0x032 } ∧ (effCfg 0x032).mode = 2 := by decide

theorem hyp_L2SendFx25ModeFallsBack :
    (st { chan with cfg := 0x021 } [0x41]).chan? 0 = some { chan with cfg := 0x021 } ∧ (effCfg 0x021).mode = 1
      ∧ ∃ r bits st', Codec.machine.fx25Send 0 [0x41] (effCfg 0x021).fx25 (0, false) = (r, bits, st') :=
  ⟨by decide, by decide, _, _, _, rfl⟩

theorem hyp_OtherChannelsUntouched :
    (∃ t, exec (.hdlcSend 0 false 1) (st chan [1]) = .next t)
      ∧ ∀ ch, (Instr.hdlcSend 0 false 1).channel? = some ch → ch.toNat ≠ 1 :=
  ⟨⟨_, rfl⟩, by rintro ch h; cases h; decide⟩

theorem hyp_CommandsNeverWriteIbuf : ∃ t, exec .il2pCrcEnc (st chan [0xDB, 0xF0]) = .next t := ⟨_, rfl⟩

/-- The first byte beyond OUT_LEN, and for a failing IL2P_DEC size the first beyond its size. -/
theorem hyp_ObufKeptBeyondOutLen :
    (∃ t, exec .il2pCrcEnc (st chan [0xDB, 0xF0]) = .next t ∧ t.outLen.toNat ≤ 4
        ∧ ∀ m size, Instr.il2pCrcEnc = .il2pDec m size → size.toNat ≤ 4)
      ∧ ∃ t, exec (.il2pDec false 1024) (st chan []) = .next t ∧ t.outLen.toNat ≤ 1024
        ∧ ∀ m size, Instr.il2pDec false 1024 = .il2pDec m size → size.toNat ≤ 1024 := by
  refine ⟨⟨_, rfl, by decide, ?_⟩, ⟨_, rfl, by decide, ?_⟩⟩
  · intro m size h; cases h
  · intro m size h; cases h; decide

theorem hyp_SinksOnlyGrow :
    (∃ t, exec (.preamble 0 true 1) (st chan []) = .next t) ∧ (st chan []).chan? 0 = some chan := ⟨⟨_, rfl⟩, rfl⟩

/-- A command that meets the premises of all three clauses. -/
theorem hyp_OnlyOwnersWriteChannelState :
    (∃ t, exec (.preamble 0 false 1) (st { chan with cfg := 0x022 } []) = .next t ∧ ∃ c', t.chan? 0 = some c')
      ∧ (effCfg ({ chan with cfg := 0x022 } : Chan).cfg).mode = 2
      ∧ (∀ ch f n, Instr.preamble 0 false 1 = .hdlcSend ch f n → ch.toNat ≠ 0)
      ∧ (∀ ch f n, Instr.preamble 0 false 1 = .l2Send ch f n → ch.toNat ≠ 0)
      ∧ (∀ ch n, Instr.preamble 0 false 1 = .hdlcRx ch n → ch.toNat ≠ 0)
      ∧ ∀ ch v, Instr.preamble 0 false 1 = .cfgWrite ch v → ch.toNat ≠ 0 := by
  refine ⟨⟨_, rfl, _, rfl⟩, by decide, ?_, ?_, ?_, ?_⟩ <;> intros <;> contradiction

theorem hyp_CommandsOnDifferentChannelsCommute :
    (0 : BitVec 8) ≠ 1
      ∧ ∃ s₁ s₂ t₁ t₂, exec (.hdlcSend 0 false 1) (st chan [1]) = .next s₁ ∧ exec (.cfgWrite 1 0x036) s₁ = .next s₂
        ∧ exec (.cfgWrite 1 0x036) (st chan [1]) = .next t₁ ∧ exec (.hdlcSend 0 false 1) t₁ = .next t₂ :=
  ⟨by decide, _, _, _, _, rfl, rfl, rfl, rfl⟩

/-- A sound state with a command word to come. -/
theorem soundState : ({ State.reset with host := [.cmd 0] } : State).Sound where
  channels := List.length_replicate
  each := by
    intro c hc
    rw [List.eq_of_mem_replicate hc]
    exact ⟨by decide, by decide, by simp [Chan.reset], fun _ => rfl⟩
  ibuf := Memory.wf_nil
  obuf := Memory.wf_nil
  outLen := by decide
  noFault := fun _ => rfl
  cause := by intro h; cases h

theorem hyp_EveryStepKeepsSoundness :
    ({ State.reset with host := [.cmd 0] } : State).Sound ∧ ∃ t, step { State.reset with host := [.cmd 0] } = .next t :=
  ⟨soundState, _, rfl⟩

/-- A command word, and a LOAD of the last byte of IBUF. -/
theorem hyp_SoundStatesNeverStop :
    ({ State.reset with host := [.cmd 0] } : State).Sound ∧ ({ State.reset with host := [.cmd 0] } : State).nextActionFits
      ∧ ({ State.reset with host := [.load 8191 [7]] } : State).nextActionFits := by
  refine ⟨soundState, ?_, ?_⟩
  · intro a bytes h; cases h
  · intro a bytes h; cases h; decide

end Sys2Proof.Tests
end

section
/-! SUPPORT. The block planner: its arithmetic, and that it succeeds on every legal size. Settles O30. -/

namespace Sys2Proof.Machine

/-! Arithmetic of the block count (R18, R181, R182). -/

/-- Enough blocks of `d` bytes hold the payload. -/
theorem le_mul_ceilDiv (n : Nat) {d : Nat} (hd : 0 < d) : n ≤ d * ceilDiv n d := by
  have hdiv := Nat.div_add_mod (n + d - 1) d
  have hmod := Nat.mod_lt (n + d - 1) hd
  unfold ceilDiv
  omega

/-- A payload that is not empty has a block. -/
theorem ceilDiv_pos {n d : Nat} (hn : 0 < n) (hd : 0 < d) : 0 < ceilDiv n d :=
  Nat.div_pos (by omega) hd

/-! The plan of a given block count and parity (R183, R185). -/

/-- The blocks of a plan are as many as asked for. -/
theorem blockPlan_blockCounts (n k : Nat) {bc : Nat} (hbc : 0 < bc) :
    (blockPlan n bc k).smallBlockCount + (blockPlan n bc k).largeBlockCount = bc
      ∧ (blockPlan n bc k).largeBlockCount < bc := by
  have hdiv := Nat.div_add_mod n bc
  have hmod := Nat.mod_lt n hbc
  simp only [blockPlan]
  omega

/-- The blocks of a plan hold every payload byte once (R185). -/
theorem blockPlan_partition (n k : Nat) {bc : Nat} (hbc : 0 < bc) :
    (blockPlan n bc k).smallBlockCount * (blockPlan n bc k).smallBlockSize
      + (blockPlan n bc k).largeBlockCount * (blockPlan n bc k).largeBlockSize = n := by
  obtain ⟨hcount, -⟩ := blockPlan_blockCounts n k hbc
  have hlarge : (blockPlan n bc k).largeBlockCount = n - bc * (n / bc) := rfl
  have hle : bc * (n / bc) ≤ n := Nat.mul_div_le n bc
  calc _ = ((blockPlan n bc k).smallBlockCount + (blockPlan n bc k).largeBlockCount) * (n / bc)
            + (blockPlan n bc k).largeBlockCount := by simp only [blockPlan]; ring
    _ = n := by rw [hcount, hlarge]; omega

/-- The encoded length is the payload and k parity bytes for each block (R185). -/
theorem blockPlan_encodedLength (n k : Nat) {bc : Nat} (hbc : 0 < bc) :
    (blockPlan n bc k).encodedLength = n + bc * k := by
  obtain ⟨hcount, -⟩ := blockPlan_blockCounts n k hbc
  calc (blockPlan n bc k).encodedLength
      = (blockPlan n bc k).smallBlockCount * (blockPlan n bc k).smallBlockSize
          + (blockPlan n bc k).largeBlockCount * (blockPlan n bc k).largeBlockSize
          + ((blockPlan n bc k).smallBlockCount + (blockPlan n bc k).largeBlockCount) * k := by
        simp only [blockPlan]; ring
    _ = n + bc * k := by rw [blockPlan_partition n k hbc, hcount]

/-- With the block count of a divisor, no block is larger than the divisor (R181 to R183). -/
theorem blockPlan_blockSize_le (k : Nat) {n d : Nat} (hn : 0 < n) (hd : 0 < d) :
    (blockPlan n (ceilDiv n d) k).smallBlockSize ≤ d
      ∧ (1 ≤ (blockPlan n (ceilDiv n d) k).largeBlockCount → (blockPlan n (ceilDiv n d) k).largeBlockSize ≤ d) := by
  have hfit := le_mul_ceilDiv n hd
  have hbc := ceilDiv_pos hn hd
  simp only [blockPlan]
  generalize ceilDiv n d = bc at hfit hbc
  refine ⟨Nat.div_le_of_le_mul (by rwa [Nat.mul_comm]), fun hlarge => ?_⟩
  have hlt : bc * (n / bc) < bc * d := by rw [Nat.mul_comm bc d]; omega
  exact Nat.lt_of_mul_lt_mul_left hlt

/-! Legal sizes. -/

/-- The parity count of the automatic mode, on the small block sizes it meets (R184). -/
theorem autoParity_of_le {ss : Nat} (h : ss ≤ 247) :
    autoParity ss = some (if ss ≤ 61 then 2 else if ss ≤ 123 then 4 else if ss ≤ 185 then 6 else 8) := by
  unfold autoParity
  split_ifs <;> rfl

/-- The automatic mode never takes more than 8 parity bytes (R184). -/
theorem autoParity_le {ss k : Nat} (h : autoParity ss = some k) : k ≤ 8 := by
  have hmem := autoParity_mem h
  simp only [List.mem_cons, List.not_mem_nil, or_false] at hmem
  omega

/-- The plan of a legal size that is not empty in maximum-FEC mode (R181). -/
theorem plan_maxFec {n : Nat} (hn : 0 < n) (hmax : n ≤ 1023) :
    plan n true = .ok (blockPlan n (ceilDiv n 238) 16) := by
  have hsize : ¬ n > Config.maxPayload := Nat.not_lt.2 hmax
  simp only [plan, if_neg hsize, if_neg hn.ne', if_true]
  rfl

/-- The plan of a legal size that is not empty in automatic mode (R182, R184). -/
theorem plan_auto {n k : Nat} (hn : 0 < n) (hmax : n ≤ 1023) (hk : autoParity (n / ceilDiv n 246) = some k) :
    plan n false = .ok (blockPlan n (ceilDiv n 246) k) := by
  have hsize : ¬ n > Config.maxPayload := Nat.not_lt.2 hmax
  have hdiv : Config.divAuto = 246 := rfl
  simp only [plan, if_neg hsize, if_neg hn.ne', Bool.false_eq_true, if_false, hdiv, hk]

/-- Settles O30: an empty payload has the zero plan, and on any other size the two modes differ only in the divisor and the
parity count, so the facts about `blockPlan` give every clause. -/
theorem planIsSoundForLegalSizes : Obligations.PlanIsSoundForLegalSizes := by
  intro n m hmax
  obtain rfl | hn := Nat.eq_zero_or_pos n
  · refine ⟨zeroPlan m, by simp [plan], ?_⟩
    cases m <;> simp [zeroPlan, Config.maxFecParity]
  cases m with
  | true =>
    have hbc : 0 < ceilDiv n 238 := ceilDiv_pos hn (by decide)
    have hcount : ceilDiv n 238 ≤ 5 := by unfold ceilDiv; omega
    obtain ⟨hcounts, hlarge⟩ := blockPlan_blockCounts n 16 hbc
    obtain ⟨hsmallSize, hlargeSize⟩ := blockPlan_blockSize_le 16 hn (d := 238) (by decide)
    have hlength := blockPlan_encodedLength n 16 hbc
    refine ⟨_, plan_maxFec hn hmax, rfl, blockPlan_partition n 16 hbc, hcounts, rfl, fun _ => ⟨rfl, rfl⟩,
      fun _ => hlarge, by simp [blockPlan], fun _ => rfl, nofun, fun _ => ?_, fun h => ?_, hlength, ?_⟩
    · exact Nat.add_le_add_right hsmallSize 16
    · exact Nat.add_le_add_right (hlargeSize h) 16
    · rw [hlength, if_pos rfl]
      omega
  | false =>
    have hbc : 0 < ceilDiv n 246 := ceilDiv_pos hn (by decide)
    have hcount : ceilDiv n 246 ≤ 5 := by unfold ceilDiv; omega
    have hss : n / ceilDiv n 246 ≤ 246 := (blockPlan_blockSize_le 0 hn (d := 246) (by decide)).1
    obtain ⟨k, hk⟩ : ∃ k, autoParity (n / ceilDiv n 246) = some k := ⟨_, autoParity_of_le (by omega)⟩
    have hk8 := autoParity_le hk
    obtain ⟨hcounts, hlarge⟩ := blockPlan_blockCounts n k hbc
    obtain ⟨hsmallSize, hlargeSize⟩ := blockPlan_blockSize_le k hn (d := 246) (by decide)
    have hlength := blockPlan_encodedLength n k hbc
    have hparity := Option.some.inj (hk.symm.trans (autoParity_of_le (by omega)))
    refine ⟨_, plan_auto hn hmax hk, rfl, blockPlan_partition n k hbc, hcounts, rfl, fun _ => ⟨rfl, rfl⟩,
      fun _ => hlarge, ?_, nofun, fun _ _ => ⟨hss.trans (by decide), hparity⟩, fun _ => ?_, fun h => ?_, hlength, ?_⟩
    · exact List.mem_append_left [16] (autoParity_mem hk)
    · exact Nat.add_le_add hsmallSize hk8
    · exact Nat.add_le_add (hlargeSize h) hk8
    · rw [hlength, if_neg nofun]
      have := Nat.mul_le_mul hcount hk8
      omega

end Sys2Proof.Machine
end

section
/-! SUPPORT. The encoder against the plan: where the blocks lie and how long the encoding is. Settles O47. -/

namespace Sys2Proof.Machine

/-- Every block of a plan that partitions the payload ends inside the payload (R185, R200). -/
theorem BlockPlan.block_end_le {p : BlockPlan} {n : Nat}
    (hpart : p.smallBlockCount * p.smallBlockSize + p.largeBlockCount * p.largeBlockSize = n)
    {b : Nat × Nat} (hb : b ∈ p.blocks) : b.1 + b.2 ≤ n := by
  rw [BlockPlan.blocks, List.mem_append] at hb
  simp only [List.mem_map, List.mem_range] at hb
  obtain ⟨j, hj, rfl⟩ | ⟨j, hj, rfl⟩ := hb
  · have := Nat.mul_le_mul_right p.largeBlockSize hj
    rw [Nat.succ_mul] at this
    omega
  · have := Nat.mul_le_mul_right p.smallBlockSize hj
    rw [Nat.succ_mul] at this
    omega

/-- The bytes of all blocks, each with its parity (R185). -/
theorem BlockPlan.sum_blocks (p : BlockPlan) :
    (p.blocks.map fun b => b.2 + p.paritySymbols).sum
      = p.smallBlockCount * (p.smallBlockSize + p.paritySymbols)
        + p.largeBlockCount * (p.largeBlockSize + p.paritySymbols) := by
  simp only [BlockPlan.blocks, List.map_append, List.map_map, Function.comp_def, List.sum_append, List.map_const',
    List.length_range, List.sum_replicate, smul_eq_mul]
  exact Nat.add_comm _ _

/-- A plan succeeds only on a legal size (R180). -/
theorem plan_ok_size_le {n : Nat} {m : Bit} {p : BlockPlan} (h : plan n m = .ok p) : n ≤ 1023 :=
  (plan_ok_cases h).1

/-- The encoding of a payload has the planned length (R203). -/
theorem length_encPayload {s out : List Byte} {m : Bit} {p : BlockPlan} (hp : plan s.length m = .ok p)
    (h : encPayload Codec.machine s m = .ok out) : out.length = p.encodedLength := by
  obtain ⟨q, hq, -, hpart, hcount, -, -, -, -, -, -, -, -, hlen, -⟩ :=
    planIsSoundForLegalSizes s.length m (plan_ok_size_le hp)
  obtain rfl : p = q := Except.ok.inj (hp.symm.trans hq)
  have hout : out = p.blocks.flatMap fun b => encodeBlock Codec.machine p.paritySymbols (slice s b.1 b.2) := by
    simpa [encPayload, hp] using h.symm
  have hblock : ∀ b ∈ p.blocks,
      (encodeBlock Codec.machine p.paritySymbols (slice s b.1 b.2)).length = b.2 + p.paritySymbols := fun b hb => by
    rw [length_encodeBlock, length_slice (BlockPlan.block_end_le hpart hb)]
  calc out.length
      = (p.blocks.map fun b => b.2 + p.paritySymbols).sum := by
        rw [hout, List.length_flatMap, List.map_congr_left hblock]
    _ = (p.smallBlockCount * p.smallBlockSize + p.largeBlockCount * p.largeBlockSize)
          + (p.smallBlockCount + p.largeBlockCount) * p.paritySymbols := by rw [p.sum_blocks]; ring
    _ = p.encodedLength := by rw [hpart, hcount, hlen]

/-- The encoding of a payload is as long as IL2P_ENC and IL2P_DEC take it to be (R204, R206). -/
theorem length_encPayload_eq {s out : List Byte} {m : Bit} (h : encPayload Codec.machine s m = .ok out) :
    out.length = encodedLength s.length m := by
  obtain ⟨e, -, he⟩ | ⟨p, hp, -⟩ := encPayload_cases Codec.machine s m
  · exact nomatch he.symm.trans h
  · rw [length_encPayload hp h, encodedLength, hp]

/-- A decode that succeeds recovers as many bytes as were asked for (R205). -/
theorem length_decPayload {C : Codec} {free : Nat → Byte} {r out : List Byte} {n corr : Nat} {m : Bit}
    (h : decPayload C free r n m = .ok (out, corr)) : out.length = n := by
  unfold decPayload at h
  split at h
  · exact nomatch h
  · dsimp only at h
    split_ifs at h with _ hlen
    obtain ⟨rfl, -⟩ := Prod.mk.inj (Except.ok.inj h)
    exact not_not.1 hlen

/-- The encoder succeeds on every payload of a legal size (R187, R203). -/
theorem encPayload_succeeds {s : List Byte} (hs : s.length ≤ 1023) (m : Bit) (C : Codec) :
    ∃ blocks, encPayload C s m = .ok blocks := by
  obtain ⟨p, hp, -⟩ := planIsSoundForLegalSizes s.length m hs
  exact ⟨_, by rw [encPayload, hp]⟩

/-- The IL2P frame of a frame whose header and payload encode (R260). -/
theorem il2pFrame_of_some {C : Codec} {s hdr pay blocks : List Byte} {c : EffCfg}
    (hh : C.hdrEnc s c.maxFec = some (hdr, pay)) (hp : encPayload C pay c.maxFec = .ok blocks) :
    il2pFrame C s c = .ok (C.sync ++ hdr ++ blocks ++ (if c.crcEn then crcEnc4 (fcs16 s) else [])) := by
  simp only [il2pFrame, hh, hp]

/-- A frame whose header is refused has no IL2P frame (R260). -/
theorem il2pFrame_of_none {C : Codec} {s : List Byte} {c : EffCfg} (hh : C.hdrEnc s c.maxFec = none) :
    il2pFrame C s c = .error .encodeFailure := by
  simp only [il2pFrame, hh]

/-- Settles O47: the header encoder's payload is of a legal size (R13), so its encoding succeeds and only the refusal of
the header is left. -/
theorem il2pFrameLayout : Obligations.Il2pFrameLayout := by
  intro frame cfg
  cases hh : Codec.machine.hdrEnc frame cfg.maxFec with
  | none => exact il2pFrame_of_none hh
  | some answer =>
    obtain ⟨hdr, pay⟩ := answer
    obtain ⟨blocks, hp⟩ := encPayload_succeeds (Codec.machine_hdrEnc_length hh) cfg.maxFec Codec.machine
    refine ⟨blocks, hp, Codec.machine_sync_length, ?_, il2pFrame_of_some (c := { cfg with crcEn := true }) hh hp, rfl⟩
    simpa using il2pFrame_of_some (c := { cfg with crcEn := false }) hh hp

end Sys2Proof.Machine
end

section
/-! SUPPORT. What keeps a channel and a state sound: one lemma for each shared operation. -/

namespace Sys2Proof.Machine

/-! Channels. -/

/-- A channel is sound after reset (R340). -/
theorem Chan.sound_reset : Chan.reset.Sound where
  stuff := by decide
  mode := by decide
  accBound := Nat.zero_le _
  accSync _ := rfl

/-- A channel stays sound when its configuration and receive state stay and STUFF_CNT is 0 to 4: the case of everything
that sends (R47). -/
theorem Chan.Sound.of_rxSide {c c' : Chan} (hc : c.Sound) (hrx : c'.rxSide = c.rxSide) (hstuff : c'.stuffCnt.toNat ≤ 4) :
    c'.Sound := by
  simp only [Chan.rxSide, Prod.mk.injEq] at hrx
  obtain ⟨hcfg, -, -, hsync, hacc⟩ := hrx
  exact ⟨hstuff, hcfg ▸ hc.mode, hacc ▸ hc.accBound, hsync ▸ hacc ▸ hc.accSync⟩

/-- A channel stays sound when its configuration and codec state stay and RX_ACC keeps its two rules: the case of everything
that receives (R47). -/
theorem Chan.Sound.of_txSide {c c' : Chan} (hc : c.Sound) (htx : c'.txSide = c.txSide)
    (hbound : c'.rxAcc.length ≤ 8 * Config.rxMaxBytes + 6) (hsync : c'.rxSync = false → c'.rxAcc = []) : c'.Sound := by
  simp only [Chan.txSide, Prod.mk.injEq] at htx
  obtain ⟨hcfg, hstuff, -, -, -⟩ := htx
  exact ⟨hstuff ▸ hc.stuff, hcfg ▸ hc.mode, hbound, hsync⟩

/-- A configuration whose MODE is legal keeps a channel sound (R39, R291). -/
theorem Chan.Sound.withCfg {c : Chan} (hc : c.Sound) {cfg : BitVec 12} (hmode : cfgMode cfg ≠ modeIllegal) :
    ({ c with cfg := cfg } : Chan).Sound :=
  ⟨hc.stuff, hmode, hc.accBound, hc.accSync⟩

/-! STUFF_CNT after sending (R43). -/

@[simp] theorem Chan.putBits_stuffCnt (bits : List Bit) (c : Chan) : (c.putBits bits).stuffCnt = c.stuffCnt := by
  rw [Chan.putBits_eq]

@[simp] theorem Chan.il2pTx_stuffCnt (b : List Byte) (inv : Bit) (c : Chan) : (c.il2pTx b inv).stuffCnt = c.stuffCnt :=
  Chan.putBits_stuffCnt _ _

@[simp] theorem Chan.sendCtrl_stuffCnt (x : Byte) (c : Chan) : (c.sendCtrl x).stuffCnt = 0 := rfl

/-- A frame ends with a flag, so no 1s are pending after it (R131, R135). -/
@[simp] theorem Chan.sendFrame_stuffCnt (frame : List Byte) (f : Bit) (c : Chan) : (c.sendFrame frame f).stuffCnt = 0 := rfl

/-- Filler flags leave STUFF_CNT as it was when there are none, and 0 when there are some (R131, R136). -/
theorem Chan.sendFlags_stuffCnt (k : Nat) (c : Chan) :
    (c.sendFlags k).stuffCnt = if k = 0 then c.stuffCnt else 0 := by
  induction k generalizing c with
  | zero => rfl
  | succ k ih => rw [Chan.sendFlags, ih, Chan.sendCtrl_stuffCnt, ite_self, if_neg k.succ_ne_zero]

/-- The filler of PREAMBLE leaves STUFF_CNT as it was or 0 (R136). -/
theorem Chan.sendFiller_stuffCnt (k : Nat) (c : Chan) :
    (c.sendFiller k).stuffCnt = c.stuffCnt ∨ (c.sendFiller k).stuffCnt = 0 := by
  simp only [Chan.sendFiller]
  split
  · exact .inl (Chan.il2pTx_stuffCnt _ _ _)
  · rw [Chan.sendFlags_stuffCnt]
    split
    · exact .inl rfl
    · exact .inr rfl

/-! Sending and receiving keep a channel sound. -/

theorem Chan.Sound.startCount {c : Chan} (hc : c.Sound) : c.startCount.Sound :=
  hc.of_rxSide c.rxSide_startCount hc.stuff

theorem Chan.Sound.flush {c : Chan} (hc : c.Sound) : c.flush.Sound :=
  hc.of_rxSide c.rxSide_flush hc.stuff

theorem Chan.Sound.sendFrame {c : Chan} (hc : c.Sound) (frame : List Byte) (f : Bit) : (c.sendFrame frame f).Sound :=
  hc.of_rxSide (c.rxSide_sendFrame frame f) (Nat.zero_le 4)

theorem Chan.Sound.il2pTx {c : Chan} (hc : c.Sound) (bytes : List Byte) (inv : Bit) : (c.il2pTx bytes inv).Sound :=
  hc.of_rxSide (c.rxSide_il2pTx bytes inv) (by simpa using hc.stuff)

theorem Chan.Sound.sendFiller {c : Chan} (hc : c.Sound) (k : Nat) : (c.sendFiller k).Sound := by
  refine hc.of_rxSide (c.rxSide_sendFiller k) ?_
  obtain h | h := c.sendFiller_stuffCnt k
  · exact h ▸ hc.stuff
  · rw [h]
    exact Nat.zero_le 4

/-- The bits and the codec state of an FX.25 answer, whose STUFF_CNT is 0 to 4 (R16, R43). -/
theorem Chan.Sound.fx25 {c : Chan} (hc : c.Sound) (bits : List Bit) {st : TxState} (hst : st.1.toNat ≤ 4) :
    ({ c.putBits bits with stuffCnt := st.1, nrziLvl := st.2 } : Chan).Sound :=
  hc.of_rxSide (c.rxSide_putBits bits) hst

/-- What one level does to RX_ACC keeps its bound and keeps it empty without a flag (R46, R140). -/
theorem RxTransition.keeps_acc {c c' : Chan} {level : Bit} {delivered : List (List Byte)}
    (h : RxTransition c c' level delivered) (hbound : c.rxAcc.length ≤ 16390) (hsync : c.rxSync = false → c.rxAcc = []) :
    c'.rxAcc.length ≤ 16390 ∧ (c'.rxSync = false → c'.rxAcc = []) := by
  have hdropped (hacc : c'.rxAcc = []) : c'.rxAcc.length ≤ 16390 ∧ (c'.rxSync = false → c'.rxAcc = []) :=
    ⟨hacc ▸ Nat.zero_le _, fun _ => hacc⟩
  by_cases h5 : c.rxOnes = 5
  · obtain ⟨hs, ha⟩ := h.skip h5
    rw [hs, ha]
    exact ⟨hbound, hsync⟩
  by_cases habort : level = c.rxLvl ∧ 6 ≤ c.rxOnes.toNat
  · exact hdropped (h.abort habort.1 habort.2).2
  by_cases hflag : level ≠ c.rxLvl ∧ c.rxOnes = 6
  · exact hdropped (h.flag hflag.1 hflag.2).2
  have hkept : c.rxOnes.toNat < 5 ∨ (c.rxOnes = 7 ∧ level ≠ c.rxLvl) := by
    by_cases hl : level = c.rxLvl
    · have hne : c.rxOnes.toNat ≠ 5 := fun he => h5 (BitVec.eq_of_toNat_eq he)
      have hlt : ¬ 6 ≤ c.rxOnes.toNat := fun h6 => habort ⟨hl, h6⟩
      omega
    · have h6 : c.rxOnes ≠ 6 := fun h6 => hflag ⟨hl, h6⟩
      by_cases h7 : c.rxOnes = 7
      · exact .inr ⟨h7, hl⟩
      · exact .inl (by bv_omega)
  have hdata := h.data hkept
  split at hdata
  · split at hdata
    · obtain ⟨hs, ha⟩ := hdata
      rw [hs, ha, List.length_append, List.length_singleton]
      exact ⟨by omega, nofun⟩
    · exact hdropped hdata.2
  · rename_i hoff
    exact hdropped (hdata.2.trans (hsync (Bool.eq_false_of_not_eq_true hoff)))

/-- One received level keeps a channel sound (R139, R140). -/
theorem Chan.Sound.rxBit {c : Chan} (hc : c.Sound) (level : Bit) :
    (((c.nrziRecv level).2).rxBit (c.nrziRecv level).1).1.Sound := by
  obtain ⟨hbound, hsync⟩ := (rxBit_transition hc.accBound level).keeps_acc hc.accBound hc.accSync
  exact hc.of_txSide (Chan.txSide_rxBit _ _) hbound hsync

/-- Receiving keeps a channel sound (R141). -/
theorem Chan.Sound.rxLevels {c : Chan} (hc : c.Sound) (levels : List Bit) : (c.rxLevels levels).1.Sound := by
  induction levels generalizing c with
  | nil => exact hc
  | cons level levels ih => exact ih (hc.rxBit level)

/-! States. -/

/-- An OUT_LEN that counts bytes of a buffer is at most 8192 (R32). -/
theorem countWord_le_bufSize {n : Nat} (h : inBuffer 0 n = true) : (countWord n).toNat ≤ Config.bufSize := by
  have hn : n ≤ Config.bufSize := by
    simp only [inBuffer, decide_eq_true_eq] at h
    omega
  exact (BitVec.toNat_ofNat n 32 ▸ Nat.mod_le n _).trans hn

/-- The channels of a sound state are sound. -/
theorem State.Sound.of_chan? {s : State} (hs : s.Sound) {k : Nat} {c : Chan} (h : s.chan? k = some c) : c.Sound :=
  hs.each c (List.mem_of_getElem? h)

theorem State.Sound.finish {s : State} (hs : s.Sound) (st v a : Word) {o : Word} (ho : o.toNat ≤ Config.bufSize) :
    (s.finish st v a o).Sound :=
  { hs with outLen := ho }

theorem State.Sound.storeOut {s : State} (hs : s.Sound) {out : List Byte} (hout : inBuffer 0 out.length = true) :
    (s.storeOut out).Sound :=
  { hs with obuf := Memory.wf_putBytes hs.obuf hout }

theorem State.Sound.setChan {s : State} (hs : s.Sound) (ch : BitVec 8) {c : Chan} (hc : c.Sound) :
    (s.setChan ch c).Sound :=
  { hs with
    channels := (State.nch_setChan ch c s).trans hs.channels
    each := fun d hd => by
      obtain hd | rfl := List.mem_or_eq_of_mem_set hd
      · exact hs.each d hd
      · exact hc }

theorem State.Sound.raiseFault {s : State} (hs : s.Sound) (cause : FaultCause) (w : Word) :
    (s.raiseFault cause w).Sound :=
  { hs with
    noFault := nofun
    cause := fun _ => by cases cause <;> simp [FaultCause.code] }

theorem State.Sound.afterReset {s : State} (hs : s.Sound) : s.afterReset.Sound where
  channels := (List.length_map _).trans hs.channels
  each c hc := by
    obtain ⟨_, -, rfl⟩ := List.mem_map.1 hc
    exact Chan.sound_reset
  ibuf := Memory.wf_nil
  obuf := Memory.wf_nil
  outLen := Nat.zero_le _
  noFault _ := rfl
  cause := nofun

theorem State.Sound.load {s : State} (hs : s.Sound) {a : Nat} {bytes : List Byte}
    (h : inBuffer a bytes.length = true) : ({ s with ibuf := Memory.putBytes s.ibuf a bytes } : State).Sound :=
  { hs with ibuf := Memory.wf_putBytes hs.ibuf h }

/-- The host's pending actions are no part of soundness. -/
theorem State.Sound.withHost {s : State} (hs : s.Sound) (host : List HostAction) : ({ s with host := host } : State).Sound :=
  { hs with }

theorem State.Sound.finishFailedDecode {s : State} (hs : s.Sound) (e : StatusError) {n : Nat}
    (hn : inBuffer 0 n = true) : (s.finishFailedDecode e n).Sound :=
  { hs with
    obuf := Memory.wf_putBytes hs.obuf (by simpa using hn)
    outLen := Nat.zero_le _ }

/-- Bytes stored to OBUF and counted in OUT_LEN keep a state sound (R33). -/
theorem State.Sound.storeOut_finish {s : State} (hs : s.Sound) {out : List Byte} (st v a : Word)
    (hout : inBuffer 0 out.length = true) : ((s.storeOut out).finish st v a (countWord out.length)).Sound :=
  (hs.storeOut hout).finish st v a (countWord_le_bufSize hout)

theorem State.Sound.of_finishOut {s t : State} (hs : s.Sound) {out : List Byte} {st v a : Word}
    (h : finishOut out st v a s = .next t) : t.Sound := by
  obtain ⟨hout, rfl⟩ := finishOut_next h
  exact hs.storeOut_finish st v a hout

/-- A channel command leads to a sound state when its rule does on every sound channel: the fault for a missing channel
writes the fault record only (R306). -/
theorem State.Sound.of_onChannel {s t : State} (hs : s.Sound) {i : Instr} {ch : BitVec 8} {k : Chan → Result}
    (hk : ∀ c, c.Sound → k c = .next t → t.Sound) (h : onChannel i ch s k = .next t) : t.Sound := by
  obtain ⟨c, hc, hkc⟩ | ⟨-, rfl⟩ := onChannel_next h
  · exact hk c (hs.of_chan? hc) hkc
  · exact hs.raiseFault _ _

/-- The end of every sending command: the channel's new state stored, and a result without output bytes. -/
theorem State.Sound.setChan_finish {s : State} (hs : s.Sound) (ch : BitVec 8) {c : Chan} (hc : c.Sound) (st v a : Word) :
    ((s.setChan ch c).finish st v a 0).Sound :=
  (hs.setChan ch hc).finish st v a (Nat.zero_le _)

end Sys2Proof.Machine
end

section
/-! SUPPORT. The reset state is sound and every step keeps soundness, command by command. Settles O11, O58 and O59. -/

namespace Sys2Proof.Machine

/-! The reset state (R340). -/

/-- Every channel of the reset state is a reset channel. -/
theorem State.chan?_reset {k : Nat} {c : Chan} (h : State.reset.chan? k = some c) : c = Chan.reset :=
  List.eq_of_mem_replicate (List.mem_of_getElem? h)

/-- Settles O11: the reset state lists its values; NCH has the bounds of its type. -/
theorem resetStateValues : Obligations.ResetStateValues := by
  have hnch : State.reset.nch = Config.nch := List.length_replicate
  obtain ⟨hmin, hmax⟩ := Config.nch_bounds
  exact ⟨hnch ▸ hmin, hnch ▸ hmax, ⟨rfl, rfl, rfl, rfl⟩, rfl, fun _ _ h => State.chan?_reset h⟩

/-- Settles O58: every channel is a reset channel, and both buffers are empty. -/
theorem resetStateIsSound : Obligations.ResetStateIsSound where
  channels := List.length_replicate
  each _ hc := List.eq_of_mem_replicate hc ▸ Chan.sound_reset
  ibuf := Memory.wf_nil
  obuf := Memory.wf_nil
  outLen := Nat.zero_le _
  noFault _ := rfl
  cause := nofun

/-! The commands. -/

section Commands

variable {s t : State}

theorem execNop_keeps_sound (hs : s.Sound) (h : execNop s = .next t) : t.Sound := by
  obtain rfl := Host.Outcome.next.inj h
  exact hs.finish 0 0 0 (Nat.zero_le _)

/-- The MODE check of R291 is what keeps MODE = 3 out of CHCFG. -/
theorem execCfgWrite_keeps_sound (hs : s.Sound) {ch : BitVec 8} {cfg : BitVec 12}
    (h : execCfgWrite ch cfg s = .next t) : t.Sound := by
  refine hs.of_onChannel (fun c hc hk => ?_) h
  split at hk
  · obtain rfl := Host.Outcome.next.inj hk
    exact hs.raiseFault _ _
  · rename_i hmode
    obtain rfl := Host.Outcome.next.inj hk
    exact hs.setChan_finish ch (hc.withCfg hmode) _ _ _

theorem execCfgRead_keeps_sound (hs : s.Sound) {ch : BitVec 8} (h : execCfgRead ch s = .next t) : t.Sound := by
  refine hs.of_onChannel (fun c _ hk => ?_) h
  obtain rfl := Host.Outcome.next.inj hk
  exact hs.finish _ _ _ (Nat.zero_le _)

theorem execHdlcSend_keeps_sound (hs : s.Sound) {ch : BitVec 8} {f : Bit} {n : BitVec 12}
    (h : execHdlcSend ch f n s = .next t) : t.Sound := by
  refine hs.of_onChannel (fun c hc hk => ?_) h
  obtain rfl := Host.Outcome.next.inj (withIbuf_next hk).2
  exact hs.setChan_finish ch (hc.startCount.sendFrame _ f) _ _ _

theorem execPreamble_keeps_sound (hs : s.Sound) {ch : BitVec 8} {finish : Bit} {nbytes : BitVec 12}
    (h : execPreamble ch finish nbytes s = .next t) : t.Sound := by
  refine hs.of_onChannel (fun c hc hk => ?_) h
  obtain rfl := Host.Outcome.next.inj hk
  have hsent := hc.startCount.sendFiller nbytes.toNat
  refine hs.setChan_finish ch ?_ _ _ _
  cases finish with
  | false => exact hsent
  | true => exact hsent.flush

theorem execHdlcRx_keeps_sound (hs : s.Sound) {ch : BitVec 8} {nlevels : BitVec 12}
    (h : execHdlcRx ch nlevels s = .next t) : t.Sound := by
  refine hs.of_onChannel (fun c hc hk => ?_) h
  exact (hs.setChan ch (hc.rxLevels _)).of_finishOut (withIbuf_next hk).2

theorem execFcsCalc_keeps_sound (hs : s.Sound) {n : BitVec 12} (h : execFcsCalc n s = .next t) : t.Sound := by
  obtain rfl := Host.Outcome.next.inj (withIbuf_next h).2
  exact hs.finish _ _ _ (Nat.zero_le _)

theorem execIl2pPlan_keeps_sound (hs : s.Sound) {m : Bit} {size : BitVec 12}
    (h : execIl2pPlan m size s = .next t) : t.Sound := by
  unfold execIl2pPlan at h
  split at h
  · obtain rfl := Host.Outcome.next.inj h
    exact hs.finish _ _ _ (Nat.zero_le _)
  · exact hs.of_finishOut h

/-- The encoding fits OBUF because it has the planned length, whose range is the one checked (R203, R204). -/
theorem execIl2pEnc_keeps_sound (hs : s.Sound) {m : Bit} {size : BitVec 12}
    (h : execIl2pEnc m size s = .next t) : t.Sound := by
  unfold execIl2pEnc at h
  split at h
  · obtain rfl := Host.Outcome.next.inj h
    exact hs.finish _ _ _ (Nat.zero_le _)
  · obtain ⟨hrange, hnext⟩ := guardRange_next (withIbuf_next h).2
    obtain rfl := Host.Outcome.next.inj hnext
    split
    · exact hs.finish _ _ _ (Nat.zero_le _)
    · rename_i out hout
      refine hs.storeOut_finish _ _ _ ?_
      rwa [length_encPayload_eq hout, State.length_ibufBytes]

/-- A successful decode writes as many bytes as its size, whose range is the one checked (R205, R206). -/
theorem execIl2pDec_keeps_sound (hs : s.Sound) {m : Bit} {size : BitVec 12}
    (h : execIl2pDec m size s = .next t) : t.Sound := by
  unfold execIl2pDec at h
  split at h
  · obtain rfl := Host.Outcome.next.inj h
    exact hs.finish _ _ _ (Nat.zero_le _)
  · obtain ⟨hrange, hnext⟩ := guardRange_next (withIbuf_next h).2
    obtain rfl := Host.Outcome.next.inj hnext
    split
    · rename_i out corr hout
      refine (hs.storeOut ?_).finish _ _ _ (countWord_le_bufSize hrange)
      rwa [length_decPayload hout]
    · exact hs.finishFailedDecode _ hrange

theorem execIl2pCrcEnc_keeps_sound (hs : s.Sound) (h : execIl2pCrcEnc s = .next t) : t.Sound :=
  hs.of_finishOut (withIbuf_next h).2

theorem execIl2pCrcDec_keeps_sound (hs : s.Sound) (h : execIl2pCrcDec s = .next t) : t.Sound := by
  obtain rfl := Host.Outcome.next.inj (withIbuf_next h).2
  exact hs.finish _ _ _ (Nat.zero_le _)

theorem execIl2pCrcCheck_keeps_sound (hs : s.Sound) {n : BitVec 12} (h : execIl2pCrcCheck n s = .next t) :
    t.Sound := by
  obtain rfl := Host.Outcome.next.inj (withIbuf_next (withIbuf_next h).2).2
  exact hs.finish _ _ _ (Nat.zero_le _)

theorem execIl2pSend_keeps_sound (hs : s.Sound) {ch : BitVec 8} {n : BitVec 12}
    (h : execIl2pSend ch n s = .next t) : t.Sound := by
  refine hs.of_onChannel (fun c hc hk => ?_) h
  obtain rfl := Host.Outcome.next.inj (withIbuf_next hk).2
  split
  · exact hs.setChan_finish ch hc.startCount _ _ _
  · exact hs.setChan_finish ch (hc.startCount.il2pTx _ _) _ _ _

/-- Of the three paths only FX.25 takes its STUFF_CNT from outside, from an answer that obeys R43. -/
theorem execL2Send_keeps_sound (hs : s.Sound) {ch : BitVec 8} {f : Bit} {n : BitVec 12}
    (h : execL2Send ch f n s = .next t) : t.Sound := by
  refine hs.of_onChannel (fun c hc hk => ?_) h
  have hc0 := hc.startCount
  obtain rfl := Host.Outcome.next.inj (withIbuf_next hk).2
  obtain hpath | ⟨bytes, -, -, hpath⟩ | ⟨-, -, hpath⟩ :=
    layer2Path_cases Codec.machine ch.toNat (s.ibufBytes 0 n.toNat) c.startCount
  · rw [hpath]
    exact hs.setChan_finish ch (hc0.sendFrame _ f) _ _ _
  · rw [hpath]
    exact hs.setChan_finish ch (hc0.il2pTx bytes _) _ _ _
  · rw [hpath]
    exact hs.setChan_finish ch (hc0.fx25 _ (Codec.machine_fx25Send_stuff _ _ _ _)) _ _ _

/-- Every command keeps soundness. -/
theorem exec_keeps_sound (hs : s.Sound) {i : Instr} (h : exec i s = .next t) : t.Sound := by
  cases i with
  | nop => exact execNop_keeps_sound hs h
  | cfgWrite ch cfg => exact execCfgWrite_keeps_sound hs h
  | cfgRead ch => exact execCfgRead_keeps_sound hs h
  | hdlcSend ch f n => exact execHdlcSend_keeps_sound hs h
  | preamble ch f nbytes => exact execPreamble_keeps_sound hs h
  | hdlcRx ch nlevels => exact execHdlcRx_keeps_sound hs h
  | fcsCalc n => exact execFcsCalc_keeps_sound hs h
  | il2pPlan f size => exact execIl2pPlan_keeps_sound hs h
  | il2pEnc f size => exact execIl2pEnc_keeps_sound hs h
  | il2pDec f size => exact execIl2pDec_keeps_sound hs h
  | il2pCrcEnc => exact execIl2pCrcEnc_keeps_sound hs h
  | il2pCrcDec => exact execIl2pCrcDec_keeps_sound hs h
  | il2pCrcCheck n => exact execIl2pCrcCheck_keeps_sound hs h
  | il2pSend ch n => exact execIl2pSend_keeps_sound hs h
  | l2Send ch f n => exact execL2Send_keeps_sound hs h

/-- A command word keeps soundness, whether it is ignored, run or rejected. -/
theorem runCommand_keeps_sound (hs : s.Sound) {w : Word} (h : runCommand w s = .next t) : t.Sound := by
  obtain ⟨-, rfl⟩ | ⟨-, i, -, hexec⟩ | ⟨-, -, rfl⟩ := runCommand_next h
  · exact hs
  · exact exec_keeps_sound hs hexec
  · exact hs.raiseFault _ w

/-- Every action of the host keeps soundness. -/
theorem hostAct_keeps_sound (hs : s.Sound) {act : HostAction} (h : hostAct act s = .next t) : t.Sound := by
  obtain ⟨w, -, hrun⟩ | ⟨a, bytes, -, hrange, rfl⟩ | ⟨-, rfl⟩ := hostAct_next h
  · exact runCommand_keeps_sound hs hrun
  · exact hs.load hrange
  · exact hs.afterReset

end Commands

/-- Settles O59: a step waits or takes one action of the host, and each action keeps soundness. -/
theorem everyStepKeepsSoundness : Obligations.EveryStepKeepsSoundness := by
  intro s t hs h
  obtain ⟨-, rfl⟩ | ⟨act, rest, -, hact⟩ := step_next h
  · exact hs
  · exact hostAct_keeps_sound (hs.withHost rest) hact

end Sys2Proof.Machine
end

section
/-! SUPPORT. The HDLC transmitter against the bit sequences the statements speak of, and the L2_SEND paths. Settles O51. -/

namespace Sys2Proof.Machine

/-! The states the statements speak of are those of the named operations. -/

theorem State.withChan_eq_setChan (ch : BitVec 8) (c : Chan) (s : State) : s.withChan ch c = s.setChan ch c := rfl

theorem State.results_eq_finish (st v a o : Word) (s : State) : s.results st v a o = s.finish st v a o := rfl

theorem Chan.sentNrzi_bitsSent (bits : List Bit) (c : Chan) : (c.sentNrzi bits).bitsSent = countWord bits.length := rfl

theorem Chan.sentPlain_bitsSent (bits : List Bit) (c : Chan) : (c.sentPlain bits).bitsSent = countWord bits.length := rfl

/-! Bits through NRZI (R130). -/

/-- A bit sequence through NRZI, bit by bit (R130). -/
def Chan.pushNrzi (bits : List Bit) (c : Chan) : Chan :=
  bits.foldl (fun c d => c.nrziSend d) c

@[simp] theorem Chan.pushNrzi_nil (c : Chan) : c.pushNrzi [] = c := rfl

@[simp] theorem Chan.pushNrzi_cons (d : Bit) (ds : List Bit) (c : Chan) :
    c.pushNrzi (d :: ds) = (c.nrziSend d).pushNrzi ds := rfl

theorem Chan.pushNrzi_append (xs ys : List Bit) (c : Chan) : c.pushNrzi (xs ++ ys) = (c.pushNrzi xs).pushNrzi ys :=
  List.foldl_append

/-- NRZI neither reads nor writes STUFF_CNT. -/
theorem Chan.pushNrzi_withStuffCnt (bits : List Bit) (k : BitVec 3) (c : Chan) :
    ({ c with stuffCnt := k } : Chan).pushNrzi bits = { c.pushNrzi bits with stuffCnt := k } := by
  induction bits generalizing c with
  | nil => rfl
  | cons d ds ih => exact ih (c.nrziSend d)

/-- Bits pushed one by one are the levels NRZI makes of the whole sequence (R130). -/
theorem Chan.pushNrzi_eq (bits : List Bit) (c : Chan) :
    c.pushNrzi bits =
      { c with
        sink := c.sink ++ (nrziLevels c.nrziLvl bits).map .bit
        nrziLvl := nrziEnd c.nrziLvl bits
        bitsSent := c.bitsSent + countWord bits.length } := by
  induction bits generalizing c with
  | nil => simp [nrziLevels, nrziEnd, countWord]
  | cons d ds ih =>
    have hcount : c.bitsSent + 1 + countWord ds.length = c.bitsSent + countWord (ds.length + 1) := by
      rw [add_assoc, Nat.add_comm ds.length, countWord, countWord, BitVec.ofNat_add]
      rfl
    rw [Chan.pushNrzi_cons, ih, Chan.nrziSend_bitsSent, List.length_cons, hcount]
    cases d <;> simp [Chan.nrziSend, Chan.putBit, nrziLevels, nrziEnd]

/-! Stuffing (R132). -/

/-- One data bit: a 0 and a 1 that is not the fifth go out alone, the fifth 1 with a stuffed 0 (R132). -/
theorem Chan.sendDataBit_eq (d : Bit) (c : Chan) :
    c.sendDataBit d =
      if d then
        if c.stuffCnt = 4 then { c.pushNrzi [true, false] with stuffCnt := 0 }
        else { c.pushNrzi [true] with stuffCnt := c.stuffCnt + 1 }
      else { c.pushNrzi [false] with stuffCnt := 0 } := by
  have hfive : c.stuffCnt + 1 = BitVec.ofNat 3 Config.stuffRun ↔ c.stuffCnt = 4 := by
    generalize c.stuffCnt = k
    revert k
    decide
  cases d with
  | false => rfl
  | true =>
    simp only [Chan.sendDataBit, Chan.nrziSend_stuffCnt, hfive]
    rfl

/-- Data bits go out as the stuffed sequence, in a run of as many 1s as STUFF_CNT counts (R43, R132). -/
theorem Chan.foldl_sendDataBit (ds : List Bit) (c : Chan) (hc : c.stuffCnt.toNat ≤ 4) :
    ∃ k, ds.foldl (fun c d => c.sendDataBit d) c = { c.pushNrzi (stuffed c.stuffCnt.toNat ds) with stuffCnt := k } := by
  induction ds generalizing c with
  | nil => exact ⟨c.stuffCnt, rfl⟩
  | cons d ds ih =>
    rw [List.foldl_cons, Chan.sendDataBit_eq]
    cases d with
    | false =>
      obtain ⟨k, hk⟩ := ih { c.pushNrzi [false] with stuffCnt := 0 } (Nat.zero_le 4)
      exact ⟨k, by rw [if_neg nofun, hk, Chan.pushNrzi_withStuffCnt]; rfl⟩
    | true =>
      rw [if_pos rfl]
      by_cases h4 : c.stuffCnt = 4
      · obtain ⟨k, hk⟩ := ih { c.pushNrzi [true, false] with stuffCnt := 0 } (Nat.zero_le 4)
        exact ⟨k, by rw [if_pos h4, hk, Chan.pushNrzi_withStuffCnt, h4]; rfl⟩
      · have hrun : (c.stuffCnt + 1).toNat = c.stuffCnt.toNat + 1 := by bv_omega
        have hle : (c.stuffCnt + 1).toNat ≤ 4 := by bv_omega
        have hne : c.stuffCnt.toNat + 1 ≠ 5 := by bv_omega
        obtain ⟨k, hk⟩ := ih { c.pushNrzi [true] with stuffCnt := c.stuffCnt + 1 } hle
        refine ⟨k, ?_⟩
        rw [if_neg h4, hk, Chan.pushNrzi_withStuffCnt, stuffed, if_neg hne, hrun]
        rfl

/-- Data bytes are their bits, least significant first (R77, R132). -/
theorem Chan.sendDataBytes_eq_foldl (bytes : List Byte) (c : Chan) :
    c.sendDataBytes bytes = (bytes.flatMap lsbFirst).foldl (fun c d => c.sendDataBit d) c := by
  rw [List.foldl_flatMap]
  rfl

/-! Flags and frames (R131, R135). -/

/-- A flag is its eight bits, with STUFF_CNT 0 after it (R131). -/
theorem Chan.sendCtrl_flagByte (c : Chan) :
    c.sendCtrl Config.flagByte = { c.pushNrzi flagBits with stuffCnt := 0 } := by
  have hbits : lsbFirst Config.flagByte = flagBits := by decide
  rw [Chan.sendCtrl, hbits]
  rfl

/-- A frame goes out as its bits through NRZI, with STUFF_CNT 0 after it (R135). -/
theorem Chan.sendFrame_eq_pushNrzi (frame : List Byte) (f : Bit) (c : Chan) :
    c.sendFrame frame f = { c.pushNrzi (hdlcBits frame f) with stuffCnt := 0 } := by
  obtain ⟨k, hk⟩ := Chan.foldl_sendDataBit
    ((frame ++ [loByte (sentFcs frame f), hiByte (sentFcs frame f)]).flatMap lsbFirst)
    { c.pushNrzi flagBits with stuffCnt := 0 } (Nat.zero_le 4)
  have hdata : ((c.sendCtrl Config.flagByte).sendDataBytes frame).sendDataBytes
        [loByte (sentFcs frame f), hiByte (sentFcs frame f)]
      = { (c.pushNrzi flagBits).pushNrzi (frameBits frame f) with stuffCnt := k } := by
    rw [Chan.sendDataBytes_eq_foldl, Chan.sendDataBytes_eq_foldl, ← List.foldl_append, ← List.flatMap_append,
      Chan.sendCtrl_flagByte, hk, Chan.pushNrzi_withStuffCnt]
    rfl
  rw [Chan.sendFrame, hdata, Chan.sendCtrl_flagByte, Chan.pushNrzi_withStuffCnt, hdlcBits, Chan.pushNrzi_append,
    Chan.pushNrzi_append]

/-- HDLC_SEND's channel: the frame's levels pushed and counted from 0 (R45, R135). -/
theorem Chan.startCount_sendFrame (frame : List Byte) (f : Bit) (c : Chan) :
    c.startCount.sendFrame frame f = c.sentNrzi (hdlcBits frame f) := by
  rw [Chan.sendFrame_eq_pushNrzi, Chan.pushNrzi_eq, Chan.startCount_bitsSent, zero_add]
  rfl

/-- Bits pushed without NRZI and counted from 0 (R45, R261). -/
theorem Chan.startCount_putBits (bits : List Bit) (c : Chan) : c.startCount.putBits bits = c.sentPlain bits := by
  rw [Chan.putBits_eq, Chan.startCount_bitsSent, zero_add]
  rfl

/-! L2_SEND (R263). -/

/-- L2_SEND on a channel that exists: what each path does to the channel and the result registers (R263). -/
theorem execL2Send_eq {ch : BitVec 8} {s : State} {c : Chan} (hc : s.chan? ch.toNat = some c) (f : Bit) (n : BitVec 12) :
    exec (.l2Send ch f n) s = .next
      (match layer2Path Codec.machine ch.toNat (s.ibufBytes 0 n.toNat) c with
      | .il2p bytes =>
        (s.withChan ch (c.sentPlain (il2pBits (effCfg c.cfg).invert bytes))).results
          (countWord (il2pBits (effCfg c.cfg).invert bytes).length) 0 2 0
      | .fx25 bits st =>
        (s.withChan ch { c.sentPlain bits with stuffCnt := st.1, nrziLvl := st.2 }).results
          (countWord bits.length) 0 1 0
      | .hdlc =>
        (s.withChan ch (c.sentNrzi (hdlcBits (s.ibufBytes 0 n.toNat) f))).results
          (countWord (hdlcBits (s.ibufBytes 0 n.toNat) f).length)
          ((sentFcs (s.ibufBytes 0 n.toNat) f).setWidth 32) 0 0) := by
  have hpath : layer2Path Codec.machine ch.toNat (s.ibufBytes 0 n.toNat) c.startCount
      = layer2Path Codec.machine ch.toNat (s.ibufBytes 0 n.toNat) c := rfl
  show execL2Send ch f n s = _
  rw [execL2Send, onChannel_some hc, withIbuf_pos (inBuffer_len n)]
  simp only [hpath, State.withChan_eq_setChan, State.results_eq_finish]
  cases layer2Path Codec.machine ch.toNat (s.ibufBytes 0 n.toNat) c with
  | il2p bytes => simp only [Chan.il2pTx, Chan.startCount_putBits, Chan.startCount_cfg, Chan.sentPlain_bitsSent]
  | fx25 bits st => simp only [Chan.startCount_putBits, Chan.sentPlain_bitsSent]
  | hdlc => simp only [Chan.startCount_sendFrame, Chan.sentNrzi_bitsSent]

/-- The path of an FX.25 channel is decided by the sign of FX25_SEND's result (R16, R263). -/
theorem layer2Path_of_modeFx25 {C : Codec} {ch : Nat} {frame : List Byte} {c : Chan} {r : Int} {bits : List Bit}
    {st : TxState} (hmode : (effCfg c.cfg).mode = modeFx25)
    (hsend : C.fx25Send ch frame (effCfg c.cfg).fx25 (c.stuffCnt, c.nrziLvl) = (r, bits, st)) :
    layer2Path C ch frame c = if 0 < r then .fx25 bits st else .hdlc := by
  have hil2p : (effCfg c.cfg).mode ≠ modeIl2p := by rw [hmode]; decide
  rw [layer2Path, if_neg hil2p, if_pos hmode, hsend]

/-- Settles O51: R16's rule on the result, then the path it decides. -/
theorem l2SendFx25ModeFallsBack : Obligations.L2SendFx25ModeFallsBack := by
  intro ch f n s c r bits st hc hmode hsend
  have hlaw := Codec.machine_fx25Send ch.toNat (s.ibufBytes 0 n.toNat) (effCfg c.cfg).fx25 (c.stuffCnt, c.nrziLvl)
  rw [hsend] at hlaw
  have hcount : 0 < r → r = bits.length := fun hr => hlaw.elim And.right fun h => absurd hr (not_lt.2 h.1)
  refine ⟨hcount, fun hr => hlaw.elim (fun h => absurd h.1 (not_lt.2 hr)) And.right, ?_⟩
  rw [execL2Send_eq hc, layer2Path_of_modeFx25 hmode hsend]
  by_cases hr : 0 < r
  · have hword : BitVec.ofInt 32 r = countWord bits.length := by rw [hcount hr, BitVec.ofInt_natCast, countWord]
    rw [if_pos hr, if_pos hr, hword]
  · rw [if_neg hr, if_neg hr]

end Sys2Proof.Machine
end

section
/-! SUPPORT. What one command may leave, seen from the state it starts in: what it makes of the channel it names, and what
it makes of the state. -/

namespace Sys2Proof.Machine

/-! Channels. -/

/-- What a command makes of the channel `ch` it names, with state `c` before it (R47, R51): one constructor for each
command, or path of a command, that stores a channel. CFG_READ stores none. -/
inductive ChanWrite (s : State) (ch : BitVec 8) (c : Chan) : Instr → Chan → Prop where
  /-- R291. -/
  | cfgWrite (v : BitVec 12) : ChanWrite s ch c (.cfgWrite ch v) { c with cfg := v }
  /-- R135. -/
  | hdlcSend (f : Bit) (n : BitVec 12) :
      ChanWrite s ch c (.hdlcSend ch f n) (c.startCount.sendFrame (s.ibufBytes 0 n.toNat) f)
  /-- R136. -/
  | preamble (n : BitVec 12) : ChanWrite s ch c (.preamble ch false n) (c.startCount.sendFiller n.toNat)
  /-- R136, with the flush marker. -/
  | preambleFlush (n : BitVec 12) : ChanWrite s ch c (.preamble ch true n) (c.startCount.sendFiller n.toNat).flush
  /-- R141. -/
  | hdlcRx (n : BitVec 12) :
      ChanWrite s ch c (.hdlcRx ch n) (c.rxLevels ((s.ibufBytes 0 n.toNat).map fun b => b.getLsbD 0)).1
  /-- R262, when the header is refused. -/
  | il2pRefused (n : BitVec 12) (e : StatusError)
      (hframe : il2pFrame Codec.machine (s.ibufBytes 0 n.toNat) (effCfg c.cfg) = .error e) :
      ChanWrite s ch c (.il2pSend ch n) c.startCount
  /-- R262. -/
  | il2pSend (n : BitVec 12) (bytes : List Byte)
      (hframe : il2pFrame Codec.machine (s.ibufBytes 0 n.toNat) (effCfg c.cfg) = .ok bytes) :
      ChanWrite s ch c (.il2pSend ch n) (c.startCount.il2pTx bytes (effCfg c.cfg).invert)
  /-- R263 step 3. -/
  | l2Hdlc (f : Bit) (n : BitVec 12)
      (hpath : layer2Path Codec.machine ch.toNat (s.ibufBytes 0 n.toNat) c = .hdlc) :
      ChanWrite s ch c (.l2Send ch f n) (c.startCount.sendFrame (s.ibufBytes 0 n.toNat) f)
  /-- R263 step 2. -/
  | l2Fx25 (f : Bit) (n : BitVec 12) (bits : List Bit) (st : TxState)
      (hpath : layer2Path Codec.machine ch.toNat (s.ibufBytes 0 n.toNat) c = .fx25 bits st) :
      ChanWrite s ch c (.l2Send ch f n) { c.startCount.putBits bits with stuffCnt := st.1, nrziLvl := st.2 }
  /-- R263 step 1. -/
  | l2Il2p (f : Bit) (n : BitVec 12) (bytes : List Byte)
      (hpath : layer2Path Codec.machine ch.toNat (s.ibufBytes 0 n.toNat) c = .il2p bytes) :
      ChanWrite s ch c (.l2Send ch f n) (c.startCount.il2pTx bytes (effCfg c.cfg).invert)

/-- The channel a command stores is the one it names (R103, R306). -/
theorem ChanWrite.channel? {s : State} {ch : BitVec 8} {c c' : Chan} {i : Instr} (h : ChanWrite s ch c i c') :
    i.channel? = some ch := by
  cases h <;> rfl

/-! States. -/

/-- What a command may leave (R33, R206, R304). OBUF is only ever written from address 0 on, and by as many bytes as OUT_LEN
counts, but for a failed IL2P_DEC. -/
inductive Effect (i : Instr) (s : State) : State → Prop where
  /-- The fault record and nothing else (R304). -/
  | faulted (cause : FaultCause) (w : Word) : Effect i s (s.raiseFault cause w)
  /-- Output bytes and the result registers (R33). -/
  | answered (out : List Byte) (st v a : Word) (hout : inBuffer 0 out.length = true) :
      Effect i s ((s.storeOut out).finish st v a (countWord out.length))
  /-- The named channel, output bytes and the result registers (R33, R47). -/
  | wrote {ch : BitVec 8} {c c' : Chan} (hc : s.chan? ch.toNat = some c) (hwrite : ChanWrite s ch c i c')
      (out : List Byte) (st v a : Word) (hout : inBuffer 0 out.length = true) :
      Effect i s (((s.setChan ch c').storeOut out).finish st v a (countWord out.length))
  /-- A failed IL2P_DEC (R206). -/
  | failedDecode (m : Bit) (size : BitVec 12) (hi : i = .il2pDec m size) (e : StatusError) :
      Effect i s (s.finishFailedDecode e size.toNat)

/-- A command that writes the result registers only. -/
theorem Effect.results (i : Instr) (s : State) (st v a : Word) : Effect i s (s.finish st v a 0) :=
  .answered [] st v a rfl

/-- A channel command without output bytes. -/
theorem Effect.sent {i : Instr} {s : State} {ch : BitVec 8} {c c' : Chan} (hc : s.chan? ch.toNat = some c)
    (hwrite : ChanWrite s ch c i c') (st v a : Word) : Effect i s ((s.setChan ch c').finish st v a 0) :=
  .wrote hc hwrite [] st v a rfl

section Commands

variable {s t : State}

/-- A channel command has an effect when its rule has one on the channel; a missing channel is a fault (R306). -/
theorem Effect.of_onChannel {i : Instr} {ch : BitVec 8} {k : Chan → Result} (h : onChannel i ch s k = .next t)
    (hk : ∀ c, s.chan? ch.toNat = some c → k c = .next t → Effect i s t) : Effect i s t := by
  obtain ⟨c, hc, hkc⟩ | ⟨-, rfl⟩ := onChannel_next h
  · exact hk c hc hkc
  · exact .faulted _ _

theorem Effect.of_finishOut {i : Instr} {out : List Byte} {st v a : Word} (h : finishOut out st v a s = .next t) :
    Effect i s t := by
  obtain ⟨hout, rfl⟩ := finishOut_next h
  exact .answered out st v a hout

theorem execCfgWrite_effect {ch : BitVec 8} {cfg : BitVec 12} (h : execCfgWrite ch cfg s = .next t) :
    Effect (.cfgWrite ch cfg) s t := by
  refine .of_onChannel h fun c hc hk => ?_
  split at hk
  · obtain rfl := Host.Outcome.next.inj hk
    exact .faulted _ _
  · obtain rfl := Host.Outcome.next.inj hk
    exact .sent hc (.cfgWrite cfg) _ _ _

theorem execCfgRead_effect {ch : BitVec 8} (h : execCfgRead ch s = .next t) : Effect (.cfgRead ch) s t := by
  refine .of_onChannel h fun c _ hk => ?_
  obtain rfl := Host.Outcome.next.inj hk
  exact .results _ _ _ _ _

theorem execHdlcSend_effect {ch : BitVec 8} {f : Bit} {n : BitVec 12} (h : execHdlcSend ch f n s = .next t) :
    Effect (.hdlcSend ch f n) s t := by
  refine .of_onChannel h fun c hc hk => ?_
  obtain rfl := Host.Outcome.next.inj (withIbuf_next hk).2
  exact .sent hc (.hdlcSend f n) _ _ _

theorem execPreamble_effect {ch : BitVec 8} {finish : Bit} {n : BitVec 12} (h : execPreamble ch finish n s = .next t) :
    Effect (.preamble ch finish n) s t := by
  refine .of_onChannel h fun c hc hk => ?_
  obtain rfl := Host.Outcome.next.inj hk
  cases finish with
  | false => exact .sent hc (.preamble n) _ _ _
  | true => exact .sent hc (.preambleFlush n) _ _ _

theorem execHdlcRx_effect {ch : BitVec 8} {n : BitVec 12} (h : execHdlcRx ch n s = .next t) :
    Effect (.hdlcRx ch n) s t := by
  refine .of_onChannel h fun c hc hk => ?_
  obtain ⟨hout, rfl⟩ := finishOut_next (withIbuf_next hk).2
  exact .wrote hc (.hdlcRx n) _ _ _ _ hout

theorem execFcsCalc_effect {n : BitVec 12} (h : execFcsCalc n s = .next t) : Effect (.fcsCalc n) s t := by
  obtain rfl := Host.Outcome.next.inj (withIbuf_next h).2
  exact .results _ _ _ _ _

theorem execIl2pPlan_effect {m : Bit} {size : BitVec 12} (h : execIl2pPlan m size s = .next t) :
    Effect (.il2pPlan m size) s t := by
  unfold execIl2pPlan at h
  split at h
  · obtain rfl := Host.Outcome.next.inj h
    exact .results _ _ _ _ _
  · exact .of_finishOut h

theorem execIl2pEnc_effect {m : Bit} {size : BitVec 12} (h : execIl2pEnc m size s = .next t) :
    Effect (.il2pEnc m size) s t := by
  unfold execIl2pEnc at h
  split at h
  · obtain rfl := Host.Outcome.next.inj h
    exact .results _ _ _ _ _
  · obtain ⟨hrange, hnext⟩ := guardRange_next (withIbuf_next h).2
    obtain rfl := Host.Outcome.next.inj hnext
    split
    · exact .results _ _ _ _ _
    · rename_i out hout
      refine .answered out _ _ _ ?_
      rwa [length_encPayload_eq hout, State.length_ibufBytes]

theorem execIl2pDec_effect {m : Bit} {size : BitVec 12} (h : execIl2pDec m size s = .next t) :
    Effect (.il2pDec m size) s t := by
  unfold execIl2pDec at h
  split at h
  · obtain rfl := Host.Outcome.next.inj h
    exact .results _ _ _ _ _
  · obtain ⟨hrange, hnext⟩ := guardRange_next (withIbuf_next h).2
    obtain rfl := Host.Outcome.next.inj hnext
    split
    · rename_i out corr hout
      rw [← length_decPayload hout] at hrange ⊢
      exact .answered out _ _ _ hrange
    · exact .failedDecode m size rfl _

theorem execIl2pCrcEnc_effect (h : execIl2pCrcEnc s = .next t) : Effect .il2pCrcEnc s t :=
  .of_finishOut (withIbuf_next h).2

theorem execIl2pCrcDec_effect (h : execIl2pCrcDec s = .next t) : Effect .il2pCrcDec s t := by
  obtain rfl := Host.Outcome.next.inj (withIbuf_next h).2
  exact .results _ _ _ _ _

theorem execIl2pCrcCheck_effect {n : BitVec 12} (h : execIl2pCrcCheck n s = .next t) : Effect (.il2pCrcCheck n) s t := by
  obtain rfl := Host.Outcome.next.inj (withIbuf_next (withIbuf_next h).2).2
  exact .results _ _ _ _ _

theorem execIl2pSend_effect {ch : BitVec 8} {n : BitVec 12} (h : execIl2pSend ch n s = .next t) :
    Effect (.il2pSend ch n) s t := by
  refine .of_onChannel h fun c hc hk => ?_
  obtain rfl := Host.Outcome.next.inj (withIbuf_next hk).2
  split
  · rename_i e hframe
    exact .sent hc (.il2pRefused n e hframe) _ _ _
  · rename_i bytes hframe
    exact .sent hc (.il2pSend n bytes hframe) _ _ _

theorem execL2Send_effect {ch : BitVec 8} {f : Bit} {n : BitVec 12} (h : execL2Send ch f n s = .next t) :
    Effect (.l2Send ch f n) s t := by
  refine .of_onChannel h fun c hc hk => ?_
  obtain rfl := Host.Outcome.next.inj (withIbuf_next hk).2
  split
  · rename_i bytes hpath
    exact .sent hc (.l2Il2p f n bytes hpath) _ _ _
  · rename_i bits st hpath
    exact .sent hc (.l2Fx25 f n bits st hpath) _ _ _
  · rename_i hpath
    exact .sent hc (.l2Hdlc f n hpath) _ _ _

/-- Everything a command can do. -/
theorem exec_effect {i : Instr} (h : exec i s = .next t) : Effect i s t := by
  cases i with
  | nop => exact Host.Outcome.next.inj h ▸ .results _ _ _ _ _
  | cfgWrite ch cfg => exact execCfgWrite_effect h
  | cfgRead ch => exact execCfgRead_effect h
  | hdlcSend ch f n => exact execHdlcSend_effect h
  | preamble ch f n => exact execPreamble_effect h
  | hdlcRx ch n => exact execHdlcRx_effect h
  | fcsCalc n => exact execFcsCalc_effect h
  | il2pPlan f size => exact execIl2pPlan_effect h
  | il2pEnc f size => exact execIl2pEnc_effect h
  | il2pDec f size => exact execIl2pDec_effect h
  | il2pCrcEnc => exact execIl2pCrcEnc_effect h
  | il2pCrcDec => exact execIl2pCrcDec_effect h
  | il2pCrcCheck n => exact execIl2pCrcCheck_effect h
  | il2pSend ch n => exact execIl2pSend_effect h
  | l2Send ch f n => exact execL2Send_effect h

end Commands

end Sys2Proof.Machine
end

section
/-! SUPPORT. What each command leaves alone, read off its effect. Settles O52 to O56. -/

namespace Sys2Proof.Machine

/-! Channels (R47, R85). -/

/-- A channel is as before, or the command names it and stored it. -/
theorem exec_chan?_cases {i : Instr} {s t : State} (h : exec i s = .next t) (k : Nat) :
    t.chan? k = s.chan? k
      ∨ ∃ ch c c', ch.toNat = k ∧ s.chan? k = some c ∧ t.chan? k = some c' ∧ ChanWrite s ch c i c' := by
  cases exec_effect h with
  | faulted | answered | failedDecode => exact .inl rfl
  | @wrote ch c c' hc hwrite out =>
    simp only [State.chan?_finish, State.chan?_storeOut, State.chan?_setChan]
    by_cases hk : ch.toNat = k
    · subst hk
      exact .inr ⟨ch, c, c', rfl, hc, by rw [if_pos rfl, hc, Option.map_some], hwrite⟩
    · exact .inl (if_neg hk)

/-- Settles O52: a stored channel is a named one. -/
theorem otherChannelsUntouched : Obligations.OtherChannelsUntouched := by
  intro i s t k h hother
  obtain hsame | ⟨ch, _, _, hk, -, -, hwrite⟩ := exec_chan?_cases h k
  · exact hsame
  · exact absurd hk (hother ch hwrite.channel?)

/-! Buffers (R33, R49, R206). -/

/-- Settles O53: no effect has IBUF or the count of resets in it. -/
theorem commandsNeverWriteIbuf : Obligations.CommandsNeverWriteIbuf := by
  intro i s t a h
  cases exec_effect h <;> exact ⟨rfl, rfl⟩

/-- A range lies in a buffer when it is empty or ends at 8192 or before (R70). -/
theorem inBuffer_iff (a n : Nat) : inBuffer a n = true ↔ n = 0 ∨ a + n ≤ 8192 :=
  decide_eq_true_iff

/-- OUT_LEN holds any count of bytes that fit a buffer (R32). -/
theorem countWord_toNat {n : Nat} (h : inBuffer 0 n = true) : (countWord n).toNat = n := by
  have hn := (inBuffer_iff 0 n).1 h
  rw [countWord, BitVec.toNat_ofNat]
  omega

/-- A store leaves the OBUF bytes beyond it. -/
theorem State.obufByte_storeOut_of_le (s : State) {out : List Byte} {a : Nat} (h : out.length ≤ a) :
    (s.storeOut out).obufByte a = s.obufByte a := by
  rw [State.obufByte_storeOut, dif_neg (Nat.not_lt.2 h)]

/-- Settles O54: OUT_LEN counts the bytes stored, but after a failed decode, whose open bytes are as many as its size. -/
theorem obufKeptBeyondOutLen : Obligations.ObufKeptBeyondOutLen := by
  intro i s t a h hlen hdec
  cases exec_effect h with
  | faulted => rfl
  | answered out st v x hout =>
    rw [State.finish_outLen, countWord_toNat hout] at hlen
    exact s.obufByte_storeOut_of_le hlen
  | @wrote ch c c' hc hwrite out st v x hout =>
    rw [State.finish_outLen, countWord_toNat hout] at hlen
    exact (s.setChan ch c').obufByte_storeOut_of_le hlen
  | failedDecode m size hi e =>
    exact s.obufByte_storeOut_of_le (by simpa using hdec m size hi)

/-! Bit sinks (R52, R84). -/

/-- A flag goes to the end of the sink (R131). -/
theorem Chan.sink_sendFlag (c : Chan) : c.sink <+: (c.sendCtrl Config.flagByte).sink := by
  rw [Chan.sendCtrl_flagByte, Chan.pushNrzi_eq]
  exact List.prefix_append _ _

/-- Filler flags go to the end of the sink (R136). -/
theorem Chan.sink_sendFlags (k : Nat) (c : Chan) : c.sink <+: (c.sendFlags k).sink := by
  induction k generalizing c with
  | zero => exact List.prefix_rfl
  | succ k ih => exact c.sink_sendFlag.trans (ih _)

/-- Bits pushed without NRZI go to the end of the sink (R261). -/
theorem Chan.sink_putBits (bits : List Bit) (c : Chan) : c.sink <+: (c.putBits bits).sink := by
  rw [Chan.putBits_eq]
  exact List.prefix_append _ _

/-- Filler of either kind goes to the end of the sink (R136). -/
theorem Chan.sink_sendFiller (k : Nat) (c : Chan) : c.sink <+: (c.sendFiller k).sink := by
  simp only [Chan.sendFiller]
  split
  · exact Chan.sink_putBits _ c
  · exact c.sink_sendFlags k

/-- An HDLC frame goes to the end of the sink (R135). -/
theorem Chan.sink_sendFrame (frame : List Byte) (f : Bit) (c : Chan) :
    c.sink <+: (c.startCount.sendFrame frame f).sink := by
  rw [Chan.startCount_sendFrame]
  exact List.prefix_append _ _

/-! Receiving leaves the transmit side as it is, field by field (R47). -/

@[simp] theorem Chan.rxLevels_cfg (levels : List Bit) (c : Chan) : (c.rxLevels levels).1.cfg = c.cfg :=
  congrArg (fun (cfg, _, _, _, _) => cfg) (c.txSide_rxLevels levels)

@[simp] theorem Chan.rxLevels_stuffCnt (levels : List Bit) (c : Chan) : (c.rxLevels levels).1.stuffCnt = c.stuffCnt :=
  congrArg (fun (_, stuffCnt, _, _, _) => stuffCnt) (c.txSide_rxLevels levels)

@[simp] theorem Chan.rxLevels_nrziLvl (levels : List Bit) (c : Chan) : (c.rxLevels levels).1.nrziLvl = c.nrziLvl :=
  congrArg (fun (_, _, nrziLvl, _, _) => nrziLvl) (c.txSide_rxLevels levels)

@[simp] theorem Chan.rxLevels_sink (levels : List Bit) (c : Chan) : (c.rxLevels levels).1.sink = c.sink :=
  congrArg (fun (_, _, _, _, sink) => sink) (c.txSide_rxLevels levels)

/-- Whatever a command stores for a channel, its sink goes on from the old one. -/
theorem ChanWrite.sink {s : State} {ch : BitVec 8} {c c' : Chan} {i : Instr} (h : ChanWrite s ch c i c') :
    c.sink <+: c'.sink := by
  cases h with
  | cfgWrite | il2pRefused => exact List.prefix_rfl
  | hdlcSend | l2Hdlc => exact c.sink_sendFrame _ _
  | preamble n => exact c.startCount.sink_sendFiller _
  | preambleFlush n => exact (c.startCount.sink_sendFiller _).trans (List.prefix_append _ _)
  | hdlcRx n => rw [Chan.rxLevels_sink]
  | il2pSend | l2Il2p | l2Fx25 => exact c.startCount.sink_putBits _

/-- Settles O55: a channel that is not stored keeps its sink, a stored one extends it. -/
theorem sinksOnlyGrow : Obligations.SinksOnlyGrow := by
  intro i s t k c h hc
  obtain hsame | ⟨ch, d, c', -, hd, hc', hwrite⟩ := exec_chan?_cases h k
  · exact ⟨c, [], hsame.trans hc, (List.append_nil _).symm⟩
  · obtain rfl : c = d := Option.some.inj (hc.symm.trans hd)
    obtain ⟨items, hitems⟩ := hwrite.sink
    exact ⟨c', items, hc', hitems.symm⟩

/-! Owners (R47, R51). -/

@[simp] theorem Chan.il2pTx_nrziLvl (b : List Byte) (inv : Bit) (c : Chan) : (c.il2pTx b inv).nrziLvl = c.nrziLvl := by
  rw [Chan.il2pTx, Chan.putBits_eq]

/-- The filler of an IL2P channel leaves the codec state (R136). -/
theorem Chan.sendFiller_codec_of_il2p {c : Chan} (hmode : (effCfg c.cfg).mode = modeIl2p) (k : Nat) :
    (c.sendFiller k).stuffCnt = c.stuffCnt ∧ (c.sendFiller k).nrziLvl = c.nrziLvl := by
  simp [Chan.sendFiller, hmode]

/-- L2_SEND takes the IL2P path on an IL2P channel whose frame is accepted (R263 step 1). -/
theorem layer2Path_of_modeIl2p {C : Codec} {ch : Nat} {frame bytes : List Byte} {c : Chan}
    (hmode : (effCfg c.cfg).mode = modeIl2p) (hframe : il2pFrame C frame (effCfg c.cfg) = .ok bytes) :
    layer2Path C ch frame c = .il2p bytes := by
  simp only [layer2Path, if_pos hmode, hframe]

section Owners

variable {s : State} {ch : BitVec 8} {c c' : Chan} {i : Instr}

/-- The codec state is kept but by HDLC_SEND, PREAMBLE with flags, and L2_SEND off the IL2P path. -/
theorem ChanWrite.codec_kept (h : ChanWrite s ch c i c') (hsend : ∀ f n, i ≠ .hdlcSend ch f n)
    (hpreamble : ∀ f n, i = .preamble ch f n → (effCfg c.cfg).mode = modeIl2p)
    (hl2 : ∀ f n, i = .l2Send ch f n →
      ∃ bytes, layer2Path Codec.machine ch.toNat (s.ibufBytes 0 n.toNat) c = .il2p bytes) :
    c'.stuffCnt = c.stuffCnt ∧ c'.nrziLvl = c.nrziLvl := by
  cases h with
  | cfgWrite | il2pRefused => exact ⟨rfl, rfl⟩
  | hdlcSend f n => exact absurd rfl (hsend f n)
  | preamble n | preambleFlush n => exact c.startCount.sendFiller_codec_of_il2p (hpreamble _ n rfl) n.toNat
  | hdlcRx n => exact ⟨Chan.rxLevels_stuffCnt _ _, Chan.rxLevels_nrziLvl _ _⟩
  | il2pSend | l2Il2p => exact ⟨Chan.il2pTx_stuffCnt _ _ _, Chan.il2pTx_nrziLvl _ _ _⟩
  | l2Hdlc f n hpath | l2Fx25 f n bits st hpath =>
    obtain ⟨bytes, hil2p⟩ := hl2 f n rfl
    exact nomatch hpath.symm.trans hil2p

/-- Configuration and receive state are kept but by CFG_WRITE and HDLC_RX. -/
theorem ChanWrite.rxSide_kept (h : ChanWrite s ch c i c') (hcfg : ∀ v, i ≠ .cfgWrite ch v)
    (hrx : ∀ n, i ≠ .hdlcRx ch n) : c'.rxSide = c.rxSide := by
  cases h with
  | cfgWrite v => exact absurd rfl (hcfg v)
  | hdlcRx n => exact absurd rfl (hrx n)
  | hdlcSend | preamble | preambleFlush | il2pRefused | il2pSend | l2Hdlc | l2Il2p => simp
  | l2Fx25 f n bits => exact (c.startCount.rxSide_putBits bits).trans c.rxSide_startCount

/-- The receive state is kept but by HDLC_RX: CFG_WRITE writes the configuration only. -/
theorem ChanWrite.receive_kept (h : ChanWrite s ch c i c') (hrx : ∀ n, i ≠ .hdlcRx ch n) :
    c'.rxLvl = c.rxLvl ∧ c'.rxOnes = c.rxOnes ∧ c'.rxSync = c.rxSync ∧ c'.rxAcc = c.rxAcc := by
  by_cases hcfg : ∃ v, i = .cfgWrite ch v
  · obtain ⟨v, rfl⟩ := hcfg
    cases h
    exact ⟨rfl, rfl, rfl, rfl⟩
  · have hside := h.rxSide_kept (not_exists.1 hcfg) hrx
    simp only [Chan.rxSide, Prod.mk.injEq] at hside
    exact hside.2

/-- The configuration is kept but by CFG_WRITE: HDLC_RX writes the receive state only. -/
theorem ChanWrite.cfg_kept (h : ChanWrite s ch c i c') (hcfg : ∀ v, i ≠ .cfgWrite ch v) : c'.cfg = c.cfg := by
  by_cases hrx : ∃ n, i = .hdlcRx ch n
  · obtain ⟨n, rfl⟩ := hrx
    cases h
    exact Chan.rxLevels_cfg _ _
  · exact congrArg Prod.fst (h.rxSide_kept hcfg (not_exists.1 hrx))

end Owners

/-- Settles O56: a channel that is not stored keeps everything; for a stored one each owner is a constructor of
`ChanWrite`. -/
theorem onlyOwnersWriteChannelState : Obligations.OnlyOwnersWriteChannelState := by
  intro i s t k c c' h hc hc'
  obtain hsame | ⟨ch, d, d', rfl, hd, hd', hwrite⟩ := exec_chan?_cases h k
  · obtain rfl : c' = c := Option.some.inj (hc'.symm.trans (hsame.trans hc))
    exact ⟨fun _ _ _ => ⟨rfl, rfl⟩, fun _ => ⟨rfl, rfl, rfl, rfl⟩, fun _ => rfl⟩
  · obtain rfl : c = d := Option.some.inj (hc.symm.trans hd)
    obtain rfl : c' = d' := Option.some.inj (hc'.symm.trans hd')
    refine ⟨fun hsend hpreamble hl2 => ?_, fun hrx => ?_, fun hcfg => ?_⟩
    · refine hwrite.codec_kept (fun f n hi => hsend ch f n hi rfl) (fun f n hi => hpreamble ch f n hi rfl)
        fun f n hi => ?_
      obtain ⟨bytes, hmode, hframe⟩ := hl2 ch f n hi rfl
      exact ⟨bytes, layer2Path_of_modeIl2p hmode hframe⟩
    · exact hwrite.receive_kept fun n hi => hrx ch n hi rfl
    · exact hwrite.cfg_kept fun v hi => hcfg ch v hi rfl

end Sys2Proof.Machine
end

section
/-! SUPPORT. LOAD, the fields of a configuration value as arithmetic, and CFG_WRITE. Settles O13, O14 and O16. -/

namespace Sys2Proof.Machine

/-! LOAD (R49, R114). -/

/-- IBUF after a LOAD: inside, the byte given; outside, the byte before. -/
theorem State.ibufByte_load (s : State) (a x : Nat) (bytes : List Byte) :
    ({ s with ibuf := Memory.putBytes s.ibuf a bytes } : State).ibufByte x
      = if h : a ≤ x ∧ x < a + bytes.length then bytes[x - a]'(by omega) else s.ibufByte x := by
  simp only [State.ibufByte, Memory.get?_putBytes]
  split
  · rw [List.getElem?_eq_getElem (by omega), Option.getD_some]
  · rfl

/-- A step whose next action is a LOAD. -/
theorem step_load {s : State} {a : Nat} {bytes : List Byte} {rest : List HostAction} (h : s.host = .load a bytes :: rest) :
    step s = loadIbuf a bytes { s with host := rest } := by
  rw [step, takeAction, h]
  rfl

/-- Settles O13: the range check decides between the two clauses. -/
theorem loadWritesIbufOnly : Obligations.LoadWritesIbufOnly := by
  intro s a bytes rest hhost
  rw [step_load hhost, loadIbuf]
  constructor
  · intro hfits
    have hin : inBuffer a bytes.length = true := (inBuffer_iff _ _).2 (hfits.imp_left List.length_eq_zero_iff.2)
    exact ⟨_, guardRange_pos hin _, fun x => State.ibufByte_load { s with host := rest } a x bytes, rfl⟩
  · intro hne hbeyond
    have hout : ¬inBuffer a bytes.length = true := fun hin =>
      ((inBuffer_iff _ _).1 hin).elim (fun h0 => hne (List.length_eq_zero_iff.1 h0)) (Nat.not_le.2 hbeyond)
    exact if_neg hout

/-! Configuration fields (R38). -/

/-- A bit of a word, by arithmetic on its value. -/
theorem getLsbD_eq_decide {w : Nat} (v : BitVec w) (i : Nat) : v.getLsbD i = decide (v.toNat / 2 ^ i % 2 = 1) := by
  rw [BitVec.getLsbD, Nat.testBit_eq_decide_div_mod_eq]

theorem cfgMode_toNat (v : BitVec 12) : (cfgMode v).toNat = v.toNat % 4 := by
  simp [cfgMode]

theorem cfgFx25_toNat (v : BitVec 12) : (cfgFx25 v).toNat = v.toNat / 64 := by
  have hv := v.isLt
  rw [cfgFx25, BitVec.extractLsb'_toNat, Nat.shiftRight_eq_div_pow]
  omega

/-- MODE is the illegal one exactly when the value is 3 modulo 4 (R39). -/
theorem cfgMode_eq_illegal_iff (v : BitVec 12) : cfgMode v = modeIllegal ↔ v.toNat % 4 = 3 := by
  rw [← BitVec.toNat_inj, cfgMode_toNat]
  rfl

/-- Settles O14: VALID is bit 5, and chooses between the stored fields and the default. -/
theorem effectiveConfiguration : Obligations.EffectiveConfiguration := by
  intro v
  have hvalid : cfgValid v = decide (v.toNat / 32 % 2 = 1) := getLsbD_eq_decide v 5
  constructor
  · intro h1
    rw [effCfg, if_pos (by rw [hvalid, decide_eq_true h1])]
    exact ⟨cfgMode_toNat v, getLsbD_eq_decide v 2, getLsbD_eq_decide v 3, getLsbD_eq_decide v 4, cfgFx25_toNat v⟩
  · intro h0
    rw [effCfg, if_neg]
    rw [hvalid, decide_eq_true_iff]
    omega

/-! CFG_WRITE (R291). -/

/-- Settles O16: the channel check, then the MODE check. -/
theorem cfgWriteStoresOrFaults : Obligations.CfgWriteStoresOrFaults := by
  intro ch cfg s
  refine ⟨fun c hc hlegal => ?_, fun c hc hillegal => ?_, fun hnone => onChannel_none hnone _⟩
  · exact (onChannel_some hc _).trans (if_neg (mt (cfgMode_eq_illegal_iff cfg).1 hlegal))
  · exact (onChannel_some hc _).trans (if_pos ((cfgMode_eq_illegal_iff cfg).2 hillegal))

end Sys2Proof.Machine
end

section
/-! SUPPORT. Commands that write output bytes and nothing else but the result registers. Settles O32 and O44. -/

namespace Sys2Proof.Machine

/-! Output bytes (R33). -/

/-- OBUF after a store and a finish: the bytes stored, and beyond them the bytes before. -/
theorem State.obufHolds_storeOut (s : State) (out : List Byte) (st v a o : Word) :
    ObufHolds out s ((s.storeOut out).finish st v a o) :=
  ⟨s.obufBytes_storeOut out, fun _ h => s.obufByte_storeOut_of_le h⟩

/-- `finishOut` of bytes that fit OBUF goes on; it writes them and the result registers, and nothing else (R33). -/
theorem finishOut_of_fits {out : List Byte} (hout : inBuffer 0 out.length = true) (st v a : Word) (s : State) :
    ∃ t, finishOut out st v a s = .next t ∧ Results st v a (countWord out.length) t ∧ ObufHolds out s t
      ∧ SameButOutputs s t ∧ t.draws = s.draws :=
  ⟨_, guardRange_pos hout _, ⟨rfl, rfl, rfl, rfl⟩, s.obufHolds_storeOut out _ _ _ _, ⟨rfl, rfl, rfl, rfl, rfl⟩, rfl⟩

/-- The two bytes of a 16-bit field, cut from its bits or from its value (R82). -/
theorem le16_eq_lowHigh (v : Nat) : le16 v = lowHigh v := by
  have hlo : loByte (BitVec.ofNat 16 v) = BitVec.ofNat 8 (v % 256) := by
    apply BitVec.eq_of_toNat_eq
    simp [loByte]
  have hhi : hiByte (BitVec.ofNat 16 v) = BitVec.ofNat 8 (v / 256 % 256) := by
    apply BitVec.eq_of_toNat_eq
    simp only [hiByte, BitVec.extractLsb'_toNat, BitVec.toNat_ofNat, Nat.shiftRight_eq_div_pow]
    omega
  rw [le16, lowHigh, hlo, hhi]

/-! IL2P_PLAN (R188). -/

/-- A plan record has eight fields of two bytes (R188). -/
@[simp] theorem BlockPlan.length_toRecord (p : BlockPlan) : p.toRecord.length = 16 := rfl

/-- A size above 1023 has no plan (R180). -/
theorem plan_of_gt {n : Nat} (h : 1023 < n) (m : Bit) : plan n m = .error .invalidSize :=
  if_pos h

/-- IL2P_PLAN of a size that has a plan (R188). -/
theorem execIl2pPlan_of_ok {m : Bit} {size : BitVec 12} {p : BlockPlan} (hp : plan size.toNat m = .ok p) (s : State) :
    execIl2pPlan m size s = finishOut p.toRecord 0 (countWord p.encodedLength) (countWord p.blockCount) s := by
  simp only [execIl2pPlan, hp]

/-- IL2P_PLAN of a size that has none (R188). -/
theorem execIl2pPlan_of_error {m : Bit} {size : BitVec 12} {e : StatusError} (hp : plan size.toNat m = .error e)
    (s : State) : execIl2pPlan m size s = .next (s.finish e.code 0 0 0) := by
  simp only [execIl2pPlan, hp]

/-- Settles O32: every legal size has a plan, whose record of 16 bytes fits OBUF; a size above 1023 has none. -/
theorem il2pPlanWritesRecord : Obligations.Il2pPlanWritesRecord := by
  intro m size s
  constructor
  · intro hsize
    obtain ⟨p, hp, -⟩ := planIsSoundForLegalSizes size.toNat m hsize
    obtain ⟨t, ht, hresults, hobuf, hrest⟩ :=
      finishOut_of_fits (out := p.toRecord) rfl 0 (countWord p.encodedLength) (countWord p.blockCount) s
    refine ⟨p, t, hp, (execIl2pPlan_of_ok hp s).trans ht, hresults, ?_, hrest⟩
    simpa only [BlockPlan.toRecord, le16_eq_lowHigh] using hobuf
  · exact fun hsize => execIl2pPlan_of_error (plan_of_gt hsize m) s

/-! IL2P_CRC_ENC (R236). -/

/-- The four nibbles of a value of two bytes, the high one first (R82, R233). -/
theorem crcEnc4_le16Value (lo hi : Byte) :
    crcEnc4 (le16Value lo hi)
      = [hamEnc (hi.extractLsb' 4 4), hamEnc (hi.extractLsb' 0 4), hamEnc (lo.extractLsb' 4 4),
         hamEnc (lo.extractLsb' 0 4)] := by
  have hnibble (k : Nat) (v : BitVec 4) (h : (le16Value lo hi).toNat / 2 ^ k % 16 = v.toNat) :
      (le16Value lo hi).extractLsb' k 4 = v := by
    apply BitVec.eq_of_toNat_eq
    rw [BitVec.extractLsb'_toNat, Nat.shiftRight_eq_div_pow]
    exact h
  have hlo := lo.isLt
  rw [crcEnc4, hnibble 12 (hi.extractLsb' 4 4), hnibble 8 (hi.extractLsb' 0 4), hnibble 4 (lo.extractLsb' 4 4),
    hnibble 0 (lo.extractLsb' 0 4)]
  all_goals
    simp only [le16Value_toNat, BitVec.extractLsb'_toNat, Nat.shiftRight_eq_div_pow]
    omega

/-- Settles O44: the operand is IBUF[0] and IBUF[1], low byte first, and four codewords fit OBUF. -/
theorem il2pCrcEncWritesCodewords : Obligations.Il2pCrcEncWritesCodewords := by
  intro s
  have hexec : exec .il2pCrcEnc s
      = finishOut (crcEnc4 (le16Value (s.ibufByte 0) (s.ibufByte 1))) 0
          ((le16Value (s.ibufByte 0) (s.ibufByte 1)).setWidth 32) 0 s := rfl
  rw [hexec, ← crcEnc4_le16Value]
  exact finishOut_of_fits rfl _ _ _ s

end Sys2Proof.Machine
end

section
/-! SUPPORT. PREAMBLE on an IL2P channel. Settles O26. -/

namespace Sys2Proof.Machine

/-- The bits of equal bytes are equal groups of bits (R79). -/
theorem il2pBits_replicate (invert : Bit) (k : Nat) (x : Byte) :
    il2pBits invert (List.replicate k x) = (List.replicate k ((msbFirst x).map (· ^^ invert))).flatten := by
  rw [il2pBits, List.flatMap_def, List.map_replicate]

/-- A byte has eight bits, so `k` bytes have `8 * k`. -/
theorem length_il2pBits_replicate (invert : Bit) (k : Nat) (x : Byte) :
    (il2pBits invert (List.replicate k x)).length = 8 * k := by
  simp [il2pBits_replicate, msbFirst, Nat.mul_comm]

/-- The filler of an IL2P channel goes out plain, counted from 0 (R45, R136). -/
theorem Chan.startCount_sendFiller_of_il2p {c : Chan} (hmode : (effCfg c.cfg).mode = modeIl2p) (k : Nat) :
    c.startCount.sendFiller k
      = c.sentPlain (il2pBits (effCfg c.cfg).invert (List.replicate k Config.il2pPreambleByte)) := by
  rw [← Chan.startCount_putBits]
  exact if_pos hmode

/-- Settles O26: the filler is a plain sequence of eight bits a byte, and the flush marker goes after it. -/
theorem preambleSendsIl2pFiller : Obligations.PreambleSendsIl2pFiller := by
  intro ch finish nbytes s c hc hmode
  have hbyte : msbFirst Config.il2pPreambleByte = [false, true, false, true, false, true, false, true] := by decide
  have hexec : exec (.preamble ch finish nbytes) s = execPreamble ch finish nbytes s := rfl
  rw [hexec, execPreamble, onChannel_some hc, Chan.startCount_sendFiller_of_il2p hmode, ← hbyte, ← il2pBits_replicate,
    ← length_il2pBits_replicate (effCfg c.cfg).invert nbytes.toNat Config.il2pPreambleByte]
  cases finish with
  | false => simp only [Bool.false_eq_true, if_false, List.append_nil]; rfl
  | true => rfl

end Sys2Proof.Machine
end

section
/-! SUPPORT. What a channel command makes of its channel is decided by that channel and IBUF alone. Settles O57. -/

namespace Sys2Proof.Machine

/-- What a command makes of the channel it names, from the channel's state and the first bytes of IBUF (`frame n` is
IBUF[0..n)). -/
def Instr.chanAfter (frame : Nat → List Byte) (c : Chan) : Instr → Chan
  | .cfgWrite _ v => if cfgMode v = modeIllegal then c else { c with cfg := v }
  | .hdlcSend _ f n => c.startCount.sendFrame (frame n.toNat) f
  | .preamble _ finish n =>
    if finish then (c.startCount.sendFiller n.toNat).flush else c.startCount.sendFiller n.toNat
  | .hdlcRx _ n => (c.rxLevels ((frame n.toNat).map fun b => b.getLsbD 0)).1
  | .il2pSend _ n =>
    match il2pFrame Codec.machine (frame n.toNat) (effCfg c.cfg) with
    | .error _ => c.startCount
    | .ok bytes => c.startCount.il2pTx bytes (effCfg c.cfg).invert
  | .l2Send ch f n =>
    match layer2Path Codec.machine ch.toNat (frame n.toNat) c.startCount with
    | .il2p bytes => c.startCount.il2pTx bytes (effCfg c.cfg).invert
    | .fx25 bits st => { c.startCount.putBits bits with stuffCnt := st.1, nrziLvl := st.2 }
    | .hdlc => c.startCount.sendFrame (frame n.toNat) f
  | .nop | .cfgRead _ | .fcsCalc _ | .il2pPlan _ _ | .il2pEnc _ _ | .il2pDec _ _ | .il2pCrcEnc | .il2pCrcDec
  | .il2pCrcCheck _ => c

/-- The channel a command has stored. -/
theorem State.chan?_stored {s : State} {ch : BitVec 8} {c : Chan} (hc : s.chan? ch.toNat = some c) (c' : Chan)
    (out : List Byte) (st v a o : Word) : (((s.setChan ch c').storeOut out).finish st v a o).chan? ch.toNat = some c' := by
  rw [State.chan?_finish, State.chan?_storeOut, State.chan?_setChan, if_pos rfl, hc, Option.map_some]

/-- A channel command makes of its channel what its rule does; a missing channel stays missing (R306). -/
theorem onChannel_chan? {i : Instr} {ch : BitVec 8} {s t : State} {k : Chan → Result} {after : Chan → Chan}
    (h : onChannel i ch s k = .next t)
    (hk : ∀ c, s.chan? ch.toNat = some c → k c = .next t → t.chan? ch.toNat = some (after c)) :
    t.chan? ch.toNat = (s.chan? ch.toNat).map after := by
  obtain ⟨c, hc, hkc⟩ | ⟨hnone, rfl⟩ := onChannel_next h
  · rw [hc, hk c hc hkc, Option.map_some]
  · rw [hnone]
    exact hnone

/-- What every command makes of the channel it names (R85). -/
theorem exec_chan?_named {i : Instr} {ch : BitVec 8} {s t : State} (hi : i.channel? = some ch) (h : exec i s = .next t) :
    t.chan? ch.toNat = (s.chan? ch.toNat).map fun c => Instr.chanAfter (s.ibufBytes 0) c i := by
  cases i with
  | nop | fcsCalc | il2pPlan | il2pEnc | il2pDec | il2pCrcEnc | il2pCrcDec | il2pCrcCheck => cases hi
  | cfgWrite _ v =>
    cases hi
    refine onChannel_chan? h fun c hc hk => ?_
    split at hk
    · rename_i hmode
      obtain rfl := Host.Outcome.next.inj hk
      rw [Instr.chanAfter, if_pos hmode]
      exact hc
    · rename_i hmode
      obtain rfl := Host.Outcome.next.inj hk
      rw [Instr.chanAfter, if_neg hmode]
      exact State.chan?_stored hc _ [] _ _ _ _
  | cfgRead _ =>
    cases hi
    refine onChannel_chan? h fun c hc hk => ?_
    obtain rfl := Host.Outcome.next.inj hk
    exact hc
  | hdlcSend _ f n =>
    cases hi
    refine onChannel_chan? h fun c hc hk => ?_
    obtain rfl := Host.Outcome.next.inj (withIbuf_next hk).2
    exact State.chan?_stored hc _ [] _ _ _ _
  | preamble _ finish n =>
    cases hi
    refine onChannel_chan? h fun c hc hk => ?_
    obtain rfl := Host.Outcome.next.inj hk
    exact State.chan?_stored hc _ [] _ _ _ _
  | hdlcRx _ n =>
    cases hi
    refine onChannel_chan? h fun c hc hk => ?_
    obtain ⟨-, rfl⟩ := finishOut_next (withIbuf_next hk).2
    exact State.chan?_stored hc _ _ _ _ _ _
  | il2pSend _ n =>
    cases hi
    refine onChannel_chan? h fun c hc hk => ?_
    obtain rfl := Host.Outcome.next.inj (withIbuf_next hk).2
    split
    · rename_i e hframe
      simp only [Instr.chanAfter, hframe]
      exact State.chan?_stored hc _ [] _ _ _ _
    · rename_i bytes hframe
      simp only [Instr.chanAfter, hframe]
      exact State.chan?_stored hc _ [] _ _ _ _
  | l2Send _ f n =>
    cases hi
    refine onChannel_chan? h fun c hc hk => ?_
    obtain rfl := Host.Outcome.next.inj (withIbuf_next hk).2
    split
    · rename_i bytes hpath
      simp only [Instr.chanAfter, hpath]
      exact State.chan?_stored hc _ [] _ _ _ _
    · rename_i bits st hpath
      simp only [Instr.chanAfter, hpath]
      exact State.chan?_stored hc _ [] _ _ _ _
    · rename_i hpath
      simp only [Instr.chanAfter, hpath]
      exact State.chan?_stored hc _ [] _ _ _ _

/-- No command changes what the next one reads from IBUF (R49). -/
theorem exec_ibufBytes {i : Instr} {s t : State} (h : exec i s = .next t) : t.ibufBytes = s.ibufBytes := by
  funext a n
  exact List.map_congr_left fun x _ => (commandsNeverWriteIbuf i s t (a + x) h).1

section TwoCommands

variable {i j : Instr} {a b : BitVec 8} {s t u : State}

/-- A command leaves a channel other than the one it names (R85). -/
theorem exec_chan?_other (hi : i.channel? = some a) {k : Nat} (hk : a.toNat ≠ k) (h : exec i s = .next t) :
    t.chan? k = s.chan? k := by
  refine otherChannelsUntouched i s t k h fun ch hch => ?_
  obtain rfl := Option.some.inj (hi.symm.trans hch)
  exact hk

/-- After two commands on different channels the first channel is as the first command leaves it. -/
theorem exec_exec_chan?_first (hi : i.channel? = some a) (hj : j.channel? = some b) (hab : a ≠ b)
    (h : exec i s = .next t) (h' : exec j t = .next u) :
    u.chan? a.toNat = (s.chan? a.toNat).map fun c => Instr.chanAfter (s.ibufBytes 0) c i := by
  rw [exec_chan?_other hj (fun he => hab (BitVec.eq_of_toNat_eq he.symm)) h', exec_chan?_named hi h]

/-- After two commands on different channels the second channel is as the second command alone would leave it: the first
one left both the channel and IBUF. -/
theorem exec_exec_chan?_second (hi : i.channel? = some a) (hj : j.channel? = some b) (hab : a ≠ b)
    (h : exec i s = .next t) (h' : exec j t = .next u) :
    u.chan? b.toNat = (s.chan? b.toNat).map fun c => Instr.chanAfter (s.ibufBytes 0) c j := by
  rw [exec_chan?_named hj h', exec_ibufBytes h, exec_chan?_other hi (fun he => hab (BitVec.eq_of_toNat_eq he)) h]

/-- Two commands leave every channel that neither names (R85). -/
theorem exec_exec_chan?_other (hi : i.channel? = some a) (hj : j.channel? = some b) {k : Nat} (ha : a.toNat ≠ k)
    (hb : b.toNat ≠ k) (h : exec i s = .next t) (h' : exec j t = .next u) : u.chan? k = s.chan? k :=
  (exec_chan?_other hj hb h').trans (exec_chan?_other hi ha h)

end TwoCommands

/-- Settles O57: in either order each named channel is what its own command makes of it in the first state, and every other
channel and IBUF are as they were. -/
theorem commandsOnDifferentChannelsCommute : Obligations.CommandsOnDifferentChannelsCommute := by
  intro i j a b s s₁ s₂ t₁ t₂ hi hj hab hs₁ hs₂ ht₁ ht₂
  constructor
  · refine List.ext_getElem? fun k => show s₂.chan? k = t₂.chan? k from ?_
    by_cases ha : a.toNat = k
    · subst ha
      rw [exec_exec_chan?_first hi hj hab hs₁ hs₂, exec_exec_chan?_second hj hi hab.symm ht₁ ht₂]
    by_cases hb : b.toNat = k
    · subst hb
      rw [exec_exec_chan?_second hi hj hab hs₁ hs₂, exec_exec_chan?_first hj hi hab.symm ht₁ ht₂]
    · rw [exec_exec_chan?_other hi hj ha hb hs₁ hs₂, exec_exec_chan?_other hj hi hb ha ht₁ ht₂]
  · have hkept {i : Instr} {s t : State} (h : exec i s = .next t) : t.ibuf = s.ibuf :=
      (commandsNeverWriteIbuf i s t 0 h).2
    rw [hkept hs₂, hkept hs₁, hkept ht₂, hkept ht₁]

end Sys2Proof.Machine
end

section
/-! SUPPORT. The receiver over a sequence of levels: what it delivers, and how much room the records take. Settles O27. -/

namespace Sys2Proof.Machine

/-! One level (R139, R140). -/

/-- The four things a level can be, by the run of 1s before it and by whether it repeats the last level: a stuffed bit or
part of a flag, an abort, a flag, or data (R140). -/
theorem rxLevel_cases (ones : BitVec 3) (same : Prop) :
    ones = 5 ∨ (same ∧ 6 ≤ ones.toNat) ∨ (¬same ∧ ones = 6) ∨ (ones.toNat < 5 ∨ (ones = 7 ∧ ¬same)) := by
  have hones : ones = 5 ∨ ones = 6 ∨ ones = 7 ∨ ones.toNat < 5 := by revert ones; decide
  by_cases hsame : same
  · obtain h5 | rfl | rfl | hlt := hones
    · exact .inl h5
    · exact .inr (.inl ⟨hsame, le_rfl⟩)
    · exact .inr (.inl ⟨hsame, by decide⟩)
    · exact .inr (.inr (.inr (.inl hlt)))
  · obtain h5 | h6 | h7 | hlt := hones
    · exact .inl h5
    · exact .inr (.inr (.inl ⟨hsame, h6⟩))
    · exact .inr (.inr (.inr (.inr ⟨h7, hsame⟩)))
    · exact .inr (.inr (.inr (.inl hlt)))

/-- One level makes RX_ACC at most one bit longer (R140). -/
theorem RxTransition.length_acc_le {c c' : Chan} {level : Bit} {delivered : List (List Byte)}
    (h : RxTransition c c' level delivered) : c'.rxAcc.length ≤ c.rxAcc.length + 1 := by
  obtain h5 | ⟨hsame, h6⟩ | ⟨hdiff, h6⟩ | hdata := rxLevel_cases c.rxOnes (level = c.rxLvl)
  · rw [(h.skip h5).2]
    omega
  · rw [(h.abort hsame h6).2]
    exact Nat.zero_le _
  · rw [(h.flag hdiff h6).2]
    exact Nat.zero_le _
  · have hacc := h.data hdata
    split_ifs at hacc <;> simp [hacc.2]

/-- RX_ACC is within its bound after every level, whatever it was before (R46, R140). -/
theorem Chan.length_rxAcc_rxBit (d : Bit) (c : Chan) : (c.rxBit d).1.rxAcc.length ≤ 16390 := by
  have hlimit (c : Chan) : c.rxLimit.rxAcc.length ≤ 16390 := by
    unfold Chan.rxLimit
    split
    · exact Nat.zero_le _
    · rename_i h
      exact Nat.not_lt.1 h
  cases d <;> exact hlimit _

/-- The bits that hold a frame: its body and FCS, and the six bits of the closing flag before its last 0 (R140). -/
theorem AccHolds.length_acc {acc : List Bit} {body : List Byte} (h : AccHolds acc body) :
    acc.length = 8 * (body.length + 2) + 6 := by
  obtain ⟨-, h6, hbits⟩ := h
  have hlength := congrArg List.length hbits
  simp only [List.length_take, length_flatMap_lsbFirst, List.length_append, List.length_cons, List.length_nil] at hlength
  omega

/-- A body delivered from an RX_ACC within its bound has 1 to 2046 bytes (R11, R140). -/
theorem AccHolds.length_body {acc : List Bit} {body : List Byte} (h : AccHolds acc body) (hacc : acc.length ≤ 16390) :
    1 ≤ body.length ∧ body.length ≤ 2046 := by
  have hlength := h.length_acc
  exact ⟨h.1, by omega⟩

/-- A record takes two bytes more than its body (R141). -/
@[simp] theorem length_rxRecord (body : List Byte) : (rxRecord body).length = body.length + 2 := by
  rw [rxRecord, List.length_append, Nat.add_comm]
  rfl

/-- What a level delivers is paid for by the bits it takes out of RX_ACC, eight for each byte of the record (R141). -/
theorem RxTransition.records_le {c c' : Chan} {level : Bit} {delivered : List (List Byte)}
    (h : RxTransition c c' level delivered) :
    c'.rxAcc.length + 8 * (delivered.flatMap rxRecord).length ≤ c.rxAcc.length + 1 := by
  match hd : delivered, h.atMostOne with
  | [], _ => exact h.length_acc_le
  | [body], _ =>
    obtain ⟨hdiff, h6, -, hbody⟩ := (h.delivers body).1 rfl
    rw [(h.flag hdiff h6).2, List.flatMap_singleton, length_rxRecord, hbody.length_acc]
    simp only [List.length_nil]
    omega

/-! A sequence of levels (R141). -/

/-- A sequence of one level is that level through the NRZI decoder and the deframer (R141). -/
theorem Chan.rxLevels_singleton (level : Bit) (c : Chan) :
    c.rxLevels [level]
      = ((((c.nrziRecv level).2).rxBit (c.nrziRecv level).1).1,
         (((c.nrziRecv level).2).rxBit (c.nrziRecv level).1).2.toList) := by
  simp [Chan.rxLevels]

/-- Everything one level does, as a sequence of one (R139, R140). -/
theorem Chan.rxLevels_transition {c : Chan} (hc : c.rxAcc.length ≤ 16390) (level : Bit) :
    RxTransition c (c.rxLevels [level]).1 level (c.rxLevels [level]).2 := by
  rw [Chan.rxLevels_singleton]
  exact rxBit_transition hc level

/-- RX_ACC stays within its bound (R46). -/
theorem Chan.length_rxAcc_rxLevels {c : Chan} (hc : c.rxAcc.length ≤ 16390) (levels : List Bit) :
    (c.rxLevels levels).1.rxAcc.length ≤ 16390 := by
  induction levels generalizing c with
  | nil => exact hc
  | cons level levels ih => exact ih (Chan.length_rxAcc_rxBit _ _)

/-- Levels taken one by one (R141). -/
theorem Chan.rxLevels_cons (level : Bit) (levels : List Bit) (c : Chan) :
    c.rxLevels (level :: levels)
      = (((c.rxLevels [level]).1.rxLevels levels).1, (c.rxLevels [level]).2 ++ ((c.rxLevels [level]).1.rxLevels levels).2) :=
  Chan.rxLevels_append [level] levels c

/-- The records of a sequence take at most one byte for eight bits received or already accumulated (R73, R141). -/
theorem Chan.rxLevels_records_le {c : Chan} (hc : c.rxAcc.length ≤ 16390) (levels : List Bit) :
    (c.rxLevels levels).1.rxAcc.length + 8 * ((c.rxLevels levels).2.flatMap rxRecord).length
      ≤ c.rxAcc.length + levels.length := by
  induction levels generalizing c with
  | nil => simp [Chan.rxLevels]
  | cons level levels ih =>
    have hfirst := (Chan.rxLevels_transition hc level).records_le
    have hrest := ih (Chan.length_rxAcc_rxLevels hc [level])
    rw [Chan.rxLevels_cons]
    simp only [List.flatMap_append, List.length_append, List.length_cons]
    omega

/-- A delivered body stood in RX_ACC when one of the levels arrived (R140). -/
theorem Chan.rxLevels_delivered {c : Chan} (hc : c.rxAcc.length ≤ 16390) {levels : List Bit} {body : List Byte}
    (h : body ∈ (c.rxLevels levels).2) :
    ∃ pre level post, levels = pre ++ level :: post ∧ AccHolds (c.rxLevels pre).1.rxAcc body := by
  induction levels generalizing c with
  | nil => exact absurd h List.not_mem_nil
  | cons level levels ih =>
    rw [Chan.rxLevels_cons, List.mem_append] at h
    obtain hfirst | hrest := h
    · have htrans := Chan.rxLevels_transition hc level
      have hone : (c.rxLevels [level]).2 = [body] := by
        obtain ⟨x, hx⟩ := List.length_eq_one_iff.1
          (Nat.le_antisymm htrans.atMostOne (List.length_pos_of_mem hfirst))
        rw [hx, List.mem_singleton] at hfirst
        rw [hx, hfirst]
      obtain ⟨-, -, -, hbody⟩ := (htrans.delivers body).1 hone
      exact ⟨[], level, levels, rfl, hbody⟩
    · obtain ⟨pre, next, post, hlevels, hbody⟩ := ih (Chan.length_rxAcc_rxLevels hc [level]) hrest
      refine ⟨level :: pre, next, post, by rw [hlevels, List.cons_append], ?_⟩
      rwa [Chan.rxLevels_cons]

/-! HDLC_RX (R141). -/

/-- The records of HDLC_RX fit OBUF: at most 16390 bits accumulated before it and 4095 received (R73). -/
theorem Chan.rxRecords_fit {c : Chan} (hc : c.rxAcc.length ≤ 16390) {levels : List Bit} {n : BitVec 12}
    (hlevels : levels.length = n.toNat) : inBuffer 0 ((c.rxLevels levels).2.flatMap rxRecord).length = true := by
  have hle := Chan.rxLevels_records_le hc levels
  have hn := n.isLt
  exact inBuffer_of_le (by simp only [Config.bufSize]; omega)

/-- HDLC_RX on a channel that exists (R141). -/
theorem execHdlcRx_of_chan {ch : BitVec 8} {s : State} {c : Chan} (hc : s.chan? ch.toNat = some c) (n : BitVec 12)
    {r : Chan × List (List Byte)} (hr : c.rxLevels ((s.ibufBytes 0 n.toNat).map fun b => b.getLsbD 0) = r) :
    execHdlcRx ch n s = finishOut (r.2.flatMap rxRecord) (countWord r.2.length) 0 0 (s.setChan ch r.1) := by
  rw [execHdlcRx, onChannel_some hc, withIbuf_pos (inBuffer_len n)]
  simp only [hr]

/-- A channel with the transmit side of another differs from it in its receive state only (R47). -/
theorem Chan.eq_of_txSide {c c' : Chan} (h : c'.txSide = c.txSide) :
    c' = { c with rxLvl := c'.rxLvl, rxOnes := c'.rxOnes, rxSync := c'.rxSync, rxAcc := c'.rxAcc } := by
  simp only [Chan.txSide, Prod.mk.injEq] at h
  obtain ⟨hcfg, hstuff, hlvl, hbits, hsink⟩ := h
  rw [← hcfg, ← hstuff, ← hlvl, ← hbits, ← hsink]

/-- Settles O27: what the command leaves is that of its output and of the stored channel; the records and the bodies are
followed level by level. -/
theorem hdlcRxWritesRecords : Obligations.HdlcRxWritesRecords := by
  intro ch nlevels s c hc hacc levels r out
  have hlength : levels.length = nlevels.toNat := by simp [levels]
  have hrecord : (fun body : List Byte => lowHigh body.length ++ body) = rxRecord :=
    funext fun body => by rw [rxRecord, le16_eq_lowHigh]
  have hout : out = r.2.flatMap rxRecord := congrArg r.2.flatMap hrecord
  refine ⟨?_, fun body hbody => ?_, fun pre level post _ => ?_⟩
  · obtain ⟨t, ht, hresults, hobuf, ⟨hfault, hchans, hibuf, hhost, hresets⟩, hdraws⟩ :=
      finishOut_of_fits (Chan.rxRecords_fit hacc hlength) (countWord r.2.length) 0 0 (s.setChan ch r.1)
    have hroom := Chan.rxLevels_records_le hacc levels
    refine ⟨t, (execHdlcRx_of_chan hc nlevels rfl).trans ht, hout ▸ hresults, hout ▸ hobuf, ?_, ?_, hfault, hibuf, hhost,
      hresets, hdraws⟩
    · rw [hout]
      exact (Nat.le_add_left _ _).trans (hroom.trans_eq (by rw [hlength]))
    · rw [hchans, State.setChan_chans, ← Chan.eq_of_txSide (c.txSide_rxLevels levels)]
  · obtain ⟨pre, level, post, hsplit, hholds⟩ := Chan.rxLevels_delivered hacc hbody
    obtain ⟨hmin, hmax⟩ := hholds.length_body (Chan.length_rxAcc_rxLevels hacc pre)
    exact ⟨hmin, hmax, pre, level, post, hsplit, hholds⟩
  · rw [Chan.rxLevels_append]
    exact ⟨_, rfl, Chan.rxLevels_transition (Chan.length_rxAcc_rxLevels hacc pre) level⟩

end Sys2Proof.Machine
end

section
/-! SUPPORT. From a sound state every action of the host that fits goes on, command by command. Settles O60. -/

namespace Sys2Proof.Machine

section Commands

variable {s : State}

/-- A channel command goes on when its rule does on the channel; a missing channel is a fault, which is a next state
(R304, R306). -/
theorem onChannel_goes_on {i : Instr} {ch : BitVec 8} {k : Chan → Result}
    (hk : ∀ c, s.chan? ch.toNat = some c → ∃ t, k c = .next t) : ∃ t, onChannel i ch s k = .next t := by
  cases hc : s.chan? ch.toNat with
  | some c => rw [onChannel_some hc]; exact hk c hc
  | none => exact ⟨_, onChannel_none hc _⟩

/-- A command that reads a LEN field's bytes of IBUF goes on when what follows does (R73). -/
theorem withIbuf_len_goes_on (n : BitVec 12) {k : List Byte → Result} (hk : ∃ t, k (s.ibufBytes 0 n.toNat) = .next t) :
    ∃ t, withIbuf 0 n.toNat s k = .next t := by
  rwa [withIbuf_pos (inBuffer_len n)]

theorem finishOut_goes_on {out : List Byte} (hout : inBuffer 0 out.length = true) (st v a : Word) :
    ∃ t, finishOut out st v a s = .next t :=
  ⟨_, guardRange_pos hout _⟩

/-- What IL2P_ENC writes and IL2P_DEC reads fits a buffer (R73, R187). -/
theorem inBuffer_encodedLength (n : Nat) (m : Bit) : inBuffer 0 (encodedLength n m) = true := by
  refine inBuffer_of_le ?_
  cases hp : plan n m with
  | error e => simp only [encodedLength, hp]; exact Nat.zero_le _
  | ok p =>
    obtain ⟨q, hq, -, -, -, -, -, -, -, -, -, -, -, -, hmax⟩ := planIsSoundForLegalSizes n m (plan_ok_size_le hp)
    obtain rfl : p = q := Except.ok.inj (hp.symm.trans hq)
    simp only [encodedLength, hp, Config.bufSize]
    split at hmax <;> omega

theorem execCfgWrite_goes_on (ch : BitVec 8) (cfg : BitVec 12) : ∃ t, execCfgWrite ch cfg s = .next t := by
  refine onChannel_goes_on fun c _ => ?_
  split <;> exact ⟨_, rfl⟩

/-- The bound on RX_ACC is what keeps the records of HDLC_RX inside OBUF (R46, R73). -/
theorem execHdlcRx_goes_on (hs : s.Sound) (ch : BitVec 8) (n : BitVec 12) : ∃ t, execHdlcRx ch n s = .next t := by
  refine onChannel_goes_on fun c hc => withIbuf_len_goes_on n (finishOut_goes_on ?_ _ _ _)
  exact Chan.rxRecords_fit (hs.of_chan? hc).accBound (n := n) (by simp)

theorem execFcsCalc_goes_on (n : BitVec 12) : ∃ t, execFcsCalc n s = .next t :=
  withIbuf_len_goes_on n ⟨_, rfl⟩

theorem execIl2pPlan_goes_on (m : Bit) (size : BitVec 12) : ∃ t, execIl2pPlan m size s = .next t := by
  unfold execIl2pPlan
  split
  · exact ⟨_, rfl⟩
  · exact finishOut_goes_on rfl _ _ _

theorem execIl2pEnc_goes_on (m : Bit) (size : BitVec 12) : ∃ t, execIl2pEnc m size s = .next t := by
  unfold execIl2pEnc
  split
  · exact ⟨_, rfl⟩
  · exact withIbuf_len_goes_on size ⟨_, guardRange_pos (inBuffer_encodedLength _ m) _⟩

theorem execIl2pDec_goes_on (m : Bit) (size : BitVec 12) : ∃ t, execIl2pDec m size s = .next t := by
  unfold execIl2pDec
  split
  · exact ⟨_, rfl⟩
  · rw [withIbuf_pos (inBuffer_encodedLength _ m)]
    exact ⟨_, guardRange_pos (inBuffer_len size) _⟩

theorem execIl2pCrcCheck_goes_on (n : BitVec 12) : ∃ t, execIl2pCrcCheck n s = .next t :=
  withIbuf_len_goes_on n ⟨_, withIbuf_pos (inBuffer_afterLen n) _ _⟩

/-- Every command goes on (R73, R88). -/
theorem exec_goes_on (hs : s.Sound) (i : Instr) : ∃ t, exec i s = .next t := by
  cases i with
  | nop => exact ⟨_, rfl⟩
  | cfgWrite ch cfg => exact execCfgWrite_goes_on ch cfg
  | cfgRead ch => exact onChannel_goes_on fun _ _ => ⟨_, rfl⟩
  | hdlcSend ch f n => exact onChannel_goes_on fun _ _ => withIbuf_len_goes_on n ⟨_, rfl⟩
  | preamble ch f nbytes => exact onChannel_goes_on fun _ _ => ⟨_, rfl⟩
  | hdlcRx ch nlevels => exact execHdlcRx_goes_on hs ch nlevels
  | fcsCalc n => exact execFcsCalc_goes_on n
  | il2pPlan f size => exact execIl2pPlan_goes_on f size
  | il2pEnc f size => exact execIl2pEnc_goes_on f size
  | il2pDec f size => exact execIl2pDec_goes_on f size
  | il2pCrcEnc => exact ⟨_, rfl⟩
  | il2pCrcDec => exact ⟨_, rfl⟩
  | il2pCrcCheck n => exact execIl2pCrcCheck_goes_on n
  | il2pSend ch n => exact onChannel_goes_on fun _ _ => withIbuf_len_goes_on n ⟨_, rfl⟩
  | l2Send ch f n => exact onChannel_goes_on fun _ _ => withIbuf_len_goes_on n ⟨_, rfl⟩

/-- Every command word goes on: ignored, run or rejected (R108, R305). -/
theorem runCommand_goes_on (hs : s.Sound) (w : Word) : ∃ t, runCommand w s = .next t := by
  unfold runCommand
  split
  · exact ⟨_, rfl⟩
  · split
    · exact exec_goes_on hs _
    · exact ⟨_, rfl⟩

end Commands

/-- Settles O60: a step waits or takes one action of the host; a command word goes on, and a LOAD that fits does. -/
theorem soundStatesNeverStop : Obligations.SoundStatesNeverStop := by
  intro s hs hfits
  cases hhost : s.host with
  | nil => exact ⟨s, by rw [step, takeAction, hhost]⟩
  | cons act rest =>
    have hstep : step s = hostAct act { s with host := rest } := by
      rw [step, takeAction, hhost]
    rw [hstep]
    cases act with
    | cmd w => exact runCommand_goes_on (hs.withHost rest) w
    | load a bytes => exact ⟨_, guardRange_pos (hfits a bytes (by rw [hhost, List.head?_cons])) _⟩
    | reset => exact ⟨_, rfl⟩

end Sys2Proof.Machine
end

section
/-! SUPPORT. The opcode map as a table: a row matches its own words and no other row's, and every command is made by one
row. Settles O1, O2, O3 and O5. -/

namespace Sys2Proof

/-- The word of a row: its OP, RSV = 0, the fields it names as given and 0 in those it does not (R109). -/
def OpRow.word (r : OpRow) (len : BitVec 12) (f : Bit) (ch : BitVec 8) : Word :=
  packFields (if r.lenFree then len else 0) 0 (r.fFree && f) (if r.chFree then ch else 0) r.op

/-! One row of the map. -/

/-- A row matches a word when OP is its own, RSV is 0 and every field it does not name is 0 (R105, R109). -/
theorem OpRow.accepts_iff (r : OpRow) (w : Word) :
    r.accepts w = true
      ↔ (r.lenFree = true ∨ lenField w = 0) ∧ rsvField w = 0 ∧ (r.fFree = true ∨ fField w = false)
          ∧ (r.chFree = true ∨ chField w = 0) ∧ opField w = r.op := by
  conv_lhs => rw [← packFields_fields w]
  exact r.accepts_packFields ..

/-- A row matches only words of its OP. -/
theorem OpRow.opField_of_accepts {r : OpRow} {w : Word} (h : r.accepts w = true) : opField w = r.op := by
  obtain ⟨_, _, _, _, hop⟩ := (r.accepts_iff w).mp h
  exact hop

/-- A row matches its words. -/
theorem OpRow.accepts_word (r : OpRow) (len : BitVec 12) (f : Bit) (ch : BitVec 8) :
    r.accepts (r.word len f ch) = true := by
  rw [OpRow.word, OpRow.accepts_packFields]
  refine ⟨?_, rfl, ?_, ?_, rfl⟩
  · cases r.lenFree <;> simp
  · cases r.fFree <;> simp
  · cases r.chFree <;> simp

/-- What a row's word holds of a field that is free or 0 is the field. -/
theorem ite_free_eq {n : Nat} {free : Bool} {x : BitVec n} (h : free = true ∨ x = 0) :
    (if free then x else 0) = x := by
  split
  · rfl
  · next hfixed => exact (h.resolve_left hfixed).symm

/-- A word the row matches is the row's word of the fields it has: RSV and the fields the row does not name are 0. -/
theorem OpRow.word_of_accepts {r : OpRow} {w : Word} (h : r.accepts w = true) :
    r.word (lenField w) (fField w) (chField w) = w := by
  obtain ⟨hlen, hrsv, hf, hch, hop⟩ := (r.accepts_iff w).mp h
  have hf' : (r.fFree && fField w) = fField w := by
    rcases hf with hfree | hzero
    · rw [hfree, Bool.true_and]
    · rw [hzero, Bool.and_false]
  rw [OpRow.word, ite_free_eq hlen, hf', ite_free_eq hch, ← hrsv, ← hop, packFields_fields]

/-! The whole map. -/

/-- A row of the map is found by its OP. -/
theorem OpRow.eq_of_op_eq {r r' : OpRow} (hr : r ∈ opcodeMap) (hr' : r' ∈ opcodeMap) (hop : r.op = r'.op) : r = r' :=
  List.inj_on_of_nodup_map (f := OpRow.op) (by decide) hr hr' hop

/-- Two rows of the map that match one word are the same row (R108). -/
theorem OpRow.eq_of_accepts {r r' : OpRow} {w : Word} (hr : r ∈ opcodeMap) (hr' : r' ∈ opcodeMap)
    (h : r.accepts w = true) (h' : r'.accepts w = true) : r = r' :=
  OpRow.eq_of_op_eq hr hr' ((OpRow.opField_of_accepts h).symm.trans (OpRow.opField_of_accepts h'))

/-- The command a row makes has the row's word as its encoding (R109, R113). -/
theorem OpRow.encode_build {r : OpRow} (hr : r ∈ opcodeMap) (len : BitVec 12) (f : Bit) (ch : BitVec 8) :
    encode (r.build len f ch) = r.word len f ch := by
  fin_cases hr <;> rfl

/-- A row reads the command it makes back from that command's word. -/
theorem OpRow.read_word {r : OpRow} (hr : r ∈ opcodeMap) (len : BitVec 12) (f : Bit) (ch : BitVec 8) :
    r.read (r.word len f ch) = r.build len f ch := by
  rw [OpRow.read, OpRow.word, lenField_packFields, fField_packFields, chField_packFields]
  fin_cases hr <;> rfl

/-- Every command is made by a row of the map (R109). -/
theorem exists_build_eq (i : Instr) : ∃ r ∈ opcodeMap, ∃ len f ch, r.build len f ch = i := by
  cases i with
  | nop => exact ⟨opcodeMap[0], List.getElem_mem _, 0, false, 0, rfl⟩
  | cfgWrite ch cfg => exact ⟨opcodeMap[1], List.getElem_mem _, cfg, false, ch, rfl⟩
  | cfgRead ch => exact ⟨opcodeMap[2], List.getElem_mem _, 0, false, ch, rfl⟩
  | hdlcSend ch badFcs n => exact ⟨opcodeMap[3], List.getElem_mem _, n, badFcs, ch, rfl⟩
  | preamble ch finish nbytes => exact ⟨opcodeMap[4], List.getElem_mem _, nbytes, finish, ch, rfl⟩
  | hdlcRx ch nlevels => exact ⟨opcodeMap[5], List.getElem_mem _, nlevels, false, ch, rfl⟩
  | fcsCalc n => exact ⟨opcodeMap[6], List.getElem_mem _, n, false, 0, rfl⟩
  | il2pPlan maxFec size => exact ⟨opcodeMap[7], List.getElem_mem _, size, maxFec, 0, rfl⟩
  | il2pEnc maxFec size => exact ⟨opcodeMap[8], List.getElem_mem _, size, maxFec, 0, rfl⟩
  | il2pDec maxFec size => exact ⟨opcodeMap[9], List.getElem_mem _, size, maxFec, 0, rfl⟩
  | il2pCrcEnc => exact ⟨opcodeMap[10], List.getElem_mem _, 0, false, 0, rfl⟩
  | il2pCrcDec => exact ⟨opcodeMap[11], List.getElem_mem _, 0, false, 0, rfl⟩
  | il2pCrcCheck n => exact ⟨opcodeMap[12], List.getElem_mem _, n, false, 0, rfl⟩
  | il2pSend ch n => exact ⟨opcodeMap[13], List.getElem_mem _, n, false, ch, rfl⟩
  | l2Send ch badFcs n => exact ⟨opcodeMap[14], List.getElem_mem _, n, badFcs, ch, rfl⟩

/-! The decoder. -/

/-- The search through the map finds the row that matches, wherever it stands (R108). -/
theorem find?_accepts_eq_some_iff {r : OpRow} {w : Word} :
    opcodeMap.find? (fun r => r.accepts w) = some r ↔ r ∈ opcodeMap ∧ r.accepts w = true := by
  constructor
  · intro h
    exact ⟨List.mem_of_find?_eq_some h, List.find?_some (p := fun r : OpRow => r.accepts w) h⟩
  · rintro ⟨hr, h⟩
    obtain ⟨r', hfind⟩ : ∃ r', opcodeMap.find? (fun r => r.accepts w) = some r' :=
      Option.isSome_iff_exists.mp (List.find?_isSome.mpr ⟨r, hr, h⟩)
    have h' : r'.accepts w = true := List.find?_some (p := fun r : OpRow => r.accepts w) hfind
    rw [hfind, OpRow.eq_of_accepts (List.mem_of_find?_eq_some hfind) hr h' h]

/-- The decoder answers what the matching row reads (R108). -/
theorem decode_of_accepts {r : OpRow} {w : Word} (hr : r ∈ opcodeMap) (h : r.accepts w = true) :
    decode w = .ok (r.read w) := by
  rw [decode, find?_accepts_eq_some_iff.mpr ⟨hr, h⟩]

/-- A word decodes to a command only through a row that matches it. -/
theorem exists_accepts_of_decode {w : Word} {i : Instr} (h : decode w = .ok i) :
    ∃ r ∈ opcodeMap, r.accepts w = true ∧ r.read w = i := by
  rw [decode] at h
  split at h
  · next r hfind =>
    obtain ⟨hr, haccepts⟩ := find?_accepts_eq_some_iff.mp hfind
    exact ⟨r, hr, haccepts, Except.ok.inj h⟩
  · cases h

/-- A word no row matches is rejected with its reason (R110). -/
theorem decode_of_forall_not_accepts {w : Word} (h : ∀ r ∈ opcodeMap, r.accepts w = false) :
    decode w = .error (rejectReason w) := by
  have hfind : opcodeMap.find? (fun r => r.accepts w) = none :=
    List.find?_eq_none.mpr fun r hr => by rw [h r hr]; exact Bool.false_ne_true
  rw [decode, hfind]

/-- Settles O1: a command is made by a row, which matches the command's word and reads it back. -/
theorem decodeInvertsEncode : Obligations.DecodeInvertsEncode := by
  intro i
  obtain ⟨r, hr, len, f, ch, rfl⟩ := exists_build_eq i
  rw [OpRow.encode_build hr, decode_of_accepts hr (r.accepts_word len f ch), OpRow.read_word hr]

/-- Settles O2: the row that matches the word fixes every field it does not read. -/
theorem encodeInvertsDecode : Obligations.EncodeInvertsDecode := by
  intro w i h
  obtain ⟨r, hr, haccepts, rfl⟩ := exists_accepts_of_decode h
  rw [OpRow.read, OpRow.encode_build hr, OpRow.word_of_accepts haccepts]

/-- A word decodes to a command exactly when it is the command's encoding. -/
theorem decode_eq_ok_iff {w : Word} {i : Instr} : decode w = .ok i ↔ encode i = w :=
  ⟨encodeInvertsDecode w i, fun h => h ▸ decodeInvertsEncode i⟩

/-- Settles O3: a matching row is the only one. -/
theorem atMostOneRowMatches : Obligations.AtMostOneRowMatches := by
  intro w r r' hr hr' h h'
  obtain rfl := OpRow.eq_of_accepts hr hr' h h'
  exact ⟨rfl, rfl⟩

/-- Settles O5: each word that decodes is the encoding of its command; two words are malformed in RSV and in CH. -/
theorem sampleWordsDecode : Obligations.SampleWordsDecode := by
  refine ⟨?_, ?_, ?_, ?_, ?_, ?_, ?_, ?_, ?reservedBits, ?requiredZero⟩
  case reservedBits => decide
  case requiredZero => decide
  all_goals exact decode_eq_ok_iff.mpr (by decide)

end Sys2Proof
end

section
/-! SUPPORT. The malformed words of R110, and a command word taken off the host's list. Settles O4 and O6. -/

namespace Sys2Proof.Machine

/-- The OPs of the rows with a property, as a list that `Malformed` writes out. -/
def opsOf (p : OpRow → Bool) : List (BitVec 8) :=
  (opcodeMap.filter p).map OpRow.op

/-- A row of the map is listed exactly when it has the property. -/
theorem op_mem_opsOf {r : OpRow} (hr : r ∈ opcodeMap) (p : OpRow → Bool) : r.op ∈ opsOf p ↔ p r = true := by
  rw [opsOf, List.mem_map]
  constructor
  · rintro ⟨r', hr', hop⟩
    obtain ⟨hmem, hp⟩ := List.mem_filter.mp hr'
    exact OpRow.eq_of_op_eq hmem hr hop ▸ hp
  · intro hp
    exact ⟨r, List.mem_filter.mpr ⟨hr, hp⟩, rfl⟩

/-- The lists of OPs of R109 and R110 are those of the map's rows, of the rows without CH, without F and without LEN. -/
theorem malformed_iff_opsOf (w : Word) :
    Malformed w
      ↔ opField w ∉ opcodeMap.map OpRow.op
        ∨ rsvField w ≠ 0
        ∨ (opField w ∈ opsOf (fun r => !r.chFree) ∧ chField w ≠ 0)
        ∨ (opField w ∈ opsOf (fun r => !r.fFree) ∧ fField w = true)
        ∨ (opField w ∈ opsOf (fun r => !r.lenFree) ∧ lenField w ≠ 0) :=
  Iff.rfl

/-- A word whose OP is a row's is malformed exactly when that row does not match it. -/
theorem malformed_iff_not_accepts {r : OpRow} {w : Word} (hr : r ∈ opcodeMap) (hop : opField w = r.op) :
    Malformed w ↔ ¬ r.accepts w = true := by
  have hlisted : r.op ∈ opcodeMap.map OpRow.op := List.mem_map_of_mem hr
  rw [malformed_iff_opsOf, hop, op_mem_opsOf hr, op_mem_opsOf hr, op_mem_opsOf hr, OpRow.accepts_iff]
  simp only [hlisted, hop, Bool.not_eq_true', ne_eq, not_true_eq_false, false_or, and_true, not_and_or, not_or,
    Bool.not_eq_true, Bool.not_eq_false]
  tauto

/-- The malformed words are those that no row matches (R110). -/
theorem malformed_iff_forall_not_accepts (w : Word) : Malformed w ↔ ∀ r ∈ opcodeMap, r.accepts w = false := by
  by_cases hrow : ∃ r ∈ opcodeMap, opField w = r.op
  · obtain ⟨r, hr, hop⟩ := hrow
    rw [malformed_iff_not_accepts hr hop]
    constructor
    · intro hnot r' hr'
      refine Bool.eq_false_iff.mpr fun h' => hnot ?_
      rwa [OpRow.eq_of_op_eq hr hr' (hop.symm.trans (OpRow.opField_of_accepts h'))]
    · intro hall
      exact Bool.eq_false_iff.mp (hall r hr)
  · have hnone : ∀ r ∈ opcodeMap, r.accepts w = false := fun r hr =>
      Bool.eq_false_iff.mpr fun h => hrow ⟨r, hr, OpRow.opField_of_accepts h⟩
    have hreserved : opField w ∉ opcodeMap.map OpRow.op := fun hmem => by
      obtain ⟨r, hr, hop⟩ := List.mem_map.mp hmem
      exact hrow ⟨r, hr, hop.symm⟩
    exact iff_of_true ((malformed_iff_opsOf w).mpr (.inl hreserved)) hnone

/-! Running a command word. -/

/-- A command word at the head of the host's list is run on the state without it (R108). -/
theorem step_cmd {s : State} {w : Word} {rest : List HostAction} (h : s.host = .cmd w :: rest) :
    step s = runCommand w { s with host := rest } := by
  rw [step, takeAction, h]
  rfl

/-- A word that decodes runs its command (R108). -/
theorem runCommand_of_decode {s : State} {w : Word} {i : Instr} (hf : s.fault.faulted = false) (h : decode w = .ok i) :
    runCommand w s = exec i s := by
  simp only [runCommand, hf, h]

/-- A malformed word raises IllegalCommand (R110, R303). -/
theorem runCommand_of_malformed {s : State} {w : Word} (hf : s.fault.faulted = false) (h : Malformed w) :
    runCommand w s = .next (s.raiseFault .illegalCommand w) := by
  simp only [runCommand, hf, decode_of_forall_not_accepts ((malformed_iff_forall_not_accepts w).mp h)]

/-- Settles O4: a malformed word is matched by no row, so the decoder rejects it, and only the fault record changes. -/
theorem malformedWordsAreIllegal : Obligations.MalformedWordsAreIllegal := by
  refine fun w => ⟨malformed_iff_forall_not_accepts w, fun s rest hhost hf hbad => ?_⟩
  exact (step_cmd hhost).trans (runCommand_of_malformed (s := { s with host := rest }) hf hbad)

/-- Settles O6: the step takes the word off the list, and the block is not faulted. -/
theorem stepRunsDecodedCommand : Obligations.StepRunsDecodedCommand := by
  intro s w i rest hhost hf hdecode
  exact (step_cmd hhost).trans (runCommand_of_decode (s := { s with host := rest }) hf hdecode)

end Sys2Proof.Machine
end

section
/-! SUPPORT. The frame check sequence, and what HDLC_SEND and PREAMBLE put on the line. Settles O19, O20, O21, O22, O23, O24
and O25. -/

namespace Sys2Proof.Machine

/-! Frame check sequence (R133, R134, R137). -/

/-- Settles O19. -/
theorem fcsValues : Obligations.FcsValues := by
  unfold Obligations.FcsValues
  decide +kernel

/-- Settles O20: the operand range is always inside IBUF. -/
theorem fcsCalcReportsFcs : Obligations.FcsCalcReportsFcs := by
  intro n s
  have hexec : exec (.fcsCalc n) s = execFcsCalc n s := rfl
  rw [hexec, execFcsCalc, withIbuf_pos (inBuffer_len n)]
  rfl

/-! Line levels (R130). -/

/-- One level for each bit (R130). -/
@[simp] theorem length_nrziLevels (level : Bit) (bits : List Bit) : (nrziLevels level bits).length = bits.length := by
  induction bits generalizing level with
  | nil => rfl
  | cons d ds ih => cases d <;> simp [nrziLevels, ih]

/-- The levels of two sequences in a row: the second starts where the first ended (R130). -/
theorem nrziLevels_append (level : Bit) (xs ys : List Bit) :
    nrziLevels level (xs ++ ys) = nrziLevels level xs ++ nrziLevels (nrziEnd level xs) ys := by
  induction xs generalizing level with
  | nil => rfl
  | cons d ds ih => cases d <;> simp [nrziLevels, nrziEnd, ih]

/-- The last level of two sequences in a row (R130). -/
theorem nrziEnd_append (level : Bit) (xs ys : List Bit) :
    nrziEnd level (xs ++ ys) = nrziEnd (nrziEnd level xs) ys := by
  induction xs generalizing level with
  | nil => rfl
  | cons d ds ih => cases d <;> exact ih _

/-- The levels complement with the starting level (R138). -/
theorem nrziLevels_not (level : Bit) (bits : List Bit) :
    nrziLevels (!level) bits = (nrziLevels level bits).map (! ·) := by
  induction bits generalizing level with
  | nil => rfl
  | cons d ds ih => cases d <;> simp only [nrziLevels, ih, List.map_cons]

/-- A flag has two 0s, so it leaves the level as it found it (R131). -/
@[simp] theorem nrziEnd_flagBits (level : Bit) : nrziEnd level flagBits = level := by
  cases level <;> rfl

/-- Flags leave the level as they found it (R131, R136). -/
@[simp] theorem nrziEnd_flags (level : Bit) (k : Nat) : nrziEnd level (List.replicate k flagBits).flatten = level := by
  induction k with
  | zero => rfl
  | succ k ih => rw [List.replicate_succ, List.flatten_cons, nrziEnd_append, nrziEnd_flagBits, ih]

/-- Eight bits a flag (R131). -/
theorem length_flags (k : Nat) : (List.replicate k flagBits).flatten.length = 8 * k := by
  simp [flagBits, Nat.mul_comm]

/-! What a sink gains (R52). -/

/-- The bits among pushed bits are those bits. -/
@[simp] theorem itemBits_map_bit (bits : List Bit) : itemBits (bits.map .bit) = bits := by
  simp [itemBits, List.filterMap_map]

/-- A sink that grew by these bits gained these bits. -/
theorem gainedBits_of_sink {c c' : Chan} {bits : List Bit} (h : c'.sink = c.sink ++ bits.map .bit) :
    gainedBits c c' = bits := by
  rw [gainedBits, h, List.drop_left, itemBits_map_bit]

/-! Stuffed bits (R132). -/

/-- Stuffing drops no bit (R132). -/
theorem length_le_length_stuffed (run : Nat) (ds : List Bit) : ds.length ≤ (stuffed run ds).length := by
  induction ds generalizing run with
  | nil => exact Nat.zero_le _
  | cons d ds ih =>
    have h0 := ih 0
    have hrun := ih (run + 1)
    cases d with
    | false => simpa [stuffed] using h0
    | true =>
      rw [stuffed]
      split <;> simp only [List.length_cons] <;> omega

/-- Every stuffed bit takes five 1s, of which `run` may stand before the sequence (R132). -/
theorem length_stuffed_le (run : Nat) (ds : List Bit) : 5 * (stuffed run ds).length ≤ 6 * ds.length + run := by
  induction ds generalizing run with
  | nil => exact Nat.zero_le _
  | cons d ds ih =>
    have h0 := ih 0
    have hrun := ih (run + 1)
    cases d with
    | false => simp only [stuffed, List.length_cons]; omega
    | true =>
      rw [stuffed]
      split <;> simp only [List.length_cons] <;> omega

/-- The data bits of a frame before stuffing: its bytes, then its FCS low byte first (R77, R78, R135). -/
def frameData (frame : List Byte) (f : Bit) : List Bit :=
  (frame ++ [loByte (sentFcs frame f), hiByte (sentFcs frame f)]).flatMap lsbFirst

theorem frameBits_eq_stuffed (frame : List Byte) (f : Bit) : frameBits frame f = stuffed 0 (frameData frame f) := rfl

/-- Eight data bits for each byte of frame and FCS (R135). -/
theorem length_frameData (frame : List Byte) (f : Bit) : (frameData frame f).length = 8 * frame.length + 16 := by
  rw [frameData, length_flatMap_lsbFirst, List.length_append, Nat.mul_add]
  rfl

/-- The bits of a frame: two flags, eight bits for each byte of frame and FCS, and at most one stuffed bit for five of these
(R135). -/
theorem length_hdlcBits_bounds (frame : List Byte) (f : Bit) :
    32 + 8 * frame.length ≤ (hdlcBits frame f).length
      ∧ 5 * ((hdlcBits frame f).length - (32 + 8 * frame.length)) ≤ 8 * frame.length + 16 := by
  have hdata := length_frameData frame f
  have hmin := length_le_length_stuffed 0 (frameData frame f)
  have hmax := length_stuffed_le 0 (frameData frame f)
  have hbits : (hdlcBits frame f).length = 16 + (frameBits frame f).length := by
    simp only [hdlcBits, flagBits, List.length_append, List.length_cons, List.length_nil]
    omega
  rw [hbits, frameBits_eq_stuffed]
  omega

/-- Six consecutive 1s stand in a sequence as a contiguous part of it. -/
theorem hasSixOnes_iff_isInfix (bits : List Bit) : HasSixOnes bits ↔ List.replicate 6 true <:+: bits := by
  simp only [HasSixOnes, List.IsInfix, eq_comm]

/-- At most five 1s and a 0 do not help the rest to six 1s in a row (R132). -/
theorem HasSixOnes.of_ones_zero {k : Nat} (hk : k ≤ 5) {bits : List Bit}
    (h : HasSixOnes (List.replicate k true ++ false :: bits)) : HasSixOnes bits := by
  have hprefix {j : Nat} (hj : j ≤ 5) : ¬List.replicate 6 true <+: List.replicate j true ++ false :: bits := by
    intro hpre
    have hget := hpre.getElem (i := j) (by rw [List.length_replicate]; omega)
    rw [List.getElem_replicate] at hget
    simp at hget
  rw [hasSixOnes_iff_isInfix] at h ⊢
  induction k with
  | zero => exact (List.infix_cons_iff.1 h).resolve_left (hprefix hk)
  | succ k ih => exact ih (by omega) ((List.infix_cons_iff.1 h).resolve_left (hprefix hk))

/-- After at most four 1s, stuffed bits never make six 1s in a row (R132, R138). -/
theorem not_hasSixOnes_stuffed {run : Nat} (hrun : run ≤ 4) (ds : List Bit) :
    ¬HasSixOnes (List.replicate run true ++ stuffed run ds) := by
  induction ds generalizing run with
  | nil =>
    intro h
    have hlength := ((hasSixOnes_iff_isInfix _).1 h).length_le
    simp only [stuffed, List.append_nil, List.length_replicate] at hlength
    omega
  | cons d ds ih =>
    have hzero : ¬HasSixOnes (stuffed 0 ds) := ih (Nat.zero_le 4)
    have hone : List.replicate (run + 1) true = List.replicate run true ++ [true] := List.replicate_succ'
    cases d with
    | false => exact fun h => hzero (h.of_ones_zero (by omega))
    | true =>
      rw [stuffed]
      split
      · intro h
        rw [List.append_cons, ← hone] at h
        exact hzero (h.of_ones_zero (by omega))
      · rw [List.append_cons, ← hone]
        exact ih (by omega)

/-! HDLC_SEND (R135). -/

/-- Settles O21: the frame goes out bit by bit as its sequence does as a whole. -/
theorem hdlcSendSendsFrame : Obligations.HdlcSendSendsFrame := by
  intro ch f n s c hc
  have hexec : exec (.hdlcSend ch f n) s = execHdlcSend ch f n s := rfl
  rw [hexec, execHdlcSend, onChannel_some hc, withIbuf_pos (inBuffer_len n)]
  simp only [Chan.startCount_sendFrame]
  rfl

section Send

variable {ch : BitVec 8} {f : Bit} {n : BitVec 12} {s t : State} {c c' : Chan}

/-- The channel an HDLC_SEND leaves (R135). -/
theorem hdlcSend_chan (hc : s.chan? ch.toNat = some c) (h : exec (.hdlcSend ch f n) s = .next t)
    (hc' : t.chan? ch.toNat = some c') : c' = c.sentNrzi (hdlcBits (s.ibufBytes 0 n.toNat) f) := by
  rw [exec_chan?_named rfl h, hc, Option.map_some, Instr.chanAfter, Chan.startCount_sendFrame] at hc'
  exact (Option.some.inj hc').symm

/-- The levels an HDLC_SEND sends (R135). -/
theorem gainedBits_hdlcSend (hc : s.chan? ch.toNat = some c) (h : exec (.hdlcSend ch f n) s = .next t)
    (hc' : t.chan? ch.toNat = some c') :
    gainedBits c c' = nrziLevels c.nrziLvl (hdlcBits (s.ibufBytes 0 n.toNat) f) := by
  rw [hdlcSend_chan hc h hc']
  exact gainedBits_of_sink rfl

end Send

/-- Settles O22: STATUS counts the frame's bits, which are far fewer than 2^32. -/
theorem hdlcSendBitCount : Obligations.HdlcSendBitCount := by
  intro ch f n s t c c' hc h hc'
  rw [gainedBits_hdlcSend hc h hc', length_nrziLevels]
  rw [hdlcSendSendsFrame ch f n s c hc] at h
  obtain rfl := Host.Outcome.next.inj h
  have hbounds := length_hdlcBits_bounds (s.ibufBytes 0 n.toNat) f
  rw [State.length_ibufBytes] at hbounds
  have hn := n.isLt
  have hstatus : (countWord (hdlcBits (s.ibufBytes 0 n.toNat) f).length).toNat
      = (hdlcBits (s.ibufBytes 0 n.toNat) f).length := by
    rw [countWord, BitVec.toNat_ofNat]
    omega
  rw [State.results_eq_finish, State.finish_status, hstatus]
  exact ⟨rfl, hbounds⟩

/-- Settles O23: the bits between the flags are stuffed from an empty run on, and the end flag clears STUFF_CNT. -/
theorem noFlagInsideFrame : Obligations.NoFlagInsideFrame := by
  intro ch f n s t c c' hc h hc'
  refine ⟨?_, frameBits (s.ibufBytes 0 n.toNat) f, not_hasSixOnes_stuffed (Nat.zero_le 4) _,
    gainedBits_hdlcSend hc h hc'⟩
  rw [hdlcSend_chan hc h hc']
  rfl

/-- Settles O24: both commands send the levels of the same bits. -/
theorem levelsDependOnFrameAndLevel : Obligations.LevelsDependOnFrameAndLevel := by
  intro ch ch₂ f n s s₂ t t₂ c c' c₂ c₂' hc hc₂ hframe h h₂ hc' hc₂'
  rw [gainedBits_hdlcSend hc h hc', gainedBits_hdlcSend hc₂ h₂ hc₂', hframe]
  refine ⟨fun heq => by rw [heq], fun hne => ?_⟩
  rw [← nrziLevels_not, Bool.eq_not.2 hne]

/-! PREAMBLE on an HDLC or FX.25 channel (R136). -/

/-- Filler flags are their bits through NRZI (R131, R136). -/
theorem Chan.sendFlags_eq_pushNrzi (k : Nat) (c : Chan) :
    c.sendFlags k
      = { c.pushNrzi (List.replicate k flagBits).flatten with stuffCnt := if k = 0 then c.stuffCnt else 0 } := by
  induction k generalizing c with
  | zero => rfl
  | succ k ih =>
    rw [Chan.sendFlags, ih, Chan.sendCtrl_flagByte, Chan.pushNrzi_withStuffCnt, ite_self, if_neg k.succ_ne_zero,
      List.replicate_succ, List.flatten_cons, Chan.pushNrzi_append]

/-- The filler of a channel that is not IL2P: flags pushed and counted from 0, the level as it was (R45, R136). -/
theorem Chan.startCount_sendFiller_of_not_il2p {c : Chan} (hmode : (effCfg c.cfg).mode ≠ modeIl2p) (k : Nat) :
    c.startCount.sendFiller k =
      { c with
        sink := c.sink ++ (nrziLevels c.nrziLvl (List.replicate k flagBits).flatten).map .bit
        stuffCnt := if k = 0 then c.stuffCnt else 0
        bitsSent := countWord (8 * k) } := by
  have hflags : c.startCount.sendFiller k = c.startCount.sendFlags k := if_neg hmode
  rw [hflags, Chan.sendFlags_eq_pushNrzi, Chan.pushNrzi_eq, Chan.startCount_bitsSent, zero_add, length_flags, nrziEnd_flags]
  rfl

/-- Settles O25: the filler is flags, and the flush marker goes after them. -/
theorem preambleSendsFlags : Obligations.PreambleSendsFlags := by
  intro ch finish nbytes s c hc hmode
  have hexec : exec (.preamble ch finish nbytes) s = execPreamble ch finish nbytes s := rfl
  rw [hexec, execPreamble, onChannel_some hc, Chan.startCount_sendFiller_of_not_il2p hmode]
  cases finish with
  | false => simp only [Bool.false_eq_true, if_false, List.append_nil]; rfl
  | true => rfl

end Sys2Proof.Machine
end

section
/-! SUPPORT. HDLC_RX of a sequence of levels in two commands. Settles O28. -/

namespace Sys2Proof.Machine

/-- The bytes of two ranges in a row. -/
theorem State.ibufBytes_add (s : State) (a m n : Nat) :
    s.ibufBytes a (m + n) = s.ibufBytes a m ++ s.ibufBytes (a + m) n := by
  simp only [State.ibufBytes, List.range_add, List.map_append, List.map_map, Function.comp_def, Nat.add_assoc]

/-- What the host reads after an HDLC_RX: the channel, the number of bodies, and their records in OBUF (R141). -/
theorem hdlcRx_outputs {ch : BitVec 8} {n : BitVec 12} {s t : State} {c : Chan} (hc : s.chan? ch.toNat = some c)
    {levels : List Bit} (hlevels : (s.ibufBytes 0 n.toNat).map (fun b => b.getLsbD 0) = levels)
    (h : exec (.hdlcRx ch n) s = .next t) :
    t.chan? ch.toNat = some (c.rxLevels levels).1 ∧ t.status = countWord (c.rxLevels levels).2.length
      ∧ t.obufBytes 0 t.outLen.toNat = (c.rxLevels levels).2.flatMap rxRecord := by
  subst hlevels
  obtain ⟨hfits, rfl⟩ := finishOut_next ((execHdlcRx_of_chan hc n rfl).symm.trans h)
  refine ⟨State.chan?_stored hc _ _ _ _ _ _, rfl, ?_⟩
  rw [State.finish_outLen, countWord_toNat hfits]
  exact State.obufBytes_storeOut _ _

/-- Settles O28: the deframer of a sequence is that of its parts in a row, and so are the outputs. -/
theorem hdlcRxInPieces : Obligations.HdlcRxInPieces := by
  intro ch m₁ m₂ m s s₁ s₂ t ibuf hch hm h₁ hibuf h₂ h
  obtain ⟨c, hc⟩ : ∃ c, s.chan? ch.toNat = some c :=
    Option.ne_none_iff_exists'.1 fun hnone => Nat.not_le.2 hch ((s.chan?_eq_none_iff ch.toNat).1 hnone)
  obtain ⟨hchan₁, hstatus₁, hobuf₁⟩ := hdlcRx_outputs hc rfl h₁
  obtain ⟨hchan₂, hstatus₂, hobuf₂⟩ :=
    hdlcRx_outputs (s := { s₁ with ibuf := ibuf }) hchan₁ (by rw [hibuf]) h₂
  obtain ⟨hchan, hstatus, hobuf⟩ :=
    hdlcRx_outputs hc (by rw [hm, State.ibufBytes_add, Nat.zero_add, List.map_append]) h
  rw [Chan.rxLevels_append] at hchan hstatus hobuf
  refine ⟨hchan₂.trans hchan.symm, ?_, ?_⟩
  · rw [hstatus₁, hstatus₂, hstatus, List.length_append]
    exact (BitVec.ofNat_add _ _).symm
  · rw [hobuf₁, hobuf₂, hobuf, List.flatMap_append]

end Sys2Proof.Machine
end

section
/-! SUPPORT. What a receiver makes of the bits a sender put on the line: one bit, a flag, stuffed data, a frame. Settles
O29. -/

namespace Sys2Proof.Machine

/-! One decoded bit, on a receiver within its bound (R140). -/

/-- RX_ACC within its bound is no overlong frame (R46, R140). -/
theorem Chan.rxLimit_of_le {c : Chan} (h : c.rxAcc.length ≤ 16390) : c.rxLimit = c :=
  if_neg (Nat.not_lt.2 h)

/-- RX_BIT of a 1 that leaves no overlong frame. -/
theorem Chan.rxBit_one {c c' : Chan} (hone : c.rxOne = c') (hacc : c'.rxAcc.length ≤ 16390) :
    c.rxBit true = (c', none) := by
  rw [Chan.rxBit, if_pos rfl, hone, Chan.rxLimit_of_le hacc]

/-- RX_BIT of a 0 that leaves no overlong frame. -/
theorem Chan.rxBit_zero {c c' : Chan} {body : Option (List Byte)} (hzero : c.rxZero = (c', body))
    (hacc : c'.rxAcc.length ≤ 16390) : c.rxBit false = (c', body) := by
  rw [Chan.rxBit, if_neg nofun, hzero]
  exact Prod.ext (Chan.rxLimit_of_le hacc) rfl

/-- RX_ACC after data bits: they are kept when a flag has been seen (R140). -/
def keptBits (sync : Bool) (acc bits : List Bit) : List Bit :=
  if sync then acc ++ bits else acc

theorem keptBits_nil (sync : Bool) (acc : List Bit) : keptBits sync acc [] = acc := by
  cases sync <;> simp [keptBits]

theorem keptBits_keptBits (sync : Bool) (acc xs ys : List Bit) :
    keptBits sync (keptBits sync acc xs) ys = keptBits sync acc (xs ++ ys) := by
  cases sync <;> simp [keptBits]

theorem length_keptBits_le (sync : Bool) (acc bits : List Bit) :
    (keptBits sync acc bits).length ≤ acc.length + bits.length := by
  cases sync <;> simp [keptBits]

/-- A data bit is kept when a flag has been seen. -/
theorem Chan.rxAppend_eq (d : Bit) (c : Chan) : c.rxAppend d = { c with rxAcc := keptBits c.rxSync c.rxAcc [d] } := by
  unfold Chan.rxAppend keptBits
  split <;> rfl

/-! A receiver at the sender's level (R139). -/

/-- What a receiver does with the levels of a bit sequence when its last level is the sender's: NRZI gives it the bits back
(R130, R139). -/
def Chan.hears (bits : List Bit) (c : Chan) : Chan × List (List Byte) :=
  c.rxLevels (nrziLevels c.rxLvl bits)

theorem Chan.hears_nil (c : Chan) : c.hears [] = (c, []) := rfl

/-- RX_BIT does not write RX_LVL (R139, R140). -/
theorem Chan.rxLvl_of_rxBit {c c' : Chan} {d : Bit} {body : Option (List Byte)} (h : c.rxBit d = (c', body)) :
    c'.rxLvl = c.rxLvl := by
  have hlimit (c : Chan) : c.rxLimit.rxLvl = c.rxLvl := by
    unfold Chan.rxLimit
    split <;> rfl
  have hc' : c' = (c.rxBit d).1 := congrArg Prod.fst h.symm
  rw [hc']
  cases d with
  | true =>
    refine (hlimit _).trans ?_
    simp only [Chan.rxOne, Chan.rxAppend_eq]
    split_ifs <;> rfl
  | false =>
    refine (hlimit _).trans ?_
    simp only [Chan.rxZero, Chan.rxAppend_eq]
    split_ifs <;> rfl

/-- The bits of a sequence are decoded as they were sent, one by one (R130, R139). -/
theorem Chan.hears_cons {d : Bit} {c c' : Chan} {body : Option (List Byte)}
    (h : ({ c with rxLvl := if d then c.rxLvl else !c.rxLvl } : Chan).rxBit d = (c', body)) (ds : List Bit) :
    c.hears (d :: ds) = ((c'.hears ds).1, body.toList ++ (c'.hears ds).2) := by
  have hlvl := Chan.rxLvl_of_rxBit h
  cases d <;> simp_all [Chan.hears, nrziLevels, Chan.rxLevels, Chan.nrziRecv]

/-- The last level a receiver has heard is the sender's (R130, R139). -/
theorem Chan.hears_rxLvl (bits : List Bit) (c : Chan) : (c.hears bits).1.rxLvl = nrziEnd c.rxLvl bits := by
  induction bits generalizing c with
  | nil => rfl
  | cons d ds ih =>
    obtain ⟨⟨c', body⟩, hbit⟩ : ∃ r, ({ c with rxLvl := if d then c.rxLvl else !c.rxLvl } : Chan).rxBit d = r :=
      ⟨_, rfl⟩
    rw [Chan.hears_cons hbit, ih, Chan.rxLvl_of_rxBit hbit]
    cases d <;> rfl

/-- Two sequences in a row. -/
theorem Chan.hears_append (xs ys : List Bit) (c : Chan) :
    c.hears (xs ++ ys) = (((c.hears xs).1.hears ys).1, (c.hears xs).2 ++ ((c.hears xs).1.hears ys).2) := by
  rw [Chan.hears, nrziLevels_append, Chan.rxLevels_append, ← Chan.hears_rxLvl]
  rfl

/-! One bit from the sender (R140). -/

/-- A 1 keeps the level and delivers nothing. -/
theorem Chan.hears_one {c c' : Chan} (hone : c.rxOne = c') (hacc : c'.rxAcc.length ≤ 16390) (ds : List Bit) :
    c.hears (true :: ds) = c'.hears ds :=
  Chan.hears_cons (c := c) (Chan.rxBit_one hone hacc) ds

/-- A 0 that delivers nothing inverts the level. -/
theorem Chan.hears_zero {c c' : Chan} (hzero : ({ c with rxLvl := !c.rxLvl } : Chan).rxZero = (c', none))
    (hacc : c'.rxAcc.length ≤ 16390) (ds : List Bit) : c.hears (false :: ds) = c'.hears ds :=
  Chan.hears_cons (c := c) (Chan.rxBit_zero hzero hacc) ds

/-- A data bit leaves RX_ACC within its bound when there was room for it. -/
theorem length_keptBits_singleton {acc : List Bit} (hacc : acc.length < 16390) (sync : Bool) (d : Bit) :
    (keptBits sync acc [d]).length ≤ 16390 :=
  (length_keptBits_le sync acc [d]).trans hacc

/-- A 1 after at most four 1s is data, and is counted. -/
theorem Chan.hears_dataOne {c : Chan} (hones : c.rxOnes.toNat ≤ 4) (hacc : c.rxAcc.length < 16390) (ds : List Bit) :
    c.hears (true :: ds)
      = ({ c with rxOnes := c.rxOnes + 1, rxAcc := keptBits c.rxSync c.rxAcc [true] } : Chan).hears ds := by
  have h7 : c.rxOnes ≠ 7 := by bv_omega
  have hnot7 : c.rxOnes + 1 ≠ 7 := by bv_omega
  have hnot6 : c.rxOnes + 1 ≠ 6 := by bv_omega
  refine Chan.hears_one ?_ (length_keptBits_singleton hacc c.rxSync true) ds
  simp only [Chan.rxOne, Chan.rxAppend_eq, if_neg h7, if_neg hnot7, if_neg hnot6]

/-- A 0 after at most four 1s is data, and ends their run. -/
theorem Chan.hears_dataZero {c : Chan} (hones : c.rxOnes.toNat ≤ 4) (hacc : c.rxAcc.length < 16390) (ds : List Bit) :
    c.hears (false :: ds)
      = ({ c with rxLvl := !c.rxLvl, rxOnes := 0, rxAcc := keptBits c.rxSync c.rxAcc [false] } : Chan).hears ds := by
  have h6 : c.rxOnes ≠ 6 := by bv_omega
  have h5 : c.rxOnes ≠ 5 := by bv_omega
  refine Chan.hears_zero ?_ (length_keptBits_singleton hacc c.rxSync false) ds
  simp only [Chan.rxZero, Chan.rxAppend_eq, if_neg h6, if_neg h5]

/-- A 0 after five 1s is a stuffed bit: it is not kept. -/
theorem Chan.hears_stuffedZero {c : Chan} (hones : c.rxOnes = 5) (hacc : c.rxAcc.length ≤ 16390) (ds : List Bit) :
    c.hears (false :: ds) = ({ c with rxLvl := !c.rxLvl, rxOnes := 0 } : Chan).hears ds := by
  have hzero : ({ c with rxLvl := !c.rxLvl } : Chan).rxZero = ({ c with rxLvl := !c.rxLvl, rxOnes := 0 }, none) := by
    simp [Chan.rxZero, hones]
  exact Chan.hears_zero hzero hacc ds

/-- A sixth 1 may belong to a flag: it is counted and not kept. -/
theorem Chan.hears_sixthOne {c : Chan} (hones : c.rxOnes = 5) (hacc : c.rxAcc.length ≤ 16390) (ds : List Bit) :
    c.hears (true :: ds) = ({ c with rxOnes := 6 } : Chan).hears ds := by
  have hone : c.rxOne = { c with rxOnes := 6 } := by simp [Chan.rxOne, hones]
  exact Chan.hears_one hone hacc ds

/-- A receiver that has just seen a flag: a frame starts (R140). -/
def Chan.flagSeen (c : Chan) : Chan :=
  { c with rxOnes := 0, rxSync := true, rxAcc := [] }

/-- A 0 after six 1s is a flag, which ends a frame and starts one. -/
theorem Chan.hears_flagZero {c : Chan} (hones : c.rxOnes = 6) :
    c.hears [false]
      = (({ c with rxLvl := !c.rxLvl } : Chan).flagSeen, if c.rxSync then (rxFrame c.rxAcc).toList else []) := by
  have hzero := Chan.rxBit_zero (c := { c with rxLvl := !c.rxLvl }) (if_pos hones) (Nat.zero_le _)
  rw [Chan.hears_cons (c := c) hzero]
  cases c.rxSync <;> simp [Chan.hears_nil, Chan.flagSeen]

/-- A seventh 1 is an abort: the frame is dropped, and the 0 after it is no flag. -/
theorem Chan.hears_abort {c : Chan} (hones : c.rxOnes = 6) (ds : List Bit) :
    c.hears (true :: false :: ds)
      = ({ c with rxLvl := !c.rxLvl, rxOnes := 0, rxSync := false, rxAcc := [] } : Chan).hears ds := by
  have hseventh : c.rxOne = { c with rxOnes := 7, rxSync := false, rxAcc := [] } := by
    simp [Chan.rxOne, Chan.rxAbort, hones]
  rw [Chan.hears_one hseventh (Nat.zero_le _)]
  exact Chan.hears_zero (by simp [Chan.rxZero, Chan.rxAppend]) (Nat.zero_le _) ds

/-! Flags and stuffed data (R131, R132, R140). -/

/-- Data 1s, up to a run of five, are kept and counted. -/
theorem Chan.hears_ones (k : Nat) {c : Chan} (hones : c.rxOnes.toNat + k ≤ 5) (hacc : c.rxAcc.length + k ≤ 16390) :
    c.hears (List.replicate k true)
      = ({ c with
          rxOnes := c.rxOnes + BitVec.ofNat 3 k
          rxAcc := keptBits c.rxSync c.rxAcc (List.replicate k true) }, []) := by
  induction k generalizing c with
  | zero => simp [Chan.hears_nil, keptBits_nil]
  | succ k ih =>
    have hrun : (c.rxOnes + 1).toNat + k ≤ 5 := by bv_omega
    have hkept : (keptBits c.rxSync c.rxAcc [true]).length + k ≤ 16390 := by
      have hlength := length_keptBits_le c.rxSync c.rxAcc [true]
      rw [List.length_singleton] at hlength
      omega
    have hsum : c.rxOnes + 1 + BitVec.ofNat 3 k = c.rxOnes + BitVec.ofNat 3 (k + 1) := by
      rw [add_assoc, Nat.add_comm k, BitVec.ofNat_add]
      rfl
    rw [List.replicate_succ, Chan.hears_dataOne (by omega) (by omega), ih hrun hkept]
    simp only [keptBits_keptBits, hsum]
    rfl

/-- A flag after data ends the frame in progress, whose bits are followed by the flag's first six, and starts the next. -/
theorem Chan.hears_flag {c : Chan} (hones : c.rxOnes.toNat ≤ 4) (hacc : c.rxAcc.length ≤ 16384) :
    c.hears flagBits
      = (c.flagSeen, if c.rxSync then (rxFrame (c.rxAcc ++ [false, true, true, true, true, true])).toList else []) := by
  have hflag : flagBits = false :: (List.replicate 5 true ++ [true, false]) := rfl
  have hkept : (keptBits c.rxSync c.rxAcc [false]).length ≤ 16385 :=
    (length_keptBits_le c.rxSync c.rxAcc [false]).trans (Nat.succ_le_succ hacc)
  have hkept5 : (keptBits c.rxSync (keptBits c.rxSync c.rxAcc [false]) (List.replicate 5 true)).length ≤ 16390 :=
    (length_keptBits_le _ _ _).trans (Nat.add_le_add_right hkept 5)
  have hones5 := Chan.hears_ones 5
    (c := { c with rxLvl := !c.rxLvl, rxOnes := 0, rxAcc := keptBits c.rxSync c.rxAcc [false] }) le_rfl
    (Nat.add_le_add_right hkept 5)
  rw [hflag, Chan.hears_dataZero hones (by omega), Chan.hears_append, hones5, Chan.hears_sixthOne rfl hkept5,
    Chan.hears_flagZero rfl]
  cases c.rxSync <;> simp [keptBits, Chan.flagSeen]

/-- Stuffed bits are received as the data they carry, and deliver nothing (R132, R140). -/
theorem Chan.hears_stuffed (ds : List Bit) {c : Chan} (hones : c.rxOnes.toNat ≤ 4)
    (hacc : c.rxAcc.length + ds.length ≤ 16390) :
    ∃ ones : BitVec 3, ones.toNat ≤ 4 ∧ c.hears (stuffed c.rxOnes.toNat ds)
      = ({ c with
          rxLvl := nrziEnd c.rxLvl (stuffed c.rxOnes.toNat ds)
          rxOnes := ones
          rxAcc := keptBits c.rxSync c.rxAcc ds }, []) := by
  induction ds generalizing c with
  | nil => exact ⟨c.rxOnes, hones, by rw [keptBits_nil]; rfl⟩
  | cons d ds ih =>
    have hkept : (keptBits c.rxSync c.rxAcc [d]).length + ds.length ≤ 16390 := by
      have hlength := length_keptBits_le c.rxSync c.rxAcc [d]
      simp only [List.length_cons, List.length_nil] at hlength hacc
      omega
    have hroom : c.rxAcc.length < 16390 := by rw [List.length_cons] at hacc; omega
    cases d with
    | false =>
      obtain ⟨ones, hle, hrest⟩ := ih
        (c := { c with rxLvl := !c.rxLvl, rxOnes := 0, rxAcc := keptBits c.rxSync c.rxAcc [false] }) (Nat.zero_le 4) hkept
      refine ⟨ones, hle, ?_⟩
      rw [stuffed, Chan.hears_dataZero hones hroom]
      exact hrest.trans (by rw [keptBits_keptBits]; rfl)
    | true =>
      by_cases h4 : c.rxOnes = 4
      · have hbits : stuffed c.rxOnes.toNat (true :: ds) = true :: false :: stuffed 0 ds := by rw [h4]; rfl
        obtain ⟨ones, hle, hrest⟩ := ih
          (c := { c with rxLvl := !c.rxLvl, rxOnes := 0, rxAcc := keptBits c.rxSync c.rxAcc [true] }) (Nat.zero_le 4) hkept
        refine ⟨ones, hle, ?_⟩
        rw [hbits, Chan.hears_dataOne hones hroom,
          Chan.hears_stuffedZero (by rw [h4]; rfl) (length_keptBits_singleton hroom c.rxSync true)]
        exact hrest.trans (by rw [keptBits_keptBits]; rfl)
      · have hrun : (c.rxOnes + 1).toNat = c.rxOnes.toNat + 1 := by bv_omega
        have hne : c.rxOnes.toNat + 1 ≠ 5 := by bv_omega
        obtain ⟨ones, hle, hrest⟩ := ih
          (c := { c with rxOnes := c.rxOnes + 1, rxAcc := keptBits c.rxSync c.rxAcc [true] }) (by bv_omega) hkept
        refine ⟨ones, hle, ?_⟩
        rw [stuffed, if_neg hne, ← hrun, Chan.hears_dataOne hones hroom]
        exact hrest.trans (by rw [keptBits_keptBits]; rfl)

/-- A flag with nothing before it delivers nothing. -/
theorem Chan.hears_first_flag {c : Chan} (hones : c.rxOnes = 0) (hacc : c.rxAcc = []) :
    c.hears flagBits = (c.flagSeen, []) := by
  have hempty : rxFrame [false, true, true, true, true, true] = none := by decide
  rw [Chan.hears_flag (by rw [hones]; decide) (by rw [hacc]; exact Nat.zero_le _), hacc, List.nil_append, hempty]
  exact Prod.ext rfl (ite_self _)

/-- Flags in a row deliver nothing (R136, R140). -/
theorem Chan.hears_flags (k : Nat) {c : Chan} (hones : c.rxOnes = 0) (hacc : c.rxAcc = []) :
    c.hears (List.replicate (k + 1) flagBits).flatten = (c.flagSeen, []) := by
  induction k generalizing c with
  | zero => exact Chan.hears_first_flag hones hacc
  | succ k ih =>
    rw [List.replicate_succ, List.flatten_cons, Chan.hears_append, Chan.hears_first_flag hones hacc,
      ih (c := c.flagSeen) rfl rfl]
    rfl

/-- A receiver at the other level takes the first 0 of a flag for a 1, so the flag is an abort to it; after it the receiver
is idle at the sender's level (R142). -/
theorem Chan.rxLevels_late_flag {c : Chan} (hidle : c.rxIdle) (bits : List Bit) :
    c.rxLevels (nrziLevels (!c.rxLvl) (flagBits ++ bits)) = ({ c with rxLvl := !c.rxLvl } : Chan).hears bits := by
  obtain ⟨hones, hsync, hacc⟩ := hidle
  have hlate : c.rxLevels (nrziLevels (!c.rxLvl) (flagBits ++ bits))
      = c.hears (List.replicate 5 true ++ true :: true :: false :: bits) := by
    rw [Chan.hears]
    cases c.rxLvl <;> rfl
  have hfive := Chan.hears_ones 5 (c := c) (by rw [hones]; decide) (by rw [hacc]; decide)
  have hkept : keptBits c.rxSync c.rxAcc (List.replicate 5 true) = [] := by rw [hsync, hacc]; rfl
  rw [hlate, Chan.hears_append, hfive, Chan.hears_sixthOne (by rw [hones]; rfl) (by rw [hkept]; exact Nat.zero_le _),
    Chan.hears_abort rfl]
  simp only [hones, hsync, hacc]
  rfl

/-! A frame (R135, R140). -/

/-- The data bits of a frame at its closing flag: with a good FCS the frame, with a complemented one nothing (R135,
R140). -/
theorem rxFrame_frameData {frame : List Byte} (hframe : 1 ≤ frame.length) (f : Bit) :
    rxFrame (frameData frame f ++ [false, true, true, true, true, true]) = if f then none else some frame := by
  have hbits : (frameData frame f ++ [false, true, true, true, true, true]).take
      ((frameData frame f ++ [false, true, true, true, true, true]).length - 6) = frameData frame f :=
    List.take_left' (by rw [List.length_append]; rfl)
  cases f with
  | false => exact (rxFrame_eq_some_iff _ _).2 ⟨hframe, by rw [List.length_append]; exact Nat.le_add_left _ _, hbits⟩
  | true =>
    refine Option.eq_none_iff_forall_ne_some.2 fun body hbody => ?_
    obtain ⟨-, -, hdata⟩ := (rxFrame_eq_some_iff _ _).1 hbody
    have hbytes := congrArg bytesOfBits (hbits.symm.trans hdata)
    rw [frameData, bytesOfBits_flatMap_lsbFirst, bytesOfBits_flatMap_lsbFirst] at hbytes
    obtain ⟨rfl, hfcs⟩ := List.append_inj' hbytes rfl
    have hbit := congrArg (fun b : Byte => b.getLsbD 0) (List.cons.inj hfcs).1
    simp [loByte, sentFcs] at hbit

/-- The stuffed bits of a frame and its closing flag deliver it exactly when a flag came before them and the FCS is good
(R140, R142). -/
theorem Chan.hears_frame {c : Chan} (hones : c.rxOnes = 0) (hacc : c.rxAcc = []) {frame : List Byte}
    (hmin : 1 ≤ frame.length) (hmax : frame.length + 2 ≤ 2048) (f : Bit) :
    (c.hears (frameBits frame f ++ flagBits)).2 = if c.rxSync && !f then [frame] else [] := by
  have hlength := length_frameData frame f
  obtain ⟨ones, hle, hdata⟩ := Chan.hears_stuffed (frameData frame f) (c := c) (by rw [hones]; decide)
    (by rw [hacc, List.length_nil]; omega)
  have hbits : stuffed c.rxOnes.toNat (frameData frame f) = frameBits frame f := by rw [hones]; rfl
  rw [hbits, hacc] at hdata
  have hkept := length_keptBits_le c.rxSync [] (frameData frame f)
  rw [Chan.hears_append, hdata, Chan.hears_flag hle (hkept.trans (by rw [List.length_nil]; omega))]
  cases hsync : c.rxSync with
  | false => rfl
  | true =>
    refine (congrArg Option.toList (rxFrame_frameData hmin f)).trans ?_
    cases f <;> rfl

/-- An idle receiver at the sender's level delivers the frame after any number of filler flags (R142). -/
theorem Chan.hears_flags_frame {c : Chan} (hidle : c.rxIdle) (k : Nat) {frame : List Byte} (hmin : 1 ≤ frame.length)
    (hmax : frame.length + 2 ≤ 2048) (f : Bit) :
    (c.hears ((List.replicate k flagBits).flatten ++ hdlcBits frame f)).2 = if f then [] else [frame] := by
  obtain ⟨hones, -, hacc⟩ := hidle
  have hbits : (List.replicate k flagBits).flatten ++ hdlcBits frame f
      = (List.replicate (k + 1) flagBits).flatten ++ (frameBits frame f ++ flagBits) := by
    simp [hdlcBits, List.replicate_succ']
  rw [hbits, Chan.hears_append, Chan.hears_flags k hones hacc]
  refine (Chan.hears_frame (c := c.flagSeen) rfl rfl hmin hmax f).trans ?_
  cases f <;> rfl

/-! The round trip (R142). -/

/-- The levels of PREAMBLE and HDLC_SEND in a row are those of the flags and the frame as one sequence (R130, R135,
R136). -/
theorem gainedBits_preamble_hdlcSend {ch : BitVec 8} {f : Bit} {k n : BitVec 12} {s t u : State} {c c' : Chan}
    (hc : s.chan? ch.toNat = some c) (hmode : (effCfg c.cfg).mode ≠ modeIl2p)
    (ht : exec (.preamble ch false k) s = .next t) (hu : exec (.hdlcSend ch f n) t = .next u)
    (hc' : u.chan? ch.toNat = some c') :
    gainedBits c c'
      = nrziLevels c.nrziLvl ((List.replicate k.toNat flagBits).flatten ++ hdlcBits (s.ibufBytes 0 n.toNat) f) := by
  have hchan := exec_chan?_named rfl ht
  rw [hc, Option.map_some, Instr.chanAfter, if_neg nofun, Chan.startCount_sendFiller_of_not_il2p hmode] at hchan
  rw [hdlcSend_chan hchan hu hc', exec_ibufBytes ht]
  refine gainedBits_of_sink ?_
  rw [nrziLevels_append, nrziEnd_flags, List.map_append, ← List.append_assoc]
  rfl

/-- Settles O29: a receiver at the sender's level hears the bits as sent; at the other level the first flag brings it there
and is lost, and with it the only flag when there is no filler. -/
theorem hdlcLoopbackDeliversFrame : Obligations.HdlcLoopbackDeliversFrame := by
  intro ch f k n s t u c c' d hmin hmax hc hmode ht hu hc' hidle
  rw [gainedBits_preamble_hdlcSend hc (by rw [hmode]; decide) ht hu hc']
  have hmin' : 1 ≤ (s.ibufBytes 0 n.toNat).length := by rwa [State.length_ibufBytes]
  have hmax' : (s.ibufBytes 0 n.toNat).length + 2 ≤ 2048 := by rwa [State.length_ibufBytes]
  have hidle' : ({ d with rxLvl := !d.rxLvl } : Chan).rxIdle := hidle
  by_cases hlvl : d.rxLvl = c.nrziLvl
  · refine ⟨fun _ => ?_, fun hne => absurd hlvl hne⟩
    rw [← hlvl]
    exact Chan.hears_flags_frame hidle k.toNat hmin' hmax' f
  · have hother : c.nrziLvl = !d.rxLvl := Bool.eq_not.2 (Ne.symm hlvl)
    rw [hother]
    refine ⟨fun h => ?_, fun _ hk => ?_⟩
    · obtain ⟨j, hj⟩ := Nat.exists_eq_succ_of_ne_zero (Nat.pos_iff_ne_zero.1 (h.resolve_left (hother ▸ hlvl)))
      rw [hj, List.replicate_succ, List.flatten_cons, List.append_assoc, Chan.rxLevels_late_flag hidle]
      exact Chan.hears_flags_frame hidle' j hmin' hmax' f
    · have ⟨hones, hsync, hacc⟩ := hidle
      rw [hk, List.replicate_zero, List.flatten_nil, List.nil_append, hdlcBits, List.append_assoc,
        Chan.rxLevels_late_flag hidle]
      refine (Chan.hears_frame (c := { d with rxLvl := !d.rxLvl }) hones hacc hmin' hmax' f).trans ?_
      rw [hsync]
      rfl

end Sys2Proof.Machine
end

section
/-! SUPPORT. The planner and the encoder together: the plan of the empty payload, and the encoding of every legal payload.
Settles O31 and O33. -/

namespace Sys2Proof.Machine

/-- The planner answers an empty payload with the zero plan in both modes (R186). -/
theorem plan_zero (m : Bit) : plan 0 m = .ok (zeroPlan m) := by
  rw [plan, if_neg (Nat.not_lt_zero _), if_pos rfl]

/-- Settles O31: the fields are those of `zeroPlan`, whose maximum-FEC parity is the configured 16. -/
theorem zeroPlanValues : Obligations.ZeroPlanValues :=
  plan_zero

/-- Settles O33: the planner has a plan for every legal size (R187), the encoder follows it, and its blocks partition the
payload, so the encoding is as long as planned. -/
theorem encodingHasPlannedLength : Obligations.EncodingHasPlannedLength := by
  intro payload m hsize
  obtain ⟨p, hp, -⟩ := planIsSoundForLegalSizes payload.length m hsize
  obtain ⟨out, hout⟩ := encPayload_succeeds hsize m Codec.machine
  exact ⟨p, out, hp, hout, length_encPayload hp hout⟩

end Sys2Proof.Machine
end

section
/-! SUPPORT. The blocks of a plan: where they lie, how large they are, and that they hold the payload. -/

namespace Sys2Proof.Machine

/-! Order (R200). -/

/-- A plan has its large and its small blocks (R200). -/
theorem BlockPlan.length_blocks (p : BlockPlan) : p.blocks.length = p.largeBlockCount + p.smallBlockCount := by
  simp [BlockPlan.blocks]

/-- Block j of a plan, the large blocks first (R200). -/
theorem BlockPlan.getElem_blocks (p : BlockPlan) {j : Nat} (h : j < p.blocks.length) :
    p.blocks[j] = if j < p.largeBlockCount then (j * p.largeBlockSize, p.largeBlockSize)
      else (p.largeBlockCount * p.largeBlockSize + (j - p.largeBlockCount) * p.smallBlockSize, p.smallBlockSize) := by
  simp only [BlockPlan.blocks, List.getElem_append, List.length_map, List.length_range, List.getElem_map,
    List.getElem_range]
  split <;> rfl

/-- A block is a large one or a small one (R200). -/
theorem BlockPlan.block_size_cases {p : BlockPlan} {b : Nat × Nat} (hb : b ∈ p.blocks) :
    (1 ≤ p.largeBlockCount ∧ b.2 = p.largeBlockSize) ∨ (1 ≤ p.smallBlockCount ∧ b.2 = p.smallBlockSize) := by
  rw [BlockPlan.blocks, List.mem_append] at hb
  simp only [List.mem_map, List.mem_range] at hb
  obtain ⟨j, hj, rfl⟩ | ⟨j, hj, rfl⟩ := hb
  · exact .inl ⟨Nat.one_le_of_lt hj, rfl⟩
  · exact .inr ⟨Nat.one_le_of_lt hj, rfl⟩

/-! Sizes (R185, R187). -/

/-- The blocks of a plan partition the payload (R185). -/
theorem plan_partition {n : Nat} {m : Bit} {p : BlockPlan} (hp : plan n m = .ok p) :
    p.smallBlockCount * p.smallBlockSize + p.largeBlockCount * p.largeBlockSize = n := by
  obtain ⟨q, hq, -, hpart, -⟩ := planIsSoundForLegalSizes n m (plan_ok_size_le hp)
  obtain rfl : p = q := Except.ok.inj (hp.symm.trans hq)
  exact hpart

/-- The blocks of a plan are as long as the payload. -/
theorem plan_sum_sizes {n : Nat} {m : Bit} {p : BlockPlan} (hp : plan n m = .ok p) :
    (p.blocks.map fun b => b.2).sum = n := by
  have hpart := plan_partition hp
  exact (BlockPlan.sum_blocks { p with paritySymbols := 0 }).trans hpart

/-- The blocks of a plan, each with its parity, are as long as the encoding (R185). -/
theorem plan_sum_codewords {n : Nat} {m : Bit} {p : BlockPlan} (hp : plan n m = .ok p) :
    (p.blocks.map fun b => b.2 + p.paritySymbols).sum = p.encodedLength := by
  obtain ⟨q, hq, -, hpart, hcount, -, -, -, -, -, -, -, -, hlen, -⟩ :=
    planIsSoundForLegalSizes n m (plan_ok_size_le hp)
  obtain rfl : p = q := Except.ok.inj (hp.symm.trans hq)
  rw [p.sum_blocks, hlen, ← hpart, ← hcount]
  ring

/-- The parity count of a plan is one that R15 speaks of (R181, R184). -/
theorem plan_parity_mem {n : Nat} {m : Bit} {p : BlockPlan} (hp : plan n m = .ok p) :
    p.paritySymbols ∈ [2, 4, 6, 8, 16] := by
  obtain ⟨q, hq, -, -, -, -, -, -, hparity, -⟩ := planIsSoundForLegalSizes n m (plan_ok_size_le hp)
  obtain rfl : p = q := Except.ok.inj (hp.symm.trans hq)
  exact hparity

/-- The small blocks of a payload that is not empty are not empty: there are at most as many blocks as bytes (R181 to
R183). -/
theorem plan_smallBlockSize_pos {n : Nat} {m : Bit} {p : BlockPlan} (hn : 0 < n) (hp : plan n m = .ok p) :
    0 < p.smallBlockSize := by
  obtain ⟨q, hq, -, -, -, -, hsize, hlarge, -⟩ := planIsSoundForLegalSizes n m (plan_ok_size_le hp)
  obtain rfl : p = q := Except.ok.inj (hp.symm.trans hq)
  obtain ⟨hcount, hsmall⟩ := hsize hn
  have hle : p.blockCount ≤ n := by
    rw [hcount]
    split <;> omega
  exact hsmall ▸ Nat.div_pos hle (Nat.zero_lt_of_lt (hlarge hn))

/-- A block of a plan is not empty and fits a Reed-Solomon codeword with its parity (R187). -/
theorem plan_block_fits {n : Nat} {m : Bit} {p : BlockPlan} (hp : plan n m = .ok p) {b : Nat × Nat}
    (hb : b ∈ p.blocks) : 1 ≤ b.2 ∧ b.2 + p.paritySymbols ≤ 255 := by
  obtain ⟨q, hq, -, -, -, hls, -, -, -, -, -, hsmallFits, hlargeFits, -⟩ :=
    planIsSoundForLegalSizes n m (plan_ok_size_le hp)
  obtain rfl : p = q := Except.ok.inj (hp.symm.trans hq)
  have hn : 0 < n := by
    by_contra h0
    obtain rfl : n = 0 := by omega
    obtain rfl : zeroPlan m = p := Except.ok.inj ((plan_zero m).symm.trans hp)
    exact absurd hb List.not_mem_nil
  have hss := plan_smallBlockSize_pos hn hp
  obtain ⟨hcount, hsize⟩ | ⟨hcount, hsize⟩ := BlockPlan.block_size_cases hb
  · have := hlargeFits hcount
    omega
  · have := hsmallFits hcount
    omega

/-! The payload cut into its blocks (R200). -/

/-- Two slices that meet are one slice. -/
theorem slice_append_slice (s : List Byte) (off l l' : Nat) :
    slice s off l ++ slice s (off + l) l' = slice s off (l + l') := by
  simp only [slice, List.take_add, List.drop_drop]

/-- Blocks of one length that follow each other are one slice. -/
theorem flatMap_slice_consecutive (s : List Byte) (off l count : Nat) :
    ((List.range count).map fun j => (off + j * l, l)).flatMap (fun b => slice s b.1 b.2) = slice s off (count * l) := by
  induction count with
  | zero => simp [slice]
  | succ count ih =>
    rw [List.range_succ, List.map_append, List.flatMap_append, ih, Nat.succ_mul, ← slice_append_slice]
    simp

/-- The blocks of a plan, joined, are the payload (R185, R200). -/
theorem plan_flatMap_slice {s : List Byte} {m : Bit} {p : BlockPlan} (hp : plan s.length m = .ok p) :
    p.blocks.flatMap (fun b => slice s b.1 b.2) = s := by
  have hlarge := flatMap_slice_consecutive s 0 p.largeBlockSize p.largeBlockCount
  simp only [Nat.zero_add] at hlarge
  have hjoin := slice_append_slice s 0 (p.largeBlockCount * p.largeBlockSize) (p.smallBlockCount * p.smallBlockSize)
  rw [Nat.zero_add] at hjoin
  rw [BlockPlan.blocks, List.flatMap_append, hlarge, flatMap_slice_consecutive, hjoin, Nat.add_comm, plan_partition hp]
  simp [slice]

end Sys2Proof.Machine
end

section
/-! SUPPORT. The encoding and the decoding block by block: what stands where, when a decode fails, and what it joins. Settles
O34, O35, O36 and O37. -/

namespace Sys2Proof.Machine

/-! The encoding (R203). -/

/-- The parts of a joined list, each found after the sizes of those before it. -/
theorem take_drop_flatMap {f : Nat × Nat → List Byte} {size : Nat × Nat → Nat} {bs : List (Nat × Nat)}
    (hsize : ∀ b ∈ bs, (f b).length = size b) {j : Nat} (h : j < bs.length) :
    ((bs.flatMap f).drop ((bs.take j).map size).sum).take (size bs[j]) = f bs[j] := by
  have hsplit : bs.flatMap f = (bs.take j).flatMap f ++ (f bs[j] ++ (bs.drop (j + 1)).flatMap f) := by
    rw [← List.flatMap_cons, List.getElem_cons_drop, ← List.flatMap_append, List.take_append_drop]
  have hstart : ((bs.take j).map size).sum = ((bs.take j).flatMap f).length := by
    rw [List.length_flatMap, List.map_congr_left fun b hb => hsize b (List.mem_of_mem_take hb)]
  rw [hsplit, hstart, List.drop_left, ← hsize _ (List.getElem_mem h), List.take_left]

/-- Block j of an encoding: the encoded block of the payload, after the earlier blocks and their parity (R200, R203). -/
theorem encPayload_block {s out : List Byte} {m : Bit} {p : BlockPlan} (hp : plan s.length m = .ok p)
    (hout : encPayload Codec.machine s m = .ok out) {j : Nat} (h : j < p.blocks.length) :
    (out.drop (((p.blocks.take j).map fun b => b.2 + p.paritySymbols).sum)).take (p.blocks[j].2 + p.paritySymbols)
      = encodeBlock Codec.machine p.paritySymbols (slice s p.blocks[j].1 p.blocks[j].2) := by
  obtain rfl : p.blocks.flatMap (fun b => encodeBlock Codec.machine p.paritySymbols (slice s b.1 b.2)) = out := by
    simpa [encPayload, hp] using hout
  refine take_drop_flatMap (size := fun b => b.2 + p.paritySymbols) (fun b hb => ?_) h
  rw [length_encodeBlock, length_slice (BlockPlan.block_end_le (plan_partition hp) hb)]

/-- Settles O34: the block order is that of `blocks`, and the encoding joins the encoded blocks in it. -/
theorem encodedBlocksInOrder : Obligations.EncodedBlocksInOrder :=
  fun _ _ p _ hp hout => ⟨p.length_blocks, fun _ h => ⟨p.getElem_blocks h, encPayload_block hp hout h⟩⟩

/-! The received codewords (R205). -/

/-- The codewords the decoder cuts from the received bytes for these blocks, from a position on (R200, R205). -/
def receivedCodewords (r : List Byte) (k : Nat) : Nat → List (Nat × Nat) → List (List Byte)
  | _, [] => []
  | pos, b :: bs => slice r pos (b.2 + k) :: receivedCodewords r k (pos + b.2 + k) bs

@[simp] theorem length_receivedCodewords (r : List Byte) (k pos : Nat) (bs : List (Nat × Nat)) :
    (receivedCodewords r k pos bs).length = bs.length := by
  induction bs generalizing pos with
  | nil => rfl
  | cons b bs ih => simp [receivedCodewords, ih]

/-- The codeword of block j stands after the earlier blocks and their parity (R200). -/
theorem getElem_receivedCodewords (r : List Byte) (k pos : Nat) (bs : List (Nat × Nat)) {j : Nat}
    (h : j < (receivedCodewords r k pos bs).length) (h' : j < bs.length) :
    (receivedCodewords r k pos bs)[j] = slice r (pos + ((bs.take j).map fun b => b.2 + k).sum) (bs[j].2 + k) := by
  induction bs generalizing pos j with
  | nil => exact absurd h' (Nat.not_lt_zero j)
  | cons b bs ih =>
    cases j with
    | zero => simp [receivedCodewords]
    | succ j =>
      simp only [receivedCodewords, List.getElem_cons_succ, List.take_succ_cons, List.map_cons, List.sum_cons]
      rw [ih, Nat.add_assoc pos, Nat.add_assoc pos]

/-! The decoder's loop (R205). -/

/-- The loop of DEC_PAYLOAD over some blocks, from its first state (R205). -/
def decodeBlocks (C : Codec) (free : Nat → Byte) (r : List Byte) (k : Nat) (bs : List (Nat × Nat)) : DecState :=
  bs.foldl (decodeBlock C free r k) { out := [], corr := 0, failed := false, pos := 0 }

/-- The decoder of a size that has a plan: a failed block is tested before the length (R205). -/
theorem decPayload_of_plan {n : Nat} {m : Bit} {p : BlockPlan} (hp : plan n m = .ok p) (C : Codec) (free : Nat → Byte)
    (r : List Byte) :
    decPayload C free r n m
      = if (decodeBlocks C free r p.paritySymbols p.blocks).failed then .error .uncorrectable
        else if (decodeBlocks C free r p.paritySymbols p.blocks).out.length ≠ n then .error .internalInconsistency
        else .ok ((decodeBlocks C free r p.paritySymbols p.blocks).out,
          (decodeBlocks C free r p.paritySymbols p.blocks).corr) := by
  rw [decPayload, hp]
  rfl

section Loop

variable (C : Codec) (free : Nat → Byte) (r : List Byte) (k : Nat)

/-- The loop fails when it had failed before or some codeword does not decode, whatever the others do. -/
theorem foldl_decodeBlock_failed (bs : List (Nat × Nat)) (d : DecState) :
    (bs.foldl (decodeBlock C free r k) d).failed = true
      ↔ d.failed = true ∨ ∃ cw ∈ receivedCodewords r k d.pos bs, C.rsDec cw k = none := by
  induction bs generalizing d with
  | nil => simp [receivedCodewords]
  | cons b bs ih =>
    rw [List.foldl_cons, ih, decodeBlock_pos, receivedCodewords, List.exists_mem_cons_iff]
    obtain ⟨block, c, hdec, heq⟩ | ⟨hdec, heq⟩ := decodeBlock_cases C free r k d b <;> simp [heq, hdec]

/-- When every codeword decodes, the loop joins the descrambled blocks and adds up the corrections. -/
theorem foldl_decodeBlock_joins (bs : List (Nat × Nat)) (d : DecState) (corrected : List (List Byte × Nat))
    (h : (receivedCodewords r k d.pos bs).map (C.rsDec · k) = corrected.map some) :
    (bs.foldl (decodeBlock C free r k) d).out = d.out ++ corrected.flatMap (fun x => C.descramble x.1)
      ∧ (bs.foldl (decodeBlock C free r k) d).corr = d.corr + (corrected.map fun x => x.2).sum := by
  induction bs generalizing d corrected with
  | nil =>
    obtain rfl : corrected = [] := by simpa [receivedCodewords] using h.symm
    simp
  | cons b bs ih =>
    cases corrected with
    | nil => simp [receivedCodewords] at h
    | cons x corrected =>
      simp only [receivedCodewords, List.map_cons, List.cons.injEq] at h
      obtain ⟨hdec, hrest⟩ := h
      have hblock : decodeBlock C free r k d b
          = ⟨d.out ++ C.descramble x.1, d.corr + x.2, d.failed, d.pos + b.2 + k⟩ := by
        simp only [decodeBlock, hdec]
      have := ih (decodeBlock C free r k d b) corrected (by rwa [decodeBlock_pos])
      simpa [hblock, Nat.add_assoc] using this

/-- A block adds its own length to the recovered bytes, decoded or not, when its codeword was received whole (R15). -/
theorem length_out_decodeBlock {d : DecState} {b : Nat × Nat} (h : d.pos + (b.2 + k) ≤ r.length) :
    (decodeBlock Codec.machine free r k d b).out.length = d.out.length + b.2 := by
  obtain ⟨block, c, hdec, heq⟩ | ⟨-, heq⟩ := decodeBlock_cases Codec.machine free r k d b
  · have hlen := (Codec.machine_rsDec_length hdec).1
    rw [length_slice h, Nat.add_sub_cancel] at hlen
    simp [heq, hlen]
  · simp [heq]

/-- The loop recovers as many bytes as its blocks have when all their codewords were received whole. -/
theorem length_out_foldl_decodeBlock (bs : List (Nat × Nat)) (d : DecState)
    (h : d.pos + (bs.map fun b => b.2 + k).sum ≤ r.length) :
    (bs.foldl (decodeBlock Codec.machine free r k) d).out.length = d.out.length + (bs.map fun b => b.2).sum := by
  induction bs generalizing d with
  | nil => simp
  | cons b bs ih =>
    rw [List.map_cons, List.sum_cons] at h
    rw [List.foldl_cons, ih _ (by rw [decodeBlock_pos]; omega), length_out_decodeBlock free r k (by omega),
      List.map_cons, List.sum_cons, Nat.add_assoc]

end Loop

/-! The decoder (R205). -/

/-- A decode of the planned number of bytes recovers the size asked for, so the length check of R205 never fails. -/
theorem length_out_decodeBlocks {n : Nat} {m : Bit} {p : BlockPlan} (hp : plan n m = .ok p) (free : Nat → Byte)
    {r : List Byte} (hr : r.length = p.encodedLength) :
    (decodeBlocks Codec.machine free r p.paritySymbols p.blocks).out.length = n := by
  have hwhole := (plan_sum_codewords hp).trans hr.symm
  rw [decodeBlocks, length_out_foldl_decodeBlock _ _ _ _ _ (by rw [Nat.zero_add]; exact hwhole.le), plan_sum_sizes hp]
  exact Nat.zero_add n

/-- A decode is Uncorrectable exactly when its loop failed (R205). -/
theorem decPayload_eq_uncorrectable_iff {n : Nat} {m : Bit} {p : BlockPlan} (hp : plan n m = .ok p) (C : Codec)
    (free : Nat → Byte) (r : List Byte) :
    decPayload C free r n m = .error .uncorrectable ↔ (decodeBlocks C free r p.paritySymbols p.blocks).failed = true := by
  rw [decPayload_of_plan hp]
  split_ifs with hfailed hlen <;> simp [hfailed]

/-- A decode of the planned number of bytes fails only as Uncorrectable (R205). -/
theorem decPayload_error {n : Nat} {m : Bit} {p : BlockPlan} (hp : plan n m = .ok p) {free : Nat → Byte} {r : List Byte}
    (hr : r.length = p.encodedLength) {e : StatusError} (h : decPayload Codec.machine free r n m = .error e) :
    e = .uncorrectable := by
  rw [decPayload_of_plan hp, length_out_decodeBlocks hp free hr] at h
  split_ifs at h with _ hne
  · exact (Except.error.inj h).symm
  · exact absurd rfl hne

/-- Settles O36: the loop fails exactly when one of the received codewords does not decode, and these are the codewords the
statement names by their place. -/
theorem decodeFailsIffABlockFails : Obligations.DecodeFailsIffABlockFails := by
  intro anyByte r n m p hp
  rw [decPayload_eq_uncorrectable_iff hp, decodeBlocks, foldl_decodeBlock_failed]
  simp only [Bool.false_eq_true, false_or, List.exists_mem_iff_getElem, length_receivedCodewords]
  refine exists_congr fun j => exists_congr fun h => ?_
  rw [getElem_receivedCodewords r _ _ _ _ h, Nat.zero_add, slice]

/-- Settles O37: no codeword fails, so the loop joins the corrected blocks; a whole encoding was received, so what it joins
has the size asked for. -/
theorem decodeJoinsCorrectedBlocks : Obligations.DecodeJoinsCorrectedBlocks := by
  intro anyByte r n m p corrected hp hr hcount hdec
  have hall : (receivedCodewords r p.paritySymbols 0 p.blocks).map (Codec.machine.rsDec · p.paritySymbols)
      = corrected.map some := by
    refine List.ext_getElem (by simp [hcount]) fun j hj hj' => ?_
    rw [List.length_map] at hj'
    rw [List.getElem_map, List.getElem_map, ← List.getElem?_eq_getElem hj', ← hdec j (hcount ▸ hj'),
      getElem_receivedCodewords r _ _ _ _ (hcount ▸ hj'), Nat.zero_add, slice]
  have hgood : ¬ (decodeBlocks Codec.machine anyByte r p.paritySymbols p.blocks).failed = true := by
    rw [decodeBlocks, foldl_decodeBlock_failed]
    rintro (h | ⟨cw, hcw, hnone⟩)
    · exact nomatch h
    · have hmem := List.mem_map_of_mem (f := (Codec.machine.rsDec · p.paritySymbols)) hcw
      rw [hall] at hmem
      simp [hnone] at hmem
  have hlen := length_out_decodeBlocks hp anyByte hr
  obtain ⟨hout, hcorr⟩ := foldl_decodeBlock_joins Codec.machine anyByte r p.paritySymbols p.blocks
    { out := [], corr := 0, failed := false, pos := 0 } corrected hall
  rw [decPayload_of_plan hp, if_neg hgood, if_neg (not_not.2 hlen), decodeBlocks, hout, hcorr, List.nil_append,
    Nat.zero_add]

/-! The round trip (R207). -/

/-- A block that fits a codeword, encoded, decodes to its scrambled bytes with no correction (R15). -/
theorem rsDec_encodeBlock {k : Nat} (hk : k ∈ [2, 4, 6, 8, 16]) {block : List Byte} (hpos : 1 ≤ block.length)
    (hfits : block.length + k ≤ 255) :
    Codec.machine.rsDec (encodeBlock Codec.machine k block) k = some (Codec.machine.scramble block, 0) :=
  Codec.machine_rsDec_rsEnc _ k (by simpa using hpos) (by simpa using hfits) hk

/-- Settles O35: each block of the encoding is a codeword of its scrambled block (O34), so the decode joins the descrambled
blocks with no correction (O37), and these partition the payload. -/
theorem payloadRoundTrip : Obligations.PayloadRoundTrip := by
  intro payload m anyByte hsize
  obtain ⟨p, out, hp, hout, hlen⟩ := encodingHasPlannedLength payload m hsize
  have hdec := decodeJoinsCorrectedBlocks anyByte out payload.length m p
    (p.blocks.map fun b => (Codec.machine.scramble (slice payload b.1 b.2), 0)) hp hlen (by simp) fun j h => by
      have hb := List.getElem_mem h
      have hslice := length_slice (BlockPlan.block_end_le (plan_partition hp) hb)
      obtain ⟨hpos, hfits⟩ := plan_block_fits hp hb
      rw [encPayload_block hp hout h, rsDec_encodeBlock (plan_parity_mem hp) (by omega) (by omega)]
      simp [h]
  refine ⟨out, hout, hdec.trans ?_⟩
  simp only [List.flatMap_map, Codec.machine_descramble_scramble, plan_flatMap_slice hp, List.map_map]
  simp [Function.comp_def]

end Sys2Proof.Machine
end

section
/-! SUPPORT. IL2P_ENC and IL2P_DEC of a legal size. Settles O38, O39 and O40. -/

namespace Sys2Proof.Machine

/-- The encoded length of a size that has a plan (R206). -/
theorem encodedLength_of_plan {n : Nat} {m : Bit} {p : BlockPlan} (hp : plan n m = .ok p) :
    encodedLength n m = p.encodedLength := by
  simp only [encodedLength, hp]

/-- A legal size passes the commands' size check (R9). -/
theorem not_gt_maxPayload {n : Nat} (h : n ≤ 1023) : ¬ n > Config.maxPayload :=
  Nat.not_lt.2 h

/-! IL2P_ENC (R204). -/

/-- IL2P_ENC of a legal size whose operand encodes (R204). -/
theorem execIl2pEnc_of_ok {m : Bit} {size : BitVec 12} {s : State} {out : List Byte} (hsize : size.toNat ≤ 1023)
    (hout : encPayload Codec.machine (s.ibufBytes 0 size.toNat) m = .ok out) :
    execIl2pEnc m size s = .next ((s.storeOut out).finish (countWord out.length) 0 0 (countWord out.length)) := by
  rw [execIl2pEnc, if_neg (not_gt_maxPayload hsize), withIbuf_pos (inBuffer_len size),
    guardRange_pos (inBuffer_encodedLength _ m), hout]

/-- Settles O38: every operand of a legal size encodes to the planned length, and its bytes are stored. -/
theorem il2pEncWritesEncoding : Obligations.Il2pEncWritesEncoding := by
  intro m size s
  refine ⟨fun hsize => ?_, fun hsize => if_pos hsize⟩
  obtain ⟨p, out, hp, hout, hlen⟩ :=
    encodingHasPlannedLength (s.ibufBytes 0 size.toNat) m (by rwa [State.length_ibufBytes])
  rw [State.length_ibufBytes] at hp
  exact ⟨p, out, _, hp, hout, execIl2pEnc_of_ok hsize hout, hlen ▸ ⟨rfl, rfl, rfl, rfl⟩,
    s.obufHolds_storeOut out _ _ _ _, ⟨rfl, rfl, rfl, rfl, rfl⟩, rfl⟩

/-! IL2P_DEC (R206). -/

/-- IL2P_DEC of a legal size whose operand decodes (R206). -/
theorem execIl2pDec_of_ok {m : Bit} {size : BitVec 12} {s : State} {p : BlockPlan} {out : List Byte} {corr : Nat}
    (hp : plan size.toNat m = .ok p)
    (hdec : decPayload Codec.machine (Config.failedBlockByte s.draws) (s.ibufBytes 0 p.encodedLength) size.toNat m
      = .ok (out, corr)) :
    execIl2pDec m size s
      = .next ((s.storeOut out).finish (countWord size.toNat) 0 (countWord corr) (countWord size.toNat)) := by
  rw [execIl2pDec, if_neg (not_gt_maxPayload (plan_ok_size_le hp)), withIbuf_pos (inBuffer_encodedLength _ m),
    encodedLength_of_plan hp, guardRange_pos (inBuffer_len size), hdec]

/-- IL2P_DEC of a legal size whose operand does not decode (R206). -/
theorem execIl2pDec_of_error {m : Bit} {size : BitVec 12} {s : State} {p : BlockPlan} {e : StatusError}
    (hp : plan size.toNat m = .ok p)
    (hdec : decPayload Codec.machine (Config.failedBlockByte s.draws) (s.ibufBytes 0 p.encodedLength) size.toNat m
      = .error e) :
    execIl2pDec m size s = .next (s.finishFailedDecode e size.toNat) := by
  rw [execIl2pDec, if_neg (not_gt_maxPayload (plan_ok_size_le hp)), withIbuf_pos (inBuffer_encodedLength _ m),
    encodedLength_of_plan hp, guardRange_pos (inBuffer_len size), hdec]

/-- A failed decode opens OBUF[0..n) and keeps every byte beyond (R206). -/
theorem State.obufByte_finishFailedDecode_of_le (e : StatusError) {n a : Nat} (h : n ≤ a) (s : State) :
    (s.finishFailedDecode e n).obufByte a = s.obufByte a :=
  s.obufByte_storeOut_of_le (by simpa using h)

/-- Settles O39: a decode of the planned number of bytes recovers the size asked for or fails as Uncorrectable, and each
answer is what the command reports. -/
theorem il2pDecRecoversOrReports : Obligations.Il2pDecRecoversOrReports := by
  intro m size s
  refine ⟨fun hsize => ?_, fun hsize => if_pos hsize⟩
  obtain ⟨p, hp, -⟩ := planIsSoundForLegalSizes size.toNat m hsize
  cases hdec : decPayload Codec.machine (Config.failedBlockByte s.draws) (s.ibufBytes 0 p.encodedLength) size.toNat m with
  | ok answer =>
    refine ⟨p, _, hp, execIl2pDec_of_ok hp hdec, ⟨rfl, rfl, rfl, rfl, rfl⟩, ?_⟩
    rw [hdec]
    exact ⟨⟨rfl, rfl, rfl, rfl⟩, length_decPayload hdec, s.obufHolds_storeOut _ _ _ _ _, rfl⟩
  | error e =>
    obtain rfl := decPayload_error hp (State.length_ibufBytes s 0 _) hdec
    refine ⟨p, _, hp, execIl2pDec_of_error hp hdec, ⟨rfl, rfl, rfl, rfl, rfl⟩, ?_⟩
    rw [hdec]
    exact ⟨rfl, rfl, rfl, rfl, fun a ha => s.obufByte_finishFailedDecode_of_le _ ha⟩

/-- Settles O40: IL2P_DEC reads as many bytes as the encoding has, and they decode to the payload (O35). -/
theorem il2pDecOfEncodingSucceeds : Obligations.Il2pDecOfEncodingSucceeds := by
  intro m size s payload out hsize hpayload hout hibuf
  obtain ⟨p, hp, -⟩ := planIsSoundForLegalSizes payload.length m (hpayload ▸ hsize)
  obtain ⟨out', hout', hdec⟩ :=
    payloadRoundTrip payload m (Config.failedBlockByte s.draws) (hpayload ▸ hsize)
  obtain rfl : out = out' := Except.ok.inj (hout.symm.trans hout')
  rw [length_encPayload hp hout] at hibuf
  rw [hpayload] at hp hdec
  exact ⟨_, execIl2pDec_of_ok hp (hibuf.symm ▸ hdec), ⟨rfl, rfl, rfl, rfl⟩, s.obufHolds_storeOut payload _ _ _ _⟩

end Sys2Proof.Machine
end

section
/-! SUPPORT. The Hamming code is linear, so a decode is a nibble and a correction; the trailing CRC and its two decoding
commands. Settles O41, O42, O43, O45 and O46. -/

namespace Sys2Proof.Machine

/-! Codewords (R230). -/

/-- The bits of a codeword: the nibble's and, above them, its parity's (R230). -/
theorem getLsbD_hamEnc (v : BitVec 4) (i : Nat) :
    (hamEnc v).getLsbD i = if i < 4 then v.getLsbD i else (hamParity v).getLsbD (i - 4) := by
  rw [hamEnc, BitVec.getLsbD_append, BitVec.getLsbD_append, BitVec.getLsbD_zero]
  split_ifs with hdata hparity
  · rfl
  · rfl
  · rw [BitVec.getLsbD_of_ge _ _ (Nat.not_lt.1 hparity)]

/-- The bits of a nibble's parity (R230). -/
theorem getLsbD_hamParity (v : BitVec 4) (i : Nat) :
    (hamParity v).getLsbD i
      = if i < 1 then v.getLsbD 0 ^^ v.getLsbD 2 ^^ v.getLsbD 3
        else if i < 2 then v.getLsbD 0 ^^ v.getLsbD 1 ^^ v.getLsbD 3
        else decide (i < 3) && (v.getLsbD 0 ^^ v.getLsbD 1 ^^ v.getLsbD 2) := by
  rw [hamParity, BitVec.getLsbD_append, BitVec.getLsbD_append]
  rcases i with _ | _ | _ | i <;> simp

/-- Settles O41: a codeword's bits are its nibble's and, above them, its parity's. -/
theorem hammingEncodeTable : Obligations.HammingEncodeTable := by
  have hparity (v : BitVec 4) (i : Nat) : (hamEnc v).getLsbD (i + 4) = (hamParity v).getLsbD i :=
    (getLsbD_hamEnc v (i + 4)).trans (if_neg (by omega))
  refine ⟨fun v => ⟨fun i hi => (getLsbD_hamEnc v i).trans (if_pos hi), ?_, ?_, ?_, ?_⟩, by decide⟩
  · exact (hparity v 0).trans (getLsbD_hamParity v 0)
  · exact (hparity v 1).trans (getLsbD_hamParity v 1)
  · exact (hparity v 2).trans (getLsbD_hamParity v 2)
  · exact (hparity v 3).trans (getLsbD_hamParity v 3)

/-! Decoding (R231). -/

/-- The data bits of a codeword (R230). -/
@[simp] theorem extractLsb'_data_hamEnc (v : BitVec 4) : (hamEnc v).extractLsb' 0 4 = v := by
  rw [hamEnc, BitVec.extractLsb'_append_eq_right]

/-- The parity bits of a codeword (R230). -/
@[simp] theorem extractLsb'_parity_hamEnc (v : BitVec 4) : (hamEnc v).extractLsb' 4 3 = hamParity v := by
  rw [hamEnc, BitVec.extractLsb'_append_eq_of_le (by decide), BitVec.extractLsb'_append_eq_right]

/-- The parity of a nibble is linear (R230). -/
theorem hamParity_xor (v w : BitVec 4) : hamParity (v ^^^ w) = hamParity v ^^^ hamParity w := by
  revert v w
  decide

/-- The differences of a byte's parity bits from those of its data (R231). -/
def syndrome (b : Byte) : BitVec 3 :=
  b.extractLsb' 4 3 ^^^ hamParity (b.extractLsb' 0 4)

/-- What a syndrome changes in the data bits: the bit whose parities it names, if it names one (R231). -/
def correction (y : BitVec 3) : BitVec 4 :=
  if y = 7 then 1 else if y = 6 then 2 else if y = 5 then 4 else if y = 3 then 8 else 0

/-- A decode is the data bits with the correction of the syndrome (R231). -/
theorem hamDec_eq_xor_correction (b : Byte) : hamDec b = b.extractLsb' 0 4 ^^^ correction (syndrome b) := by
  simp only [correction, apply_ite (b.extractLsb' 0 4 ^^^ ·), BitVec.ofNat_eq_ofNat, BitVec.xor_zero]
  rfl

/-- A codeword added to a byte leaves the syndrome as it is (R231). -/
theorem syndrome_xor_hamEnc (b : Byte) (v : BitVec 4) : syndrome (b ^^^ hamEnc v) = syndrome b := by
  simp only [syndrome, BitVec.extractLsb'_xor, extractLsb'_data_hamEnc, extractLsb'_parity_hamEnc, hamParity_xor]
  rw [BitVec.xor_comm (hamParity _) (hamParity v), BitVec.xor_assoc, ← BitVec.xor_assoc (hamParity v),
    BitVec.xor_self, BitVec.zero_xor]

/-- A codeword added to a byte adds its nibble to the decode (R231). -/
theorem hamDec_xor_hamEnc (b : Byte) (v : BitVec 4) : hamDec (b ^^^ hamEnc v) = hamDec b ^^^ v := by
  rw [hamDec_eq_xor_correction, hamDec_eq_xor_correction, syndrome_xor_hamEnc, BitVec.extractLsb'_xor,
    extractLsb'_data_hamEnc, BitVec.xor_assoc, BitVec.xor_comm v, BitVec.xor_assoc]

/-- The distance of two bytes is the weight of their difference (R231). -/
theorem distance7_eq_xor (a b : Byte) : distance7 a b = distance7 (a ^^^ b) 0 := by
  simp [distance7, BitVec.getLsbD_xor]

/-- The bytes that decode to 0 are those with at most one of the bits [6:0] set (R231). -/
theorem distance7_zero_le_one_iff (e : Byte) : distance7 e 0 ≤ 1 ↔ hamDec e = 0 := by
  revert e
  decide

/-- Settles O42: take the codeword off; what is left decodes to 0 exactly when it has weight at most 1. -/
theorem hammingDecodeNearest : Obligations.HammingDecodeNearest := by
  intro b v
  calc distance7 b (hamEnc v) ≤ 1
    _ ↔ hamDec (b ^^^ hamEnc v) = 0 := by rw [distance7_eq_xor, distance7_zero_le_one_iff]
    _ ↔ hamDec b = v := by rw [hamDec_xor_hamEnc]; exact BitVec.xor_eq_zero_iff

/-- A codeword decodes to its nibble (R239). -/
@[simp] theorem hamDec_hamEnc (v : BitVec 4) : hamDec (hamEnc v) = v := by
  refine (hammingDecodeNearest _ v).1 ?_
  rw [distance7_eq_xor, BitVec.xor_self]
  decide

/-- One flipped bit does not change what a codeword decodes to (R239). -/
theorem hamDec_hamEnc_flip (v : BitVec 4) {i : Nat} (hi : i < 8) : hamDec (hamEnc v ^^^ (1 <<< i)) = v := by
  have hweight : ∀ i < 8, distance7 ((1 : Byte) <<< i) 0 ≤ 1 := by decide
  refine (hammingDecodeNearest _ v).1 ?_
  rw [distance7_eq_xor, BitVec.xor_comm (hamEnc v), BitVec.xor_assoc, BitVec.xor_self, BitVec.xor_zero]
  exact hweight i hi

/-! The trailing CRC (R233 to R235, R239). -/

/-- The CRC of four bytes is decided by what each of them decodes to (R234). -/
theorem crcDec4_congr {e e' : List Byte} (h : ∀ j < 4, hamDec (e.getD j 0) = hamDec (e'.getD j 0)) :
    crcDec4 e = crcDec4 e' := by
  rw [crcDec4, h 0 (by decide), h 1 (by decide), h 2 (by decide), h 3 (by decide), crcDec4]

/-- Decoding the codewords of a CRC gives the CRC (R239). -/
theorem crcDec4_crcEnc4 (c : BitVec 16) : crcDec4 (crcEnc4 c) = c := by
  simp only [crcDec4, crcEnc4, List.getD_cons_zero, List.getD_cons_succ, hamDec_hamEnc]
  rw [BitVec.extractLsb'_append_extractLsb'_eq_extractLsb' (show 12 = 8 + 4 from rfl),
    BitVec.extractLsb'_append_extractLsb'_eq_extractLsb' (show 8 = 4 + 4 from rfl),
    BitVec.extractLsb'_append_extractLsb'_eq_extractLsb' (show 4 = 0 + 4 from rfl)]
  exact BitVec.extractLsb'_eq_self

/-- Each byte of an encoded CRC is a codeword (R233). -/
theorem exists_getD_crcEnc4_eq_hamEnc (c : BitVec 16) {j : Nat} (hj : j < 4) :
    ∃ v, (crcEnc4 c).getD j 0 = hamEnc v := by
  interval_cases j <;> exact ⟨_, rfl⟩

/-- One flipped bit of an encoded CRC does not change the CRC it decodes to (R239). -/
theorem crcDec4_crcEnc4_flip (c : BitVec 16) {j i : Nat} (hj : j < 4) (hi : i < 8) :
    crcDec4 ((crcEnc4 c).set j ((crcEnc4 c).getD j 0 ^^^ (1 <<< i))) = crcDec4 (crcEnc4 c) := by
  refine crcDec4_congr fun k _ => ?_
  obtain ⟨v, hv⟩ := exists_getD_crcEnc4_eq_hamEnc c hj
  have hlen : j < (crcEnc4 c).length := hj
  by_cases hjk : j = k
  · subst hjk
    rw [List.getD_eq_getElem?_getD, List.getElem?_set_self hlen, Option.getD_some, hv, hamDec_hamEnc_flip v hi,
      hamDec_hamEnc]
  · rw [List.getD_eq_getElem?_getD, List.getElem?_set_ne hjk, ← List.getD_eq_getElem?_getD]

/-- The check compares the frame's FCS with the decoded CRC (R235). -/
theorem crcCheck_eq_true_iff (frame e : List Byte) : crcCheck frame e = true ↔ fcs16 frame = crcDec4 e :=
  beq_iff_eq

/-- The check depends on the CRC the bytes decode to alone (R235). -/
theorem crcCheck_congr (frame : List Byte) {e e' : List Byte} (h : crcDec4 e = crcDec4 e') :
    crcCheck frame e = crcCheck frame e' := by
  rw [crcCheck, crcCheck, h]

/-- Settles O43: the check reads the four decoded nibbles alone, and one flipped bit changes none of them. -/
theorem crcSurvivesOneFlippedBit : Obligations.CrcSurvivesOneFlippedBit := by
  refine ⟨crcDec4_crcEnc4, fun v i => hamDec_hamEnc_flip v,
    fun frame c j i hj hi => crcCheck_congr frame (crcDec4_crcEnc4_flip c hj hi), fun frame e e' hne => ?_⟩
  by_contra hsame
  exact hne (crcCheck_congr frame (crcDec4_congr fun j hj => by_contra fun hdiff => hsame ⟨j, hj, hdiff⟩))

/-! IL2P_CRC_DEC and IL2P_CRC_CHECK (R237, R238). -/

/-- The CRC of four bytes of IBUF (R234). -/
theorem State.crcDec4_ibufBytes (s : State) (a : Nat) :
    crcDec4 (s.ibufBytes a 4)
      = hamDec (s.ibufByte a) ++ hamDec (s.ibufByte (a + 1)) ++ hamDec (s.ibufByte (a + 2))
        ++ hamDec (s.ibufByte (a + 3)) :=
  rfl

/-- Settles O45: the operand is in IBUF's first four bytes. -/
theorem il2pCrcDecReportsCrc : Obligations.Il2pCrcDecReportsCrc := by
  intro s
  have hexec : exec .il2pCrcDec s = execIl2pCrcDec s := rfl
  rw [hexec, execIl2pCrcDec, withIbuf_pos rfl, State.crcDec4_ibufBytes, State.results_eq_finish]

/-- Settles O46: the frame and the four bytes after it are inside IBUF. -/
theorem il2pCrcCheckCompares : Obligations.Il2pCrcCheckCompares := by
  intro n s
  have hexec : exec (.il2pCrcCheck n) s = execIl2pCrcCheck n s := rfl
  rw [hexec, execIl2pCrcCheck, withIbuf_pos (inBuffer_len n), withIbuf_pos (inBuffer_afterLen n),
    if_congr (crcCheck_eq_true_iff _ _) rfl rfl, State.crcDec4_ibufBytes, State.results_eq_finish]

end Sys2Proof.Machine
end

section
/-! SUPPORT. The IL2P serializer's bits, and IL2P_SEND and L2_SEND by their frame and path. Settles O48, O49 and O50. -/

namespace Sys2Proof.Machine

/-! The serializer (R261). -/

/-- The serializer sends the bits of each byte from bit 7 down, each under INVERT (R79, R261). -/
theorem il2pBits_eq_flatMap_msbBits (invert : Bit) (bytes : List Byte) :
    il2pBits invert bytes = bytes.flatMap (msbBits invert) :=
  rfl

/-- The serializer sends eight bits a byte (R261). -/
theorem length_flatMap_msbBits (invert : Bit) (bytes : List Byte) :
    (bytes.flatMap (msbBits invert)).length = 8 * bytes.length := by
  have hbyte (x : Byte) : (msbBits invert x).length = 8 := rfl
  simp [List.length_flatMap, hbyte, Nat.mul_comm]

/-- IL2P_TX's channel: the frame's bits pushed plain and counted from 0 (R45, R261). -/
theorem Chan.startCount_il2pTx (bytes : List Byte) (invert : Bit) (c : Chan) :
    c.startCount.il2pTx bytes invert = c.sentPlain (bytes.flatMap (msbBits invert)) := by
  rw [Chan.il2pTx, Chan.startCount_putBits, il2pBits_eq_flatMap_msbBits]

/-! IL2P_SEND (R262). -/

/-- A frame that cannot be built is an encode failure, whichever encoder refused it (R260). -/
theorem il2pFrame_error {C : Codec} {frame : List Byte} {cfg : EffCfg} {e : StatusError}
    (h : il2pFrame C frame cfg = .error e) : e = .encodeFailure := by
  obtain hrefused | ⟨hdr, pay, blocks, -, -, hbuilt⟩ := il2pFrame_cases C frame cfg
  · exact Except.error.inj (h.symm.trans hrefused)
  · exact absurd (h.symm.trans hbuilt) nofun

/-- Settles O48: the frame is built and serialized, or is an encode failure, whose code is −4. -/
theorem il2pSendSendsFrameOrRefuses : Obligations.Il2pSendSendsFrameOrRefuses := by
  intro ch n s c hc
  have hexec : exec (.il2pSend ch n) s = execIl2pSend ch n s := rfl
  rw [hexec, execIl2pSend, onChannel_some hc, withIbuf_pos (inBuffer_len n)]
  cases hframe : il2pFrame Codec.machine (s.ibufBytes 0 n.toNat) (effCfg c.cfg) with
  | ok bytes =>
    simp only [hframe, Chan.startCount_il2pTx, Chan.sentPlain_bitsSent, length_flatMap_msbBits,
      State.withChan_eq_setChan, State.results_eq_finish]
  | error e =>
    obtain rfl := il2pFrame_error hframe
    simp only [hframe]
    rfl

/-! L2_SEND on HDLC and IL2P channels (R263, R264). -/

/-- L2_SEND takes the HDLC path on a channel that is neither IL2P nor FX.25 (R263 step 3). -/
theorem layer2Path_of_modeHdlc {C : Codec} {ch : Nat} {frame : List Byte} {c : Chan}
    (hfx25 : (effCfg c.cfg).mode ≠ modeFx25) (hil2p : (effCfg c.cfg).mode ≠ modeIl2p) :
    layer2Path C ch frame c = .hdlc := by
  rw [layer2Path, if_neg hil2p, if_neg hfx25]

/-- L2_SEND takes the HDLC path on an IL2P channel whose frame cannot be built, not the FX.25 one (R264 (3)). -/
theorem layer2Path_of_il2p_refused {C : Codec} {ch : Nat} {frame : List Byte} {c : Chan} {e : StatusError}
    (hmode : (effCfg c.cfg).mode = modeIl2p) (hframe : il2pFrame C frame (effCfg c.cfg) = .error e) :
    layer2Path C ch frame c = .hdlc := by
  simp only [layer2Path, if_pos hmode, hframe]

/-- Settles O49: the path is HDLC's, and what it does is what HDLC_SEND does. -/
theorem l2SendHdlcModeIsHdlcSend : Obligations.L2SendHdlcModeIsHdlcSend := by
  intro ch f n s c hc hfx25 hil2p
  rw [hdlcSendSendsFrame ch f n s c hc, and_self, execL2Send_eq hc, layer2Path_of_modeHdlc hfx25 hil2p]

/-- Settles O50: the frame is built and takes the IL2P path, or is refused and takes HDLC's. -/
theorem l2SendIl2pModeFallsBack : Obligations.L2SendIl2pModeFallsBack := by
  intro ch f n s c hc hmode
  rw [execL2Send_eq hc]
  cases hframe : il2pFrame Codec.machine (s.ibufBytes 0 n.toNat) (effCfg c.cfg) with
  | ok bytes => simp only [layer2Path_of_modeIl2p hmode hframe, il2pBits_eq_flatMap_msbBits, length_flatMap_msbBits]
  | error e => rw [layer2Path_of_il2p_refused hmode hframe]

end Sys2Proof.Machine
end

section
/-! SUPPORT. The system commands NOP and CFG_READ. Settles O15, O17 and O18. -/

namespace Sys2Proof.Machine

/-! CFG_READ (R292). -/

/-- Settles O17: the value reported is the channel's own. -/
theorem cfgReadReportsStored : Obligations.CfgReadReportsStored := by
  intro ch s c hc
  have hexec : exec (.cfgRead ch) s = execCfgRead ch s := rfl
  rw [hexec, execCfgRead, onChannel_some hc, State.results_eq_finish]

/-- What CFG_READ leaves in VALUE is the stored configuration (R292). -/
theorem value_of_cfgRead {ch : BitVec 8} {s t : State} {c : Chan} (hc : s.chan? ch.toNat = some c)
    (h : exec (.cfgRead ch) s = .next t) : t.value = c.cfg.setWidth 32 := by
  obtain rfl := Host.Outcome.next.inj ((cfgReadReportsStored ch s c hc).symm.trans h)
  rfl

/-- A legal CFG_WRITE stores its value in the channel it names (R291). -/
theorem chan?_of_cfgWrite_same {ch : BitVec 8} {cfg : BitVec 12} {s t : State} {c : Chan}
    (hc : s.chan? ch.toNat = some c) (hlegal : cfg.toNat % 4 ≠ 3) (h : exec (.cfgWrite ch cfg) s = .next t) :
    t.chan? ch.toNat = some { c with cfg := cfg } := by
  rw [exec_chan?_named rfl h, hc, Option.map_some, Instr.chanAfter, if_neg (mt (cfgMode_eq_illegal_iff cfg).1 hlegal)]

/-- CFG_WRITE leaves every channel it does not name (R85, R291). -/
theorem chan?_of_cfgWrite_other {ch ch' : BitVec 8} {cfg : BitVec 12} {s t : State} (hne : ch ≠ ch')
    (h : exec (.cfgWrite ch cfg) s = .next t) : t.chan? ch'.toNat = s.chan? ch'.toNat := by
  refine otherChannelsUntouched _ s t _ h fun named hnamed htoNat => hne ?_
  obtain rfl := Option.some.inj hnamed
  exact BitVec.eq_of_toNat_eq htoNat

/-- Settles O18: the read reports the channel as the write left it, which stored the value in the channel it names and
left the others. -/
theorem cfgReadAfterWrite : Obligations.CfgReadAfterWrite := by
  intro ch ch' cfg s t u c hc _ hlegal hwrite hread
  by_cases hch : ch = ch'
  · subst hch
    rw [if_pos rfl, value_of_cfgRead (chan?_of_cfgWrite_same hc hlegal hwrite) hread]
  · rw [if_neg hch, value_of_cfgRead ((chan?_of_cfgWrite_other hch hwrite).trans hc) hread]

/-! NOP (R290). -/

/-- The word 0 is NOP, and no other word is (R109). -/
theorem decode_eq_nop_iff {w : Word} : decode w = .ok .nop ↔ w = 0 :=
  decode_eq_ok_iff.trans eq_comm

/-- The one word with OP 0 that is not malformed is NOP's: its row is the only one with OP 0 (R109, R110). -/
theorem malformed_of_opField_zero {w : Word} (hop : opField w = 0) (hw : w ≠ 0) : Malformed w := by
  have hrow : opcodeMap[0] ∈ opcodeMap := List.getElem_mem _
  exact (malformed_iff_not_accepts hrow hop).2 fun haccepts =>
    hw (decode_eq_nop_iff.1 (decode_of_accepts hrow haccepts))

/-- A faulted block ignores every command word (R305). -/
theorem runCommand_of_faulted {s : State} (hf : s.fault.faulted = true) (w : Word) : runCommand w s = .next s := by
  simp only [runCommand, hf]

/-- Settles O15: NOP's word is 0, every other word with OP 0 is malformed, and a faulted block ignores both. -/
theorem nopClearsResults : Obligations.NopClearsResults := by
  refine ⟨fun s => rfl, fun w s rest hop hw hhost hf => ?_, fun s rest hhost => ?_⟩
  · exact (malformedWordsAreIllegal w).2 s rest hhost hf (malformed_of_opField_zero hop hw)
  · rw [step_cmd hhost]
    by_cases hf : s.fault.faulted = true
    · rw [if_pos hf]
      exact runCommand_of_faulted (s := { s with host := rest }) hf 0
    · rw [if_neg hf]
      exact runCommand_of_decode (s := { s with host := rest }) (Bool.eq_false_of_not_eq_true hf)
        (decode_eq_nop_iff.2 rfl)

end Sys2Proof.Machine
end

section
/-! SUPPORT. Faults: which states a command leaves with a fault, what a faulted block ignores, and a block with nothing to
do. Settles O7, O8, O9 and O10. -/

namespace Sys2Proof.Machine

/-! Nothing to do (R318, R342). -/

/-- Settles O7: with an empty list the step takes nothing. -/
theorem idleHoldsState : Obligations.IdleHoldsState := by
  intro s hhost
  rw [step, takeAction, hhost]

/-! Channel commands (R306). -/

/-- Every channel command begins with the channel check (R108 (3), R306). -/
theorem exec_eq_onChannel {i : Instr} {ch : BitVec 8} (hi : i.channel? = some ch) (s : State) :
    ∃ rule, exec i s = onChannel i ch s rule := by
  cases i with
  | nop | fcsCalc | il2pPlan | il2pEnc | il2pDec | il2pCrcEnc | il2pCrcDec | il2pCrcCheck => cases hi
  | cfgWrite | cfgRead | hdlcSend | preamble | hdlcRx | il2pSend | l2Send =>
    cases hi
    exact ⟨_, rfl⟩

/-- A row makes commands of its OP (R109). -/
theorem opField_encode_build {r : OpRow} (hr : r ∈ opcodeMap) (len : BitVec 12) (f : Bit) (ch : BitVec 8) :
    opField (encode (r.build len f ch)) = r.op := by
  rw [OpRow.encode_build hr]
  exact OpRow.opField_of_accepts (r.accepts_word len f ch)

/-- A row makes channel commands exactly when CH is free in it (R103, R109). -/
theorem isSome_channel?_build {r : OpRow} (hr : r ∈ opcodeMap) (len : BitVec 12) (f : Bit) (ch : BitVec 8) :
    (r.build len f ch).channel?.isSome = r.chFree := by
  fin_cases hr <;> rfl

/-- The channel commands are those whose OP is in the list of the rows with a free CH. -/
theorem isSome_channel?_iff (i : Instr) : i.channel?.isSome = true ↔ opField (encode i) ∈ opsOf OpRow.chFree := by
  obtain ⟨r, hr, len, f, ch, rfl⟩ := exists_build_eq i
  rw [isSome_channel?_build hr, opField_encode_build hr, op_mem_opsOf hr]

/-- Settles O10: the listed OPs are those of the rows with a free CH, and the channel check comes before the rule. -/
theorem invalidChannelIsRaised : Obligations.InvalidChannelIsRaised := by
  refine ⟨isSome_channel?_iff, fun i ch s hi hch => ?_⟩
  obtain ⟨rule, hexec⟩ := exec_eq_onChannel hi s
  rw [hexec]
  exact onChannel_none ((s.chan?_eq_none_iff ch.toNat).2 hch) rule

/-! Precise faults (R304). -/

/-- The command i, run in s, has left t with the fault record of s, or has raised a fault and done nothing else. -/
def FaultsPrecisely (i : Instr) (s t : State) : Prop :=
  t.fault = s.fault ∨ ∃ cause, t = s.raiseFault cause (encode i)

section Commands

variable {s t : State}

/-- The channel check faults precisely, so a channel command does when its rule does (R306). -/
theorem FaultsPrecisely.of_onChannel {i : Instr} {ch : BitVec 8} {rule : Chan → Result}
    (h : onChannel i ch s rule = .next t) (hrule : ∀ c, rule c = .next t → FaultsPrecisely i s t) :
    FaultsPrecisely i s t := by
  obtain ⟨c, -, hc⟩ | ⟨-, ht⟩ := onChannel_next h
  · exact hrule c hc
  · exact .inr ⟨_, ht⟩

/-- Storing a channel and writing the result registers raises no fault. -/
theorem FaultsPrecisely.of_stored (i : Instr) (s : State) (ch : BitVec 8) (c : Chan) (st v a o : Word) :
    FaultsPrecisely i s ((s.setChan ch c).finish st v a o) :=
  .inl rfl

/-- Writing output bytes and the result registers raises no fault. -/
theorem fault_of_finishOut {out : List Byte} {st v a : Word} (h : finishOut out st v a s = .next t) :
    t.fault = s.fault := by
  obtain ⟨-, rfl⟩ := finishOut_next h
  rfl

/-- CFG_WRITE raises IllegalCommand before it stores anything (R291). -/
theorem execCfgWrite_faultsPrecisely {ch : BitVec 8} {cfg : BitVec 12} (h : execCfgWrite ch cfg s = .next t) :
    FaultsPrecisely (.cfgWrite ch cfg) s t := by
  refine .of_onChannel h fun c hc => ?_
  split at hc
  · exact .inr ⟨_, (Host.Outcome.next.inj hc).symm⟩
  · obtain rfl := Host.Outcome.next.inj hc
    exact .of_stored ..

theorem execHdlcSend_faultsPrecisely {ch : BitVec 8} {f : Bit} {n : BitVec 12} (h : execHdlcSend ch f n s = .next t) :
    FaultsPrecisely (.hdlcSend ch f n) s t := by
  refine .of_onChannel h fun c hc => ?_
  obtain rfl := Host.Outcome.next.inj (withIbuf_next hc).2
  exact .of_stored ..

theorem execPreamble_faultsPrecisely {ch : BitVec 8} {finish : Bit} {n : BitVec 12}
    (h : execPreamble ch finish n s = .next t) : FaultsPrecisely (.preamble ch finish n) s t := by
  refine .of_onChannel h fun c hc => ?_
  obtain rfl := Host.Outcome.next.inj hc
  exact .of_stored ..

theorem execHdlcRx_faultsPrecisely {ch : BitVec 8} {n : BitVec 12} (h : execHdlcRx ch n s = .next t) :
    FaultsPrecisely (.hdlcRx ch n) s t := by
  refine .of_onChannel h fun c hc => ?_
  have hkept := fault_of_finishOut (withIbuf_next hc).2
  exact .inl (hkept.trans (State.setChan_fault ..))

theorem execFcsCalc_fault {n : BitVec 12} (h : execFcsCalc n s = .next t) : t.fault = s.fault := by
  obtain rfl := Host.Outcome.next.inj (withIbuf_next h).2
  rfl

theorem execIl2pPlan_fault {m : Bit} {size : BitVec 12} (h : execIl2pPlan m size s = .next t) : t.fault = s.fault := by
  unfold execIl2pPlan at h
  split at h
  · obtain rfl := Host.Outcome.next.inj h
    rfl
  · exact fault_of_finishOut h

theorem execIl2pEnc_fault {m : Bit} {size : BitVec 12} (h : execIl2pEnc m size s = .next t) : t.fault = s.fault := by
  unfold execIl2pEnc at h
  split at h
  · obtain rfl := Host.Outcome.next.inj h
    rfl
  · obtain rfl := Host.Outcome.next.inj (guardRange_next (withIbuf_next h).2).2
    split <;> rfl

theorem execIl2pDec_fault {m : Bit} {size : BitVec 12} (h : execIl2pDec m size s = .next t) : t.fault = s.fault := by
  unfold execIl2pDec at h
  split at h
  · obtain rfl := Host.Outcome.next.inj h
    rfl
  · obtain rfl := Host.Outcome.next.inj (guardRange_next (withIbuf_next h).2).2
    split <;> rfl

theorem execIl2pCrcEnc_fault (h : execIl2pCrcEnc s = .next t) : t.fault = s.fault :=
  fault_of_finishOut (withIbuf_next h).2

theorem execIl2pCrcDec_fault (h : execIl2pCrcDec s = .next t) : t.fault = s.fault := by
  obtain rfl := Host.Outcome.next.inj (withIbuf_next h).2
  rfl

theorem execIl2pCrcCheck_fault {n : BitVec 12} (h : execIl2pCrcCheck n s = .next t) : t.fault = s.fault := by
  obtain rfl := Host.Outcome.next.inj (withIbuf_next (withIbuf_next h).2).2
  rfl

theorem execIl2pSend_faultsPrecisely {ch : BitVec 8} {n : BitVec 12} (h : execIl2pSend ch n s = .next t) :
    FaultsPrecisely (.il2pSend ch n) s t := by
  refine .of_onChannel h fun c hc => ?_
  obtain rfl := Host.Outcome.next.inj (withIbuf_next hc).2
  split <;> exact .of_stored ..

theorem execL2Send_faultsPrecisely {ch : BitVec 8} {f : Bit} {n : BitVec 12} (h : execL2Send ch f n s = .next t) :
    FaultsPrecisely (.l2Send ch f n) s t := by
  refine .of_onChannel h fun c hc => ?_
  obtain rfl := Host.Outcome.next.inj (withIbuf_next hc).2
  split <;> exact .of_stored ..

/-- Every command faults precisely: once past the channel check only CFG_WRITE raises a fault (R303, R304, R306). -/
theorem exec_faultsPrecisely {i : Instr} (h : exec i s = .next t) : FaultsPrecisely i s t := by
  cases i with
  | nop => exact .inl (Host.Outcome.next.inj h ▸ rfl)
  | cfgWrite ch cfg => exact execCfgWrite_faultsPrecisely h
  | cfgRead ch => exact .of_onChannel h fun c hc => .inl (Host.Outcome.next.inj hc ▸ rfl)
  | hdlcSend ch f n => exact execHdlcSend_faultsPrecisely h
  | preamble ch finish n => exact execPreamble_faultsPrecisely h
  | hdlcRx ch n => exact execHdlcRx_faultsPrecisely h
  | fcsCalc n => exact .inl (execFcsCalc_fault h)
  | il2pPlan m size => exact .inl (execIl2pPlan_fault h)
  | il2pEnc m size => exact .inl (execIl2pEnc_fault h)
  | il2pDec m size => exact .inl (execIl2pDec_fault h)
  | il2pCrcEnc => exact .inl (execIl2pCrcEnc_fault h)
  | il2pCrcDec => exact .inl (execIl2pCrcDec_fault h)
  | il2pCrcCheck n => exact .inl (execIl2pCrcCheck_fault h)
  | il2pSend ch n => exact execIl2pSend_faultsPrecisely h
  | l2Send ch f n => exact execL2Send_faultsPrecisely h

/-- A command word that faults is the one the record holds (R37, R304). -/
theorem runCommand_faulted {w : Word} (hf : s.fault.faulted = false) (h : runCommand w s = .next t)
    (ht : t.fault.faulted = true) : ∃ cause, t = s.raiseFault cause w := by
  obtain ⟨hfaulted, -⟩ | ⟨-, i, hdecode, hexec⟩ | ⟨-, -, hraised⟩ := runCommand_next h
  · exact absurd (hf.symm.trans hfaulted) Bool.false_ne_true
  · rw [← decode_eq_ok_iff.1 hdecode]
    refine (exec_faultsPrecisely hexec).resolve_left fun hkept => ?_
    rw [hkept, hf] at ht
    exact Bool.false_ne_true ht
  · exact ⟨_, hraised⟩

end Commands

/-- There are two causes (R302). -/
theorem FaultCause.code_eq_or (cause : FaultCause) : cause.code = 1 ∨ cause.code = 2 := by
  cases cause with
  | illegalCommand => exact .inl rfl
  | invalidChannel => exact .inr rfl

/-- Settles O8: the word is rejected, or its command faults precisely, and the word is that command's encoding. -/
theorem faultsArePrecise : Obligations.FaultsArePrecise := by
  intro s t w rest hhost hf hstep ht
  obtain ⟨cause, hraised⟩ := runCommand_faulted (s := { s with host := rest }) hf ((step_cmd hhost).symm.trans hstep) ht
  exact ⟨cause.code, cause.code_eq_or, hraised⟩

/-! A faulted block (R305). -/

/-- A faulted block takes a command word off the host's list and does nothing with it (R305). -/
theorem step_cmd_of_faulted {s : State} {w : Word} {rest : List HostAction} (hf : s.fault.faulted = true)
    (hhost : s.host = .cmd w :: rest) : step s = .next { s with host := rest } :=
  (step_cmd hhost).trans (runCommand_of_faulted (s := { s with host := rest }) hf w)

/-- A run that begins with a step that goes on is the run from there. -/
theorem run_succ_of_step {s t : State} (h : step s = .next t) (k : Nat) :
    Host.Core.run Sys2Proof.core (k + 1) s = Host.Core.run Sys2Proof.core k t := by
  have hstep : Sys2Proof.core.step s = .next t := h
  simp only [Host.Core.run, hstep]

/-- A faulted block ignores any number of command words (R305). -/
theorem run_of_faulted (ws : List Word) {s : State} {rest : List HostAction} (hf : s.fault.faulted = true)
    (hhost : s.host = ws.map .cmd ++ rest) :
    Host.Core.run Sys2Proof.core ws.length s = Host.Outcome.next ({ s with host := rest } : State) := by
  induction ws generalizing s with
  | nil =>
    obtain rfl : s.host = rest := hhost
    rfl
  | cons w ws ih => exact (run_succ_of_step (step_cmd_of_faulted hf hhost) ws.length).trans (ih hf rfl)

/-- An action other than RESET leaves the record of a faulted block, and RESET clears it (R305). -/
theorem hostAct_fault_of_faulted {act : HostAction} {s t : State} (hf : s.fault.faulted = true)
    (h : hostAct act s = .next t) : (act ≠ .reset → t.fault = s.fault) ∧ (act = .reset → t.fault.faulted = false) := by
  obtain ⟨w, rfl, hrun⟩ | ⟨a, bytes, rfl, -, rfl⟩ | ⟨rfl, rfl⟩ := hostAct_next h
  · obtain rfl := Host.Outcome.next.inj ((runCommand_of_faulted hf w).symm.trans hrun)
    exact ⟨fun _ => rfl, nofun⟩
  · exact ⟨fun _ => rfl, nofun⟩
  · exact ⟨fun hne => absurd rfl hne, fun _ => rfl⟩

/-- Settles O9: each command word is taken and ignored, and of the other actions only RESET writes the record. -/
theorem faultedBlockIsStuckUntilReset : Obligations.FaultedBlockIsStuckUntilReset := by
  refine fun s hf => ⟨fun ws rest hhost => run_of_faulted ws hf hhost, fun act rest t hhost hstep => ?_⟩
  have hact : hostAct act { s with host := rest } = .next t := by
    rwa [step, takeAction, hhost] at hstep
  exact hostAct_fault_of_faulted (s := { s with host := rest }) hf hact

end Sys2Proof.Machine
end

section
/-! SUPPORT. RESET (R340): what it leaves in the buffers and the channels, and the step that takes it. Settles O12. -/

namespace Sys2Proof.Machine

/-- After a reset IBUF holds the free values of that reset (log 4). -/
@[simp] theorem State.ibufByte_afterReset (s : State) (a : Nat) :
    s.afterReset.ibufByte a = Config.ibufReset (s.resets + 1) a := rfl

/-- After a reset OBUF holds the free values of that reset (log 4). -/
@[simp] theorem State.obufByte_afterReset (s : State) (a : Nat) :
    s.afterReset.obufByte a = Config.obufReset (s.resets + 1) a := rfl

/-- The number of channels is a parameter of the machine: a reset keeps it (R11). -/
@[simp] theorem State.nch_afterReset (s : State) : s.afterReset.nch = s.nch := List.length_map _

/-- Every channel of a machine that has been reset is a reset channel (R340). -/
theorem State.eq_reset_of_mem_afterReset {s : State} {c : Chan} (hc : c ∈ s.afterReset.chans) : c = Chan.reset := by
  rw [State.afterReset_chans] at hc
  obtain ⟨-, -, rfl⟩ := List.mem_map.1 hc
  rfl

/-- A step that takes a RESET resets the state the action is taken off, faulted or not (R305, R340). -/
theorem step_reset {s : State} {rest : List HostAction} (h : s.host = .reset :: rest) :
    step s = .next ({ s with host := rest } : State).afterReset := by
  rw [step, takeAction, h]
  rfl

/-- Settles O12: the step leaves `afterReset`, whose registers, channels and buffers the lemmas above state. -/
theorem resetRestoresEveryRegister : Obligations.ResetRestoresEveryRegister := by
  intro s rest hhost
  refine ⟨_, step_reset hhost, ?results, State.afterReset_fault _, State.nch_afterReset _, State.afterReset_host _,
    fun _ hc => State.eq_reset_of_mem_afterReset hc, ?buffers⟩
  case results =>
    exact ⟨State.afterReset_status _, State.afterReset_value _, State.afterReset_aux _, State.afterReset_outLen _⟩
  case buffers =>
    exact fun a => ⟨State.ibufByte_afterReset _ a, State.obufByte_afterReset _ a⟩

end Sys2Proof.Machine
end
